-- ==== Sys2Proof/Word.lean ====
section
/-! DEFINITION. The machine word of the block (spec/00_scope.md R6, R7): 64 bits, bit 0 least significant. -/

namespace Sys2Proof

/-- A machine word: memory word, register and datapath are all 64 bits wide (R6, WORD_BITS). -/
abbrev Word := BitVec 64

/-- A byte of the memory where the platform makes it byte-addressable for the host (R41). -/
abbrev Byte := BitVec 8

end Sys2Proof
end

