-- ==== Sys2Proof/Syntax.lean ====
section
/-! DEFINITION. The eight commands of the block (spec/30_encoding.md R58), one constructor per row of
spec/opcode_table.json. Buffers, modulus, dimension and lane index come from registers (R57, R61): only CMPEQQ and
SMUL carry an operand, written as the assembler syntax of R63 writes it. -/

namespace Sys2Proof

/-- A command (R58). The operand is the number that R57 reads from IMM32. -/
inductive Instr where
  /-- LAYOUT, R70: lay out the modulus MODULUS for DIM lanes. -/
  | layout
  /-- COPY, R82: buffer A to buffer B, word for word. -/
  | copy
  /-- CMPEQ, R91: equality of buffers A and B modulo p. -/
  | cmpeq
  /-- CMPEQQ q, R94: equality of buffers A and B modulo q. -/
  | cmpeqq (q : Nat)
  /-- ADD, R100: lane-wise A + B into A. -/
  | add
  /-- SMUL factor, R105: lane-wise factor * A into A. -/
  | smul (factor : Int)
  /-- LGET, R83: one lane of A into LANE_DATA. -/
  | lget
  /-- LSET, R84: LANE_DATA into one lane of A. -/
  | lset
  deriving DecidableEq, Repr

end Sys2Proof
end

