-- ==== Sys2Proof/WellFormed.lean ====
section
/-! DEFINITION. Which terms of Instr an encoding exists for: the operand ranges of spec/30_encoding.md R57 and R63. -/

namespace Sys2Proof

/-- The operand fits IMM32: q is unsigned, 0 <= q < 2^32; factor is signed, -2^31 <= factor < 2^31 (R57, R63). -/
def Instr.wellFormed : Instr → Bool
  | .layout => true
  | .copy => true
  | .cmpeq => true
  | .cmpeqq q => decide (q < 2 ^ 32)
  | .add => true
  | .smul factor => decide (-(2 ^ 31) ≤ factor) && decide (factor < 2 ^ 31)
  | .lget => true
  | .lset => true

end Sys2Proof
end

