-- ==== Sys2Proof/Decode.lean ====
section
/-! DEFINITION. The decoder and the encoder of the 64-bit command word (spec/30_encoding.md R55 to R60). The decoder is
total: each of the 2^64 words gives one command or a rejection by name, and reads no register and no memory (R56). -/

namespace Sys2Proof

/-- Why a command word is illegal (R59). Each of the three ends in ErrIllegal (R114). -/
inductive DecodeError where
  /-- Bits 31:8 are not zero (R59 b). -/
  | zeroField
  /-- OPCODE is 0x00 or 0x09 to 0xFF (R59 a). -/
  | reservedOpcode
  /-- IMM32 is not zero in a command that takes no immediate (R59 c). -/
  | immediate
  deriving DecidableEq, Repr

/-- OPCODE, bits 7:0 (R55). -/
def opcodeField (c : Word) : BitVec 8 := c.extractLsb' 0 8

/-- ZERO, bits 31:8 (R55). -/
def zeroBits (c : Word) : BitVec 24 := c.extractLsb' 8 24

/-- IMM32, bits 63:32 (R55). -/
def immField (c : Word) : BitVec 32 := c.extractLsb' 32 32

/-- A command without an immediate: IMM32 must be zero (R56, R59 c). -/
def decodeBare (c : Word) (i : Instr) : Except DecodeError Instr :=
  if immField c = 0 then .ok i else .error .immediate

/-- The decoder (R56): first ZERO, then OPCODE, then IMM32. CMPEQQ reads IMM32 zero-extended, SMUL sign-extended
(R57). -/
def decode (c : Word) : Except DecodeError Instr :=
  if zeroBits c = 0 then
    match (opcodeField c).toNat with
    | 0x01 => decodeBare c .layout
    | 0x02 => decodeBare c .copy
    | 0x03 => decodeBare c .cmpeq
    | 0x04 => .ok (.cmpeqq (immField c).toNat)
    | 0x05 => decodeBare c .add
    | 0x06 => .ok (.smul (immField c).toInt)
    | 0x07 => decodeBare c .lget
    | 0x08 => decodeBare c .lset
    | _ => .error .reservedOpcode
  else .error .zeroField

/-- The OPCODE of a command (R58). -/
def opcode : Instr → BitVec 8
  | .layout => 0x01
  | .copy => 0x02
  | .cmpeq => 0x03
  | .cmpeqq _ => 0x04
  | .add => 0x05
  | .smul _ => 0x06
  | .lget => 0x07
  | .lset => 0x08

/-- IMM32 of a command: q, factor mod 2^32, or zero (R58). -/
def immediate : Instr → BitVec 32
  | .layout => 0
  | .copy => 0
  | .cmpeq => 0
  | .cmpeqq q => BitVec.ofNat 32 q
  | .add => 0
  | .smul factor => BitVec.ofInt 32 factor
  | .lget => 0
  | .lset => 0

/-- The encoder: the command word of a well-formed command (R58). -/
def encode (i : Instr) : Word := immediate i ++ (0 : BitVec 24) ++ opcode i

/-- What the decoder reads from an opcode-table word of `nbits` bits, bits above `nbits` being zero. The block's one
format is a single 64-bit word (R60), so nothing lies above bit 63. -/
def decodeTableWord (nbits w : Nat) : Option Instr :=
  match decode (BitVec.ofNat 64 (w % 2 ^ nbits)) with
  | .ok i => some i
  | .error _ => none

end Sys2Proof
end

