-- ==== Sys2Proof/Config.lean ====
section
/-! DEFINITION. The implementation parameters that the spec leaves open for a platform (spec/00_scope.md R6,
spec/92_eei_decisions.md D16, D31): the width of a word address and which word addresses storage backs.
The spec calls them arguments of the model (R39). They stand in State as plain data that no step changes, so that
a statement about every state is a statement about every platform. -/

namespace Sys2Proof

/-- The open parameters of one instance (R6). -/
structure Params where
  /-- ADDR_BITS: the width of a word address on the memory port (D16). -/
  addrBits : Nat
  /-- MEM_ADMIT, by its complement (D31): ranges (first word address, number of words) that no storage backs.
  Every subset of the finite address space is the complement of such a list. -/
  holes : List (Nat × Nat)
  deriving DecidableEq, Repr

/-- The defaults the spec gives (R6): ADDR_BITS = 32 and every word address backed. -/
def defaultParams : Params where
  addrBits := 32
  holes := []

end Sys2Proof
end

