-- ==== Sys2Proof/Machine/State.lean ====
section
/-! DEFINITION. The state of the block and of the system around it: the registers (spec/10_state.md R10), the memory
that the system carries (R10, R36), and the host's side (spec/30_encoding.md R63). State is plain data. -/

namespace Sys2Proof.Machine

/-- Why the machine stops with a fault. -/
inductive Fault where
  /-- Raised by a memory access, of the block or of the host, at a word address that is not below 2^ADDR_BITS: no such
  word exists (R36, R40, R42). The block's own range check (R45) reports ERR_ADDRESS before such an access. Safe: the
  machine stops where the spec gives no meaning. -/
  | outsideAddressSpace (addr : Nat)
  /-- Raised by a memory access, of the block or of the host, at a word address that no storage backs (MEM_ADMIT, R54,
  spec/93_implementation_defined.md U7: stuck or fault). Safe: the machine stops where the spec gives no meaning. -/
  | unbacked (addr : Nat)
  deriving DecidableEq, Repr

/-- Why a step has no meaning. -/
inductive Refusal where
  /-- Raised by an arm of exec whose command has no meaning yet; no arm answers so in this model. Safe. -/
  | notModelled (mnemonic : String)
  deriving DecidableEq, Repr

/-- The memory of the system, as (byte address, byte) pairs in a canonical form (Machine/Memory.lean): word address a
is the bytes 8a to 8a + 7 (R41). -/
abbrev Memory := List Host.Cell

/-- One access of the block on its memory port: its kind and its word address (R46). The kind, number, order and
addresses of accesses are architectural (R46, R142). -/
inductive Access where
  /-- MemRead(addr, 8), R42. -/
  | read (addr : Nat)
  /-- MemWrite(addr, 8, v), R43. -/
  | write (addr : Nat)
  deriving DecidableEq, Repr

/-- What the outside does to the machine, one action at a time (R63; the reset event, R130; the host's own way to the
memory, R36, R41). -/
inductive HostAction where
  /-- WR reg, v: a host write of a whole register by its number (R31). Register 0 is CMD: it runs a command (R13). -/
  | write (reg : Nat) (v : Word)
  /-- RD reg: a host read of a whole register by its number (R31). -/
  | read (reg : Nat)
  /-- The host stores a word in the memory by its own means (R36, R42). -/
  | store (addr : Nat) (v : Word)
  /-- The host loads a word from the memory by its own means (R36). -/
  | load (addr : Nat)
  /-- The host stores one byte, where the platform makes the memory byte-addressable for it (R41). -/
  | storeByte (byteAddr : Nat) (v : Byte)
  /-- The host loads one byte, where the platform makes the memory byte-addressable for it (R41). -/
  | loadByte (byteAddr : Nat)
  /-- The reset event (R130). -/
  | reset
  deriving DecidableEq, Repr

/-- Everything the spec gives the machine. Register 0, CMD, stores nothing (R13) and has no field. -/
structure State where
  /-- Register 1: ERR in bits 3:0, CFG_VALID in bit 8 (R16). -/
  status : Word
  /-- Register 2: the comparison result code in bits 1:0 (R17). -/
  result : Word
  /-- Register 3: bit k is set when a command ends with ERR = k (R18). -/
  errlog : Word
  /-- Register 4: the modulus p (R14). -/
  modulus : Word
  /-- Register 5: the dimension (R15). -/
  dim : Word
  /-- Register 6: l (R19). -/
  laneWidth : Word
  /-- Register 7: s (R20). -/
  lanePitch : Word
  /-- Register 8: n (R21). -/
  lanesPerWord : Word
  /-- Register 9: VM (R22). -/
  valueMask : Word
  /-- Register 10: GM (R23). -/
  guardMask : Word
  /-- Register 11: WC (R24). -/
  wordCount : Word
  /-- Register 12: word address of buffer A (R25). -/
  aBase : Word
  /-- Register 13: declared length of buffer A in words (R26). -/
  aLen : Word
  /-- Register 14: word address of buffer B (R27). -/
  bBase : Word
  /-- Register 15: declared length of buffer B in words (R28). -/
  bLen : Word
  /-- Register 16: logical lane index (R29). -/
  laneIdx : Word
  /-- Register 17: lane value (R30). -/
  laneData : Word
  /-- The memory outside the block (R10, R36, R40). -/
  mem : Memory
  /-- The platform's parameters, which no step changes (R6, R39). -/
  params : Params
  /-- The model's own: the host's actions still to come, the next one first (R12, R63, R143). -/
  script : List HostAction
  /-- The model's own: the values the host has read so far, oldest first (R31, R63). -/
  replies : List Word
  /-- The model's own: the block's memory accesses so far, oldest first (R46, R142). -/
  port : List Access
  deriving DecidableEq, Repr

/-- The machine right after reset (R38, R131): every register holds 0. The memory lists nothing, the platform has the
default parameters (R6), the host has nothing to do and has seen nothing. -/
def State.reset : State where
  status := 0
  result := 0
  errlog := 0
  modulus := 0
  dim := 0
  laneWidth := 0
  lanePitch := 0
  lanesPerWord := 0
  valueMask := 0
  guardMask := 0
  wordCount := 0
  aBase := 0
  aLen := 0
  bBase := 0
  bLen := 0
  laneIdx := 0
  laneData := 0
  mem := []
  params := defaultParams
  script := []
  replies := []
  port := []

end Sys2Proof.Machine
end

