-- ==== Sys2Proof/Machine/Operands.lean ====
section
/-! DEFINITION. What a command's operands denote: the layout of a modulus (spec/40_layout.md R71, R72, R75), the active
layout, the lanes of a word (spec/41_vector_access.md R80) and the normalised factor (spec/44_scalar_mul.md R108). -/

namespace Sys2Proof.Machine

/-- The layout record L of R8, R72. -/
structure Layout where
  /-- lane width -/
  l : Nat
  /-- lane pitch -/
  s : Nat
  /-- lanes per word -/
  n : Nat
  /-- value mask VM -/
  vm : Word
  /-- guard mask GM, in the plane domain -/
  gm : Word
  /-- plane mask PM -/
  pm : Word
  /-- check mask CM -/
  cm : Word
  deriving DecidableEq, Repr

/-- `sum_{k<count} field << (k*pitch)`, the form of every mask of R72. -/
def repeatField (field pitch : Nat) : Nat → Nat
  | 0 => 0
  | count + 1 => repeatField field pitch count + field <<< (count * pitch)

/-- The smallest of 2, 4, 8, 16, 32 that is at least l (R72). -/
def lanePitchOf (l : Nat) : Nat :=
  if l ≤ 2 then 2 else if l ≤ 4 then 4 else if l ≤ 8 then 8 else if l ≤ 16 then 16 else 32

/-- VM of R72. -/
def valueMaskOf (l s : Nat) : Word := BitVec.ofNat 64 (repeatField (2 ^ l - 1) s (64 / s))

/-- PM of R72: the value bits of the even lanes. -/
def planeMaskOf (l s : Nat) : Word := BitVec.ofNat 64 (repeatField (2 ^ l - 1) (2 * s) (64 / s / 2))

/-- GM of R72: the bit above each lane of a plane. -/
def guardMaskOf (l s : Nat) : Word := BitVec.ofNat 64 (repeatField (1 <<< l) (2 * s) (64 / s / 2))

/-- CM of R72: the low l - 1 value bits of every lane. -/
def checkMaskOf (l s : Nat) : Word := BitVec.ofNat 64 (repeatField (2 ^ (l - 1) - 1) s (64 / s))

/-- The lane width l of an accepted modulus p = 2^l - 1 with 2 <= l <= 32; none for every other p (R71). -/
def laneWidthOf (p : Nat) : Option Nat := (List.range' 2 31).find? (fun l => decide (p = 2 ^ l - 1))

/-- `derive(p)` of R72, for the modulus of lane width l. -/
def deriveLayout (l : Nat) : Layout where
  l := l
  s := lanePitchOf l
  n := 64 / lanePitchOf l
  vm := valueMaskOf l (lanePitchOf l)
  gm := guardMaskOf l (lanePitchOf l)
  pm := planeMaskOf l (lanePitchOf l)
  cm := checkMaskOf l (lanePitchOf l)

/-- `ceil(d / n)` (R7, R75). -/
def wordCountOf (d n : Nat) : Nat := (d + (n - 1)) / n

/-- The active layout: what the layout registers hold, with PM and CM computed from l and s (R8, R39, R72). -/
def activeLayout (st : State) : Layout where
  l := st.laneWidth.toNat
  s := st.lanePitch.toNat
  n := st.lanesPerWord.toNat
  vm := st.valueMask
  gm := st.guardMask
  pm := planeMaskOf st.laneWidth.toNat st.lanePitch.toNat
  cm := checkMaskOf st.laneWidth.toNat st.lanePitch.toNat

/-- The l low bits set: `2^l - 1` as a word. -/
def lowBits (l : Nat) : Word := BitVec.ofNat 64 (2 ^ l - 1)

/-- `(w >> (k*s)) & (2^l - 1)`: the value of slot k as a word (R80, R83). -/
def laneWord (L : Layout) (w : Word) (k : Nat) : Word := (w >>> (k * L.s)) &&& lowBits L.l

/-- `lane(w, k)` of R80, an integer. -/
def lane (L : Layout) (w : Word) (k : Nat) : Nat := (laneWord L w k).toNat

/-- The word w with the low l bits of v in slot k, every other bit kept (R84). -/
def insertLane (L : Layout) (w v : Word) (k : Nat) : Word :=
  (w &&& ~~~(lowBits L.l <<< (k * L.s))) ||| ((v &&& lowBits L.l) <<< (k * L.s))

/-- `factor mod p`, floored, in [0, p - 1] (R7, R108). -/
def normalFactor (factor : Int) (p : Nat) : Nat := (factor % (p : Int)).toNat

end Sys2Proof.Machine
end

