-- ==== Sys2Proof/Machine/Datapath.lean ====
section
/-! DEFINITION. The three word datapaths: add_word (spec/43_add.md R101), smul_word (spec/44_scalar_mul.md R106) and
neq_word (spec/42_compare.md R92). -/

namespace Sys2Proof.Machine

/-- The even lanes of a word, at pitch 2s (R101). -/
def evenPlane (L : Layout) (w : Word) : Word := w &&& L.pm

/-- The odd lanes of a word, moved down onto the even positions (R101). -/
def oddPlane (L : Layout) (w : Word) : Word := (w >>> L.s) &&& L.pm

/-- End-around carry: the guard bit of each plane lane added back in at bit 0 of its lane (R101, R106). -/
def foldCarry (L : Layout) (t : Word) : Word := (t &&& L.pm) + ((t &&& L.gm) >>> L.l)

/-- The low l bits of each double-width lane plus its next l bits (R106, first fold). -/
def foldHigh (L : Layout) (t : Word) : Word := (t &&& L.pm) + ((t >>> L.l) &&& L.pm)

/-- The two planes put back together (R101). -/
def joinPlanes (L : Layout) (re ro : Word) : Word := re ||| (ro <<< L.s)

/-- `add_word(a, b, L)` of R101. -/
def addWord (L : Layout) (a b : Word) : Word :=
  joinPlanes L (foldCarry L (evenPlane L a + evenPlane L b)) (foldCarry L (oddPlane L a + oddPlane L b))

/-- `smul_word(f, a, L)` of R106. -/
def smulWord (L : Layout) (f : Nat) (a : Word) : Word :=
  joinPlanes L (foldCarry L (foldHigh L (evenPlane L a * BitVec.ofNat 64 f)))
    (foldCarry L (foldHigh L (oddPlane L a * BitVec.ofNat 64 f)))

/-- `(v ^ (v >> 1)) & CM`: zero in a lane whose value bits are all equal (R92, R93). -/
def foldEqualBits (L : Layout) (v : Word) : Word := (v ^^^ (v >>> 1)) &&& L.cm

/-- `neq_word(a, b, L)` of R92. -/
def neqWord (L : Layout) (a b : Word) : Word :=
  foldEqualBits L (a ^^^ b) ||| foldEqualBits L ((a ^^^ b) &&& a)

/-- The word test of CMPEQQ case (d): both lanes rescaled by c = p / q (R94 d). -/
def neqWordScaled (L : Layout) (c : Nat) (a b : Word) : Word := neqWord L (smulWord L c a) (smulWord L c b)

end Sys2Proof.Machine
end

