-- ==== Sys2Proof/Machine/Flags.lean ====
section
/-! DEFINITION. The fields of STATUS, RESULT and ERRLOG (spec/10_state.md R16 to R18) and the error codes
(spec/60_exceptions.md R111). The block has no arithmetic condition flags (R34). -/

namespace Sys2Proof.Machine

/-- The command errors (R111). -/
inductive Err where
  /-- LAYOUT: MODULUS is not an accepted modulus (R119). -/
  | config
  /-- A used buffer's declared length differs from WORD_COUNT (R116). -/
  | length
  /-- LGET, LSET: LANE_IDX is not below DIM (R120). -/
  | index
  /-- The command word is illegal (R114). -/
  | illegal
  /-- A command other than LAYOUT with no valid layout (R115). -/
  | noConfig
  /-- A used buffer does not fit below 2^ADDR_BITS (R117). -/
  | address
  deriving DecidableEq, Repr

/-- The code of an error in STATUS.ERR, and its bit in ERRLOG (R111, R18). -/
def errCode : Err → Nat
  | .config => 1
  | .length => 2
  | .index => 3
  | .illegal => 4
  | .noConfig => 5
  | .address => 6

/-- STATUS.ERR, bits 3:0 (R16). -/
def statusErr (status : Word) : BitVec 4 := status.extractLsb' 0 4

/-- STATUS with ERR replaced (R16). -/
def statusWithErr (status : Word) (k : Nat) : Word :=
  (status &&& ~~~0xF#64) ||| (BitVec.ofNat 4 k).setWidth 64

/-- STATUS.CFG_VALID, bit 8 (R16). -/
def statusCfgValid (status : Word) : Bool := status.getLsbD 8

/-- STATUS with CFG_VALID replaced (R16). -/
def statusWithCfgValid (status : Word) (valid : Bool) : Word :=
  (status &&& ~~~0x100#64) ||| (if valid then 0x100#64 else 0)

/-- The bits of STATUS that are not reserved (R16). -/
def statusBits : Word := 0x10F

/-- The bits of RESULT that are not reserved (R17). -/
def resultBits : Word := 0x3

/-- The bits of ERRLOG that are not reserved: 1 to 6 (R18). -/
def errlogBits : Word := 0x7E

/-- ERRLOG after a command ended with ERR = k (R18, R113). -/
def errlogWithBit (errlog : Word) (k : Nat) : Word := errlog ||| (1#64 <<< k)

/-- ERRLOG after a host write of v: write 1 to clear; bits 0 and 63:7 ignore writes (R18). -/
def errlogAfterWrite (errlog v : Word) : Word := errlog &&& ~~~(v &&& errlogBits)

/-- The outcomes of a comparison (R17). -/
inductive Verdict where
  | equal
  | notEqual
  | notDivisible
  deriving DecidableEq, Repr

/-- The code of a comparison outcome in RESULT (R17). -/
def verdictCode : Verdict → Word
  | .equal => 0
  | .notEqual => 1
  | .notDivisible => 2

/-- The verdict of an accumulated difference word: Equal exactly when it is 0 (R91, R94). -/
def verdictOf (diff : Word) : Verdict := if diff = 0 then .equal else .notEqual

end Sys2Proof.Machine
end

