-- ==== Sys2Proof/Machine/Memory.lean ====
section
/-! DEFINITION. The memory (spec/20_memory.md R40 to R43): reading and writing of one byte in the canonical form, and
of one 64-bit word over the little-endian byte order of R41. -/

namespace Sys2Proof.Machine

/-- What a byte reads as that the memory does not list. DESIGN CHOICE (notes/assumptions/1.md), unsafe: the spec
leaves the power-up content unspecified (R38, U12). -/
def unlistedByte : Byte := 0

/-- The byte at a byte address. -/
def Memory.readByte : Memory → Nat → Byte
  | [], _ => unlistedByte
  | (k, b) :: m, a => if k = a then b else Memory.readByte m a

/-- A byte put at its place among entries of rising addresses, none of them its own; what an unlisted byte reads as
is not listed. -/
def placeByte (a : Nat) (b : Byte) : Memory → Memory
  | [] => if b = unlistedByte then [] else [(a, b)]
  | c :: m => if c.1 < a then c :: placeByte a b m else (if b = unlistedByte then [] else [(a, b)]) ++ c :: m

/-- Store a byte: its old entry goes, its new one is put at its place. -/
def Memory.writeByte (m : Memory) (a : Nat) (b : Byte) : Memory :=
  placeByte a b (m.filter fun c => decide (c.1 ≠ a))

/-- The canonical form: addresses strictly rise, and no entry equals what an unlisted byte reads as. -/
def Memory.wf : Memory → Bool
  | [] => true
  | c :: m => m.all (fun d => decide (c.1 < d.1)) && decide (c.2 ≠ unlistedByte) && Memory.wf m

/-- Byte j of a word: bits 8j+7 to 8j (R41). -/
def byteOf (w : Word) (j : Nat) : Byte := w.extractLsb' (8 * j) 8

/-- The word at word address a: byte 8a + j holds bits 8j+7 to 8j (R41, R42). -/
def Memory.readWord (m : Memory) (a : Nat) : Word :=
  m.readByte (8 * a + 7) ++ m.readByte (8 * a + 6) ++ m.readByte (8 * a + 5) ++ m.readByte (8 * a + 4) ++
    m.readByte (8 * a + 3) ++ m.readByte (8 * a + 2) ++ m.readByte (8 * a + 1) ++ m.readByte (8 * a)

/-- The lowest j bytes of v, stored from byte 8a upward (R41). -/
def Memory.writeBytes (m : Memory) (a : Nat) (v : Word) : Nat → Memory
  | 0 => m
  | j + 1 => (Memory.writeBytes m a v j).writeByte (8 * a + j) (byteOf v j)

/-- Store all 64 bits of a word at word address a (R43). -/
def Memory.writeWord (m : Memory) (a : Nat) (v : Word) : Memory := m.writeBytes a v 8

end Sys2Proof.Machine
end

