-- ==== Sys2Proof/Machine/Ops.lean ====
section
/-! DEFINITION. The named operations that the commands share: the memory port (spec/20_memory.md R42, R43, R54), how a
command ends (spec/60_exceptions.md R112, R113), the layout registers, the prologue (R118), the word loop (R46), and the
host's register accesses (spec/10_state.md R31, R33). -/

namespace Sys2Proof.Machine

/-- Go on with the next state, or stop as the first part stopped. -/
def andThen {α β : Type} (o : Host.Outcome α Fault Refusal) (k : α → Host.Outcome β Fault Refusal) :
    Host.Outcome β Fault Refusal :=
  match o with
  | .next x => k x
  | .fault r => .fault r
  | .refused r => .refused r

/-! The memory port. -/

/-- MEM_ADMIT: storage backs the word address (R54). -/
def backs (p : Params) (a : Nat) : Bool := p.holes.all (fun h => !(decide (h.1 ≤ a) && decide (a < h.1 + h.2)))

/-- Why an access at a word address has no meaning, if it has none (R42, R54). -/
def accessFault (p : Params) (a : Nat) : Option Fault :=
  if 2 ^ p.addrBits ≤ a then some (.outsideAddressSpace a)
  else if backs p a then none else some (.unbacked a)

/-- The port's history with one more access (R46). -/
def State.logAccess (s : State) (x : Access) : State := { s with port := s.port ++ [x] }

/-- The memory replaced. -/
def State.withMem (s : State) (m : Memory) : State := { s with mem := m }

/-- `MemRead(a, 8)`: the word, and the state, in which nothing but the port's history has changed (R42). -/
def memRead (a : Nat) (s : State) : Host.Outcome (Word × State) Fault Refusal :=
  match accessFault s.params a with
  | some f => .fault f
  | none => .next (s.mem.readWord a, s.logAccess (.read a))

/-- `MemWrite(a, 8, v)`: the whole word replaced (R43). -/
def memWrite (a : Nat) (v : Word) (s : State) : Host.Outcome State Fault Refusal :=
  match accessFault s.params a with
  | some f => .fault f
  | none => .next ((s.withMem (s.mem.writeWord a v)).logAccess (.write a))

/-! How a command ends. -/

/-- `complete()`: STATUS.ERR becomes 0; ERRLOG and CFG_VALID stay (R112). -/
def complete (s : State) : State := { s with status := statusWithErr s.status 0 }

/-- `raise Err<Name>()`: STATUS.ERR takes the code and ERRLOG its bit; nothing else changes (R113). This is all that
taking an error is: no state is saved and control goes nowhere, and there is no return from it (R123). -/
def raise (e : Err) (s : State) : State :=
  { s with
    status := statusWithErr s.status (errCode e)
    errlog := errlogWithBit s.errlog (errCode e) }

/-! The layout registers. -/

/-- CFG_VALID cleared and registers 6 to 11 set to 0 (R33, R70, R119). -/
def clearLayout (s : State) : State :=
  { s with
    status := statusWithCfgValid s.status false
    laneWidth := 0
    lanePitch := 0
    lanesPerWord := 0
    valueMask := 0
    guardMask := 0
    wordCount := 0 }

/-- Registers 6 to 11 take a layout and CFG_VALID is set (R70). -/
def installLayout (L : Layout) (s : State) : State :=
  { s with
    status := statusWithCfgValid s.status true
    laneWidth := BitVec.ofNat 64 L.l
    lanePitch := BitVec.ofNat 64 L.s
    lanesPerWord := BitVec.ofNat 64 L.n
    valueMask := L.vm
    guardMask := L.gm
    wordCount := BitVec.ofNat 64 (wordCountOf s.dim.toNat L.n) }

/-- `x[RESULT] <- code` (R17). -/
def setResult (v : Verdict) (s : State) : State := { s with result := verdictCode v }

/-- `x[LANE_DATA] <- v` (R30, R83). -/
def setLaneData (v : Word) (s : State) : State := { s with laneData := v }

/-! The prologue. -/

/-- `base + WORD_COUNT > 2^ADDR_BITS`, as exact integers (R45, R117). -/
def beyondAddressSpace (s : State) (base : Word) : Bool :=
  decide (2 ^ s.params.addrBits < base.toNat + s.wordCount.toNat)

/-- The checks of R118 after decoding, in order: the error of the first that fails. -/
def prologue (useA useB useIdx : Bool) (s : State) : Option Err :=
  if !statusCfgValid s.status then some .noConfig
  else if useA && decide (s.aLen ≠ s.wordCount) then some .length
  else if useB && decide (s.bLen ≠ s.wordCount) then some .length
  else if useA && beyondAddressSpace s s.aBase then some .address
  else if useB && beyondAddressSpace s s.bBase then some .address
  else if useIdx && decide (s.dim.toNat ≤ s.laneIdx.toNat) then some .index
  else none

/-- A command other than LAYOUT: the prologue, the command's own work, and `complete()`; or the prologue's error
(R62, R110, R118). -/
def withPrologue (useA useB useIdx : Bool) (s : State) (work : State → Host.Outcome State Fault Refusal) :
    Host.Outcome State Fault Refusal :=
  match prologue useA useB useIdx s with
  | some e => .next (raise e s)
  | none => andThen (work s) fun t => .next (complete t)

/-! The word loop. -/

/-- `for i in from .. from+count-1`, in ascending order, never left early (R8, R46, R65). -/
def forWords {α : Type} (body : Nat → α → Host.Outcome α Fault Refusal) :
    Nat → Nat → α → Host.Outcome α Fault Refusal
  | 0, _, x => .next x
  | count + 1, i, x => andThen (body i x) (forWords body count (i + 1))

/-- A loop that rewrites each word of buffer A from itself: read A+i, write A+i (R46, SMUL). -/
def mapBufferA (f : Word → Word) (s : State) : Host.Outcome State Fault Refusal :=
  forWords (fun i t => andThen (memRead (s.aBase.toNat + i) t) fun r =>
    memWrite (s.aBase.toNat + i) (f r.1) r.2) s.wordCount.toNat 0 s

/-- A loop that rewrites each word of buffer A from A and B: read A+i, read B+i, write A+i (R46, ADD). -/
def mapBuffersAB (f : Word → Word → Word) (s : State) : Host.Outcome State Fault Refusal :=
  forWords (fun i t => andThen (memRead (s.aBase.toNat + i) t) fun ra =>
    andThen (memRead (s.bBase.toNat + i) ra.2) fun rb =>
      memWrite (s.aBase.toNat + i) (f ra.1 rb.1) rb.2) s.wordCount.toNat 0 s

/-- A loop that copies buffer A to buffer B: read A+i, write B+i (R46, COPY). -/
def copyBuffer (s : State) : Host.Outcome State Fault Refusal :=
  forWords (fun i t => andThen (memRead (s.aBase.toNat + i) t) fun r =>
    memWrite (s.bBase.toNat + i) r.1 r.2) s.wordCount.toNat 0 s

/-- A loop that accumulates the differences of buffers A and B: read A+i, read B+i (R46, CMPEQ); then RESULT takes the
verdict (R91, R94). -/
def compareBuffers (differ : Word → Word → Word) (s : State) : Host.Outcome State Fault Refusal :=
  andThen (forWords (fun i (x : Word × State) => andThen (memRead (s.aBase.toNat + i) x.2) fun ra =>
    andThen (memRead (s.bBase.toNat + i) ra.2) fun rb =>
      .next (x.1 ||| differ ra.1 rb.1, rb.2)) s.wordCount.toNat 0 (0, s))
    fun x => .next (setResult (verdictOf x.1) x.2)

/-- The word address of the word that holds lane LANE_IDX (R80, R83). -/
def laneAddr (s : State) : Nat := s.aBase.toNat + s.laneIdx.toNat / s.lanesPerWord.toNat

/-- The slot of lane LANE_IDX in its word (R80, R83). -/
def laneSlot (s : State) : Nat := s.laneIdx.toNat % s.lanesPerWord.toNat

/-! The host's register accesses. -/

/-- The registers by name (R10). -/
inductive Reg where
  | cmd | status | result | errlog | modulus | dim
  | laneWidth | lanePitch | lanesPerWord | valueMask | guardMask | wordCount
  | aBase | aLen | bBase | bLen | laneIdx | laneData
  deriving DecidableEq, Repr

/-- The register of a number; numbers 18 and above are reserved (R10, R31 c). -/
def regOfNum : Nat → Option Reg
  | 0 => some .cmd
  | 1 => some .status
  | 2 => some .result
  | 3 => some .errlog
  | 4 => some .modulus
  | 5 => some .dim
  | 6 => some .laneWidth
  | 7 => some .lanePitch
  | 8 => some .lanesPerWord
  | 9 => some .valueMask
  | 10 => some .guardMask
  | 11 => some .wordCount
  | 12 => some .aBase
  | 13 => some .aLen
  | 14 => some .bBase
  | 15 => some .bLen
  | 16 => some .laneIdx
  | 17 => some .laneData
  | _ => none

/-- `x[NAME]` as the host reads it: CMD reads 0 (R13), reserved bits read 0 (R16, R17, R18). -/
def readReg (r : Reg) (s : State) : Word :=
  match r with
  | .cmd => 0
  | .status => s.status &&& statusBits
  | .result => s.result &&& resultBits
  | .errlog => s.errlog &&& errlogBits
  | .modulus => s.modulus
  | .dim => s.dim
  | .laneWidth => s.laneWidth
  | .lanePitch => s.lanePitch
  | .lanesPerWord => s.lanesPerWord
  | .valueMask => s.valueMask
  | .guardMask => s.guardMask
  | .wordCount => s.wordCount
  | .aBase => s.aBase
  | .aLen => s.aLen
  | .bBase => s.bBase
  | .bLen => s.bLen
  | .laneIdx => s.laneIdx
  | .laneData => s.laneData

/-- A host read by register number; a reserved number reads 0 (R31 c). -/
def hostReadReg (num : Nat) (s : State) : Word :=
  match regOfNum num with
  | some r => readReg r s
  | none => 0

/-- A host write to a register that runs no command. Read-only registers ignore it (R31 b); ERRLOG is write-1-to-clear
(R18); MODULUS and DIM also invalidate the layout (R33); CMD stores nothing (R13). -/
def writeReg (r : Reg) (v : Word) (s : State) : State :=
  match r with
  | .cmd => s
  | .status => s
  | .result => s
  | .errlog => { s with errlog := errlogAfterWrite s.errlog v }
  | .modulus => clearLayout { s with modulus := v }
  | .dim => clearLayout { s with dim := v }
  | .laneWidth => s
  | .lanePitch => s
  | .lanesPerWord => s
  | .valueMask => s
  | .guardMask => s
  | .wordCount => s
  | .aBase => { s with aBase := v }
  | .aLen => { s with aLen := v }
  | .bBase => { s with bBase := v }
  | .bLen => { s with bLen := v }
  | .laneIdx => { s with laneIdx := v }
  | .laneData => { s with laneData := v }

/-- The host has read a value. -/
def State.reply (s : State) (v : Word) : State := { s with replies := s.replies ++ [v] }

/-- The reset event: every register takes its reset value; the memory is not touched (R38, R130). What is not the
block's (memory, platform, the host's own actions and what was observed so far) stays. -/
def resetEvent (s : State) : State :=
  { State.reset with
    mem := s.mem
    params := s.params
    script := s.script
    replies := s.replies
    port := s.port }

end Sys2Proof.Machine
end

