-- ==== Sys2Proof/Machine/Arith.lean ====
section
/-! DEFINITION. The packed modular adder and multiplier: ADD (spec/43_add.md R100), SMUL (spec/44_scalar_mul.md R105). -/

namespace Sys2Proof.Machine

/-- ADD (R100): lane-wise A + B into A. -/
def execAdd (s : State) : Host.Outcome State Fault Refusal :=
  withPrologue true true false s fun s => mapBuffersAB (addWord (activeLayout s)) s

/-- SMUL (R105): lane-wise factor * A into A, the factor first taken modulo p (R108). Buffer B is not used. -/
def execSmul (factor : Int) (s : State) : Host.Outcome State Fault Refusal :=
  withPrologue true false false s fun s =>
    mapBufferA (smulWord (activeLayout s) (normalFactor factor s.modulus.toNat)) s

end Sys2Proof.Machine
end

