-- ==== Sys2Proof/Machine/Compare.lean ====
section
/-! DEFINITION. The packed vector comparator: CMPEQ, CMPEQQ (spec/42_compare.md R91, R94). -/

namespace Sys2Proof.Machine

/-- CMPEQ (R91): RESULT tells whether A and B are equal modulo p. -/
def execCmpeq (s : State) : Host.Outcome State Fault Refusal :=
  withPrologue true true false s fun s => compareBuffers (neqWord (activeLayout s)) s

/-- CMPEQQ (R94), cases (a) to (d) in the spec's order. Cases (b) and (c) make no memory access. -/
def execCmpeqq (q : Nat) (s : State) : Host.Outcome State Fault Refusal :=
  withPrologue true true false s fun s =>
    if q = s.modulus.toNat then compareBuffers (neqWord (activeLayout s)) s
    else if q = 1 then .next (setResult .equal s)
    else if q = 0 ∨ s.modulus.toNat % q ≠ 0 then .next (setResult .notDivisible s)
    else compareBuffers (neqWordScaled (activeLayout s) (s.modulus.toNat / q)) s

end Sys2Proof.Machine
end

