-- ==== Sys2Proof/Machine/LayoutEncoder.lean ====
section
/-! DEFINITION. The lane layout encoder: LAYOUT (spec/40_layout.md R70). -/

namespace Sys2Proof.Machine

/-- LAYOUT (R70): lay out MODULUS and DIM, or clear the layout and raise ErrConfig. It runs without a valid layout and
makes no memory access. -/
def execLayout (s : State) : Host.Outcome State Fault Refusal :=
  match laneWidthOf s.modulus.toNat with
  | none => .next (raise .config (clearLayout s))
  | some l => .next (complete (installLayout (deriveLayout l) s))

end Sys2Proof.Machine
end

