-- ==== Sys2Proof/Machine/VectorAccess.lean ====
section
/-! DEFINITION. Packed vector access: COPY, LGET, LSET (spec/41_vector_access.md R82 to R84). -/

namespace Sys2Proof.Machine

/-- COPY (R82): all 64 bits of each word of A to B, in ascending order (R46, R49). -/
def execCopy (s : State) : Host.Outcome State Fault Refusal :=
  withPrologue true true false s copyBuffer

/-- LGET (R83): the raw lane value of lane LANE_IDX into LANE_DATA. -/
def execLget (s : State) : Host.Outcome State Fault Refusal :=
  withPrologue true false true s fun s =>
    andThen (memRead (laneAddr s) s) fun r =>
      .next (setLaneData (laneWord (activeLayout s) r.1 (laneSlot s)) r.2)

/-- LSET (R84): the low l bits of LANE_DATA into lane LANE_IDX; every other bit of the word stays. -/
def execLset (s : State) : Host.Outcome State Fault Refusal :=
  withPrologue true false true s fun s =>
    andThen (memRead (laneAddr s) s) fun r =>
      memWrite (laneAddr s) (insertLane (activeLayout s) r.1 s.laneData (laneSlot s)) r.2

end Sys2Proof.Machine
end

