-- ==== Sys2Proof/Machine/Dispatch.lean ====
section
/-! DEFINITION. One arm per command: the meaning that spec/30_encoding.md R58 names for it. -/

namespace Sys2Proof.Machine

/-- What a decoded command does (R58). -/
def exec (i : Instr) (s : State) : Host.Outcome State Fault Refusal :=
  match i with
  | .layout => Sys2Proof.Machine.execLayout s
  | .copy => Sys2Proof.Machine.execCopy s
  | .cmpeq => Sys2Proof.Machine.execCmpeq s
  | .cmpeqq q => Sys2Proof.Machine.execCmpeqq q s
  | .add => Sys2Proof.Machine.execAdd s
  | .smul factor => Sys2Proof.Machine.execSmul factor s
  | .lget => Sys2Proof.Machine.execLget s
  | .lset => Sys2Proof.Machine.execLset s

end Sys2Proof.Machine
end

