-- ==== Sys2Proof/Machine/HostPort.lean ====
section
/-! DEFINITION. What one action of the host does to the machine: a write of CMD runs a command (spec/10_state.md R13),
other register accesses follow R31, the host reaches the memory by its own means (R36, R41), and reset comes from
outside (R130). Also the lines of a host script (spec/30_encoding.md R63, R64). -/

namespace Sys2Proof.Machine

/-- A host write of the value c to CMD: the command that c encodes runs from start to finish, or ErrIllegal is raised
before anything else is looked at (R13, R56, R114, R139). -/
def issueCommand (c : Word) (s : State) : Host.Outcome State Fault Refusal :=
  match decode c with
  | .ok i => exec i s
  | .error _ => .next (raise .illegal s)

/-- A host write by register number; a reserved number ignores it (R31). -/
def hostWriteReg (num : Nat) (v : Word) (s : State) : Host.Outcome State Fault Refusal :=
  match regOfNum num with
  | none => .next s
  | some .cmd => issueCommand v s
  | some r => .next (writeReg r v s)

/-- The host's own store of a word (R36, R42). -/
def hostStore (a : Nat) (v : Word) (s : State) : Host.Outcome State Fault Refusal :=
  match accessFault s.params a with
  | some f => .fault f
  | none => .next (s.withMem (s.mem.writeWord a v))

/-- The host's own load of a word (R36). -/
def hostLoad (a : Nat) (s : State) : Host.Outcome State Fault Refusal :=
  match accessFault s.params a with
  | some f => .fault f
  | none => .next (s.reply (s.mem.readWord a))

/-- The host's own store of one byte: byte address 8a + j lies in word a (R41). -/
def hostStoreByte (a : Nat) (v : Byte) (s : State) : Host.Outcome State Fault Refusal :=
  match accessFault s.params (a / 8) with
  | some f => .fault f
  | none => .next (s.withMem (s.mem.writeByte a v))

/-- The host's own load of one byte, zero-extended (R41). -/
def hostLoadByte (a : Nat) (s : State) : Host.Outcome State Fault Refusal :=
  match accessFault s.params (a / 8) with
  | some f => .fault f
  | none => .next (s.reply ((s.mem.readByte a).setWidth 64))

/-- One action of the host, executed as one indivisible transition (R31 e, R139). -/
def hostAction (x : HostAction) (s : State) : Host.Outcome State Fault Refusal :=
  match x with
  | .write num v => hostWriteReg num v s
  | .read num => .next (s.reply (hostReadReg num s))
  | .store a v => hostStore a v s
  | .load a => hostLoad a s
  | .storeByte a v => hostStoreByte a v s
  | .loadByte a => hostLoadByte a s
  | .reset => .next (resetEvent s)

/-- The host's next action is taken: it is no longer to come. -/
def State.withScript (s : State) (rest : List HostAction) : State := { s with script := rest }

/-- Take the host's next action; with none to come the block is idle and holds its registers (R128, R139). -/
def takeAction (s : State) : Host.Outcome State Fault Refusal :=
  match s.script with
  | [] => .next s
  | x :: rest => hostAction x (s.withScript rest)

/-- A script line that is a command: `WR CMD, <its word>` (R63). -/
def commandLine (i : Instr) : HostAction := .write 0 (encode i)

/-- The pseudo-command `CFG p, dim` (R64). -/
def cfgLines (p dim : Word) : List HostAction := [.write 4 p, .write 5 dim, commandLine .layout]

/-- The pseudo-command `SETA base, len` (R64). -/
def setALines (base len : Word) : List HostAction := [.write 12 base, .write 13 len]

/-- The pseudo-command `SETB base, len` (R64). -/
def setBLines (base len : Word) : List HostAction := [.write 14 base, .write 15 len]

end Sys2Proof.Machine
end

