-- ==== Sys2Proof/Machine/Step.lean ====
section
/-! DEFINITION. One step of the machine: one action of the host, which for a write of CMD is one whole command
(spec/70_reset_and_hazards.md R139). -/

namespace Sys2Proof.Machine

/-- One step (R139). -/
def step (s : State) : Host.Outcome State Fault Refusal := takeAction s

/-- The host's next action becomes a write to CMD of the word w of nbits bits; nothing else changes. There is no
instruction memory: a command comes to the block only by that write (R2, R12, R13). -/
def State.withFetchWord (s : State) (nbits w : Nat) : State :=
  s.withScript (.write 0 (BitVec.ofNat 64 (w % 2 ^ nbits)) :: s.script)

end Sys2Proof.Machine
end

