-- ==== Sys2Proof/Safety.lean ====
section
/-! DEFINITION. The words in which statements about the machine are made: which registers and buffers a command uses
(spec/30_encoding.md R61), when its checks pass (spec/60_exceptions.md R118), which accesses it makes
(spec/20_memory.md R46), what its two endings leave (R112, R113), the representative function (spec/00_scope.md R9), and
the invariants (spec/10_state.md R32 and the reserved fields). None of these is used by the machine itself. -/

namespace Sys2Proof.Safety

open Sys2Proof.Machine

/-- Buffer A is used (R61). -/
def usesA : Instr → Bool
  | .layout => false
  | .copy => true
  | .cmpeq => true
  | .cmpeqq _ => true
  | .add => true
  | .smul _ => true
  | .lget => true
  | .lset => true

/-- Buffer B is used (R61). -/
def usesB : Instr → Bool
  | .layout => false
  | .copy => true
  | .cmpeq => true
  | .cmpeqq _ => true
  | .add => true
  | .smul _ => false
  | .lget => false
  | .lset => false

/-- The lane index is used (R61). -/
def usesIdx : Instr → Bool
  | .layout => false
  | .copy => false
  | .cmpeq => false
  | .cmpeqq _ => false
  | .add => false
  | .smul _ => false
  | .lget => true
  | .lset => true

/-- `accepted(p)` of R71. -/
abbrev Accepted (p : Nat) : Prop := ∃ l, l ≤ 32 ∧ 2 ≤ l ∧ p = 2 ^ l - 1

/-- A used buffer's declared length differs from WORD_COUNT (R116). -/
abbrev LengthBad (i : Instr) (s : State) : Prop :=
  (usesA i = true ∧ s.aLen ≠ s.wordCount) ∨ (usesB i = true ∧ s.bLen ≠ s.wordCount)

/-- A used buffer does not fit below 2^ADDR_BITS (R117). -/
abbrev AddressBad (i : Instr) (s : State) : Prop :=
  (usesA i = true ∧ 2 ^ s.params.addrBits < s.aBase.toNat + s.wordCount.toNat) ∨
    (usesB i = true ∧ 2 ^ s.params.addrBits < s.bBase.toNat + s.wordCount.toNat)

/-- A used lane index is out of the dimension (R120). -/
abbrev IndexBad (i : Instr) (s : State) : Prop := usesIdx i = true ∧ s.dim.toNat ≤ s.laneIdx.toNat

/-- The command's own checks pass: R118 for a command that needs a layout, R71 for LAYOUT. -/
abbrev ChecksPass (i : Instr) (s : State) : Prop :=
  if i = .layout then Accepted s.modulus.toNat
  else s.status.getLsbD 8 = true ∧ ¬ LengthBad i s ∧ ¬ AddressBad i s ∧ ¬ IndexBad i s

/-- The word address of an access. -/
def accessAddr : Access → Nat
  | .read a => a
  | .write a => a

/-- For each i below WORD_COUNT, the accesses written, in ascending order of i (R46). -/
def eachWord (s : State) (f : Nat → List Access) : List Access := (List.range s.wordCount.toNat).flatMap f

/-- The reads of a comparison (R46, CMPEQ). -/
def compareAccesses (s : State) : List Access :=
  eachWord s fun i => [.read (s.aBase.toNat + i), .read (s.bBase.toNat + i)]

/-- The word that holds lane LANE_IDX (R46, R80). -/
def laneWordAddr (s : State) : Nat := s.aBase.toNat + s.laneIdx.toNat / s.lanesPerWord.toNat

/-- The access sequence of a command that ends with ERR = OK (R46). -/
def accesses (i : Instr) (s : State) : List Access :=
  match i with
  | .layout => []
  | .copy => eachWord s fun i => [.read (s.aBase.toNat + i), .write (s.bBase.toNat + i)]
  | .cmpeq => compareAccesses s
  | .cmpeqq q => if q ≠ s.modulus.toNat ∧ (q = 1 ∨ ¬ q ∣ s.modulus.toNat) then [] else compareAccesses s
  | .add => eachWord s fun i =>
      [.read (s.aBase.toNat + i), .read (s.bBase.toNat + i), .write (s.aBase.toNat + i)]
  | .smul _ => eachWord s fun i => [.read (s.aBase.toNat + i), .write (s.aBase.toNat + i)]
  | .lget => [.read (laneWordAddr s)]
  | .lset => [.read (laneWordAddr s), .write (laneWordAddr s)]

/-- Every access of the command falls below 2^ADDR_BITS and in MEM_ADMIT: the commands this spec defines (R54). -/
abbrev PortBacks (i : Instr) (s : State) : Prop :=
  ∀ x ∈ accesses i s, accessAddr x < 2 ^ s.params.addrBits ∧
    ∀ h ∈ s.params.holes, ¬ (h.1 ≤ accessAddr x ∧ accessAddr x < h.1 + h.2)

/-- The word address a byte of memory lies in is one that the command stores to (R46). -/
def StoresTo (i : Instr) (s : State) (byteAddr : Nat) : Prop :=
  match i with
  | .layout => False
  | .copy => ∃ k, k < s.wordCount.toNat ∧ byteAddr / 8 = s.bBase.toNat + k
  | .cmpeq => False
  | .cmpeqq _ => False
  | .add => ∃ k, k < s.wordCount.toNat ∧ byteAddr / 8 = s.aBase.toNat + k
  | .smul _ => ∃ k, k < s.wordCount.toNat ∧ byteAddr / 8 = s.aBase.toNat + k
  | .lget => False
  | .lset => byteAddr / 8 = laneWordAddr s

/-- A and B are the same buffer or share no word (R49). -/
abbrev SameOrApart (s : State) : Prop :=
  s.aBase = s.bBase ∨ s.aBase.toNat + s.wordCount.toNat ≤ s.bBase.toNat ∨
    s.bBase.toNat + s.wordCount.toNat ≤ s.aBase.toNat

/-- STATUS after a command that completes: ERR = 0, the other bits kept (R16, R112). -/
def okStatus (s : State) : Word := s.status &&& ~~~0xF#64

/-- The state after a command that ends in the error of code k: STATUS.ERR = k, ERRLOG bit k set, nothing else changed
(R113). -/
def failed (k : Nat) (s : State) : State :=
  { s with
    status := (s.status &&& ~~~0xF#64) ||| BitVec.ofNat 64 k
    errlog := s.errlog ||| (1#64 <<< k) }

/-- `rep_p(t)`, the representative function of R9. -/
def rep (p t : Nat) : Nat := if t = 0 then 0 else (t - 1) % p + 1

/-- Lanes of the words at two places are congruent modulo q in every slot of every one of the WORD_COUNT words
(R90, R94). -/
abbrev BuffersCongruent (q : Nat) (s : State) : Prop :=
  ∀ i, i < s.wordCount.toNat → ∀ k, k < s.lanesPerWord.toNat →
    lane (activeLayout s) (s.mem.readWord (s.aBase.toNat + i)) k % q =
      lane (activeLayout s) (s.mem.readWord (s.bBase.toNat + i)) k % q

/-- Registers 6 to 11 hold the layout of lane width l for DIM (R32 ii, R72). -/
abbrev HoldsLayout (l : Nat) (s : State) : Prop :=
  s.modulus.toNat = 2 ^ l - 1 ∧ s.laneWidth.toNat = l ∧ s.lanePitch.toNat = lanePitchOf l ∧
    s.lanesPerWord.toNat = 64 / lanePitchOf l ∧ s.valueMask = valueMaskOf l (lanePitchOf l) ∧
    s.guardMask = guardMaskOf l (lanePitchOf l) ∧
    s.wordCount.toNat = wordCountOf s.dim.toNat (64 / lanePitchOf l)

/-- Registers 6 to 11 are all 0 (R32 i). -/
abbrev LayoutCleared (s : State) : Prop :=
  s.laneWidth = 0 ∧ s.lanePitch = 0 ∧ s.lanesPerWord = 0 ∧ s.valueMask = 0 ∧ s.guardMask = 0 ∧ s.wordCount = 0

/-- The layout invariant (R32). -/
abbrev LayoutInv (s : State) : Prop :=
  (s.status.getLsbD 8 = false ∧ LayoutCleared s) ∨
    (s.status.getLsbD 8 = true ∧ ∃ l, l ≤ 32 ∧ 2 ≤ l ∧ HoldsLayout l s)

/-- Reserved bits are 0 and the codes are ones that the block produces (R16, R17, R18, U10, U11). -/
abbrev FieldsLegal (s : State) : Prop :=
  s.status &&& ~~~0x10F#64 = 0 ∧ (s.status.extractLsb' 0 4).toNat ≤ 6 ∧ s.result.toNat ≤ 2 ∧
    s.errlog &&& ~~~0x7E#64 = 0

/-- The safety question the spec keeps ERRLOG for: no command has failed since the host last cleared it (R18). -/
abbrev NoFailureLogged (s : State) : Prop := s.errlog &&& 0x7E#64 = 0

/-- A row of the table of accepted moduli (R74): p, l, s, n, VM, GM, PM, CM. -/
structure LayoutRow where
  p : Nat
  l : Nat
  s : Nat
  n : Nat
  vm : Word
  gm : Word
  pm : Word
  cm : Word

/-- The rows of R74 with lane widths 2 to 16, as the spec prints them. -/
def layoutRowsNarrow : List LayoutRow :=
  [⟨3, 2, 2, 32, 0xFFFFFFFFFFFFFFFF, 0x4444444444444444, 0x3333333333333333, 0x5555555555555555⟩,
   ⟨7, 3, 4, 16, 0x7777777777777777, 0x0808080808080808, 0x0707070707070707, 0x3333333333333333⟩,
   ⟨15, 4, 4, 16, 0xFFFFFFFFFFFFFFFF, 0x1010101010101010, 0x0F0F0F0F0F0F0F0F, 0x7777777777777777⟩,
   ⟨31, 5, 8, 8, 0x1F1F1F1F1F1F1F1F, 0x0020002000200020, 0x001F001F001F001F, 0x0F0F0F0F0F0F0F0F⟩,
   ⟨63, 6, 8, 8, 0x3F3F3F3F3F3F3F3F, 0x0040004000400040, 0x003F003F003F003F, 0x1F1F1F1F1F1F1F1F⟩,
   ⟨127, 7, 8, 8, 0x7F7F7F7F7F7F7F7F, 0x0080008000800080, 0x007F007F007F007F, 0x3F3F3F3F3F3F3F3F⟩,
   ⟨255, 8, 8, 8, 0xFFFFFFFFFFFFFFFF, 0x0100010001000100, 0x00FF00FF00FF00FF, 0x7F7F7F7F7F7F7F7F⟩,
   ⟨511, 9, 16, 4, 0x01FF01FF01FF01FF, 0x0000020000000200, 0x000001FF000001FF, 0x00FF00FF00FF00FF⟩,
   ⟨1023, 10, 16, 4, 0x03FF03FF03FF03FF, 0x0000040000000400, 0x000003FF000003FF, 0x01FF01FF01FF01FF⟩,
   ⟨2047, 11, 16, 4, 0x07FF07FF07FF07FF, 0x0000080000000800, 0x000007FF000007FF, 0x03FF03FF03FF03FF⟩,
   ⟨4095, 12, 16, 4, 0x0FFF0FFF0FFF0FFF, 0x0000100000001000, 0x00000FFF00000FFF, 0x07FF07FF07FF07FF⟩,
   ⟨8191, 13, 16, 4, 0x1FFF1FFF1FFF1FFF, 0x0000200000002000, 0x00001FFF00001FFF, 0x0FFF0FFF0FFF0FFF⟩,
   ⟨16383, 14, 16, 4, 0x3FFF3FFF3FFF3FFF, 0x0000400000004000, 0x00003FFF00003FFF, 0x1FFF1FFF1FFF1FFF⟩,
   ⟨32767, 15, 16, 4, 0x7FFF7FFF7FFF7FFF, 0x0000800000008000, 0x00007FFF00007FFF, 0x3FFF3FFF3FFF3FFF⟩,
   ⟨65535, 16, 16, 4, 0xFFFFFFFFFFFFFFFF, 0x0001000000010000, 0x0000FFFF0000FFFF, 0x7FFF7FFF7FFF7FFF⟩]

/-- The rows of R74 with lane widths 17 to 32, as the spec prints them. -/
def layoutRowsWide : List LayoutRow :=
  [⟨131071, 17, 32, 2, 0x0001FFFF0001FFFF, 0x0000000000020000, 0x000000000001FFFF, 0x0000FFFF0000FFFF⟩,
   ⟨262143, 18, 32, 2, 0x0003FFFF0003FFFF, 0x0000000000040000, 0x000000000003FFFF, 0x0001FFFF0001FFFF⟩,
   ⟨524287, 19, 32, 2, 0x0007FFFF0007FFFF, 0x0000000000080000, 0x000000000007FFFF, 0x0003FFFF0003FFFF⟩,
   ⟨1048575, 20, 32, 2, 0x000FFFFF000FFFFF, 0x0000000000100000, 0x00000000000FFFFF, 0x0007FFFF0007FFFF⟩,
   ⟨2097151, 21, 32, 2, 0x001FFFFF001FFFFF, 0x0000000000200000, 0x00000000001FFFFF, 0x000FFFFF000FFFFF⟩,
   ⟨4194303, 22, 32, 2, 0x003FFFFF003FFFFF, 0x0000000000400000, 0x00000000003FFFFF, 0x001FFFFF001FFFFF⟩,
   ⟨8388607, 23, 32, 2, 0x007FFFFF007FFFFF, 0x0000000000800000, 0x00000000007FFFFF, 0x003FFFFF003FFFFF⟩,
   ⟨16777215, 24, 32, 2, 0x00FFFFFF00FFFFFF, 0x0000000001000000, 0x0000000000FFFFFF, 0x007FFFFF007FFFFF⟩,
   ⟨33554431, 25, 32, 2, 0x01FFFFFF01FFFFFF, 0x0000000002000000, 0x0000000001FFFFFF, 0x00FFFFFF00FFFFFF⟩,
   ⟨67108863, 26, 32, 2, 0x03FFFFFF03FFFFFF, 0x0000000004000000, 0x0000000003FFFFFF, 0x01FFFFFF01FFFFFF⟩,
   ⟨134217727, 27, 32, 2, 0x07FFFFFF07FFFFFF, 0x0000000008000000, 0x0000000007FFFFFF, 0x03FFFFFF03FFFFFF⟩,
   ⟨268435455, 28, 32, 2, 0x0FFFFFFF0FFFFFFF, 0x0000000010000000, 0x000000000FFFFFFF, 0x07FFFFFF07FFFFFF⟩,
   ⟨536870911, 29, 32, 2, 0x1FFFFFFF1FFFFFFF, 0x0000000020000000, 0x000000001FFFFFFF, 0x0FFFFFFF0FFFFFFF⟩,
   ⟨1073741823, 30, 32, 2, 0x3FFFFFFF3FFFFFFF, 0x0000000040000000, 0x000000003FFFFFFF, 0x1FFFFFFF1FFFFFFF⟩,
   ⟨2147483647, 31, 32, 2, 0x7FFFFFFF7FFFFFFF, 0x0000000080000000, 0x000000007FFFFFFF, 0x3FFFFFFF3FFFFFFF⟩,
   ⟨4294967295, 32, 32, 2, 0xFFFFFFFFFFFFFFFF, 0x0000000100000000, 0x00000000FFFFFFFF, 0x7FFFFFFF7FFFFFFF⟩]

/-- The layout that a state's registers hold is the one of a row. -/
abbrev HoldsRow (r : LayoutRow) (s : State) : Prop :=
  s.laneWidth.toNat = r.l ∧ s.lanePitch.toNat = r.s ∧ s.lanesPerWord.toNat = r.n ∧ s.valueMask = r.vm ∧
    s.guardMask = r.gm ∧ (activeLayout s).pm = r.pm ∧ (activeLayout s).cm = r.cm

/-- The code of the first failing check of a command that needs a layout, in the order of R118: configuration, length,
address, index. -/
def firstFailure (i : Instr) (s : State) : Option Nat :=
  if s.status.getLsbD 8 = false then some 5
  else if LengthBad i s then some 2
  else if AddressBad i s then some 6
  else if IndexBad i s then some 3
  else none

/-- A command whose checks do not all pass ends in the error of the first that fails, and changes nothing but
STATUS.ERR and ERRLOG (R110, R113, R118). -/
def FailsInOrder (i : Instr) : Prop := ∀ (s : State) (k : Nat), firstFailure i s = some k → exec i s = .next (failed k s)

end Sys2Proof.Safety
end

