-- ==== Sys2Proof/Certificates/Slice0/Obligations.lean ====
section
/-! DEFINITION. The statements about the machine, for the provers. Each docstring names the rule of spec/ that it
formalises, or says that it is the model's own choice or an inference and names the log entry or the spec's sentence. -/

open Sys2Proof Sys2Proof.Machine Sys2Proof.Safety

/-! Encoding. -/

/-- R57, R58: decoding the word of a well-formed command gives the command back. -/
def Obligations.DecodeOfEncode : Prop :=
  ∀ i : Instr, i.wellFormed = true → decode (encode i) = .ok i

/-- R56, R58: a word that decodes has one meaning: it is the word of the command it decodes to, which is well-formed. -/
def Obligations.EncodeOfDecode : Prop :=
  ∀ (c : Word) (i : Instr), decode c = .ok i → i.wellFormed = true ∧ encode i = c

/-- R56, R59: the legal command words are exactly those with ZERO = 0, OPCODE in 1 to 8, and IMM32 = 0 unless OPCODE is
4 or 6; every other word is rejected, by the name of the first check of R56 that fails. -/
def Obligations.LegalCommandWordsExactly : Prop :=
  ∀ c : Word,
    let op := (c.extractLsb' 0 8).toNat
    let zero := c.extractLsb' 8 24
    let imm := c.extractLsb' 32 32
    ((∃ i, decode c = .ok i) ↔ zero = 0 ∧ (1 ≤ op ∧ op ≤ 8) ∧ (op = 4 ∨ op = 6 ∨ imm = 0)) ∧
      (decode c = .error .zeroField ↔ zero ≠ 0) ∧
      (decode c = .error .reservedOpcode ↔ zero = 0 ∧ ¬ (1 ≤ op ∧ op ≤ 8)) ∧
      (decode c = .error .immediate ↔ zero = 0 ∧ (1 ≤ op ∧ op ≤ 8) ∧ op ≠ 4 ∧ op ≠ 6 ∧ imm ≠ 0)

/-- R58: words written out from the spec's table decode to the commands they stand for. -/
def Obligations.SampleWordsDecode : Prop :=
  decode 0x0000000000000001 = .ok .layout ∧ decode 0x0000000000000002 = .ok .copy ∧
    decode 0x0000000000000003 = .ok .cmpeq ∧ decode 0x0000001F00000004 = .ok (.cmpeqq 31) ∧
    decode 0xFFFFFFFF00000004 = .ok (.cmpeqq 4294967295) ∧ decode 0x0000000000000005 = .ok .add ∧
    decode 0xFFFFFFFF00000006 = .ok (.smul (-1)) ∧ decode 0x8000000000000006 = .ok (.smul (-2147483648)) ∧
    decode 0x0000000000000007 = .ok .lget ∧ decode 0x0000000000000008 = .ok .lset

/-! The step and the host's actions. -/

/-- R13: a host write of a legal command word to CMD runs the command it encodes, whole, as one step, on the state in
which only that host action is taken; a host read of CMD returns 0. -/
def Obligations.StepRunsDecodedCommand : Prop :=
  (∀ (s : State) (c : Word) (rest : List HostAction) (i : Instr),
    s.script = .write 0 c :: rest → decode c = .ok i → step s = exec i { s with script := rest }) ∧
  ∀ s : State, hostReadReg 0 s = 0

/-- R114: a write to CMD of a word with a non-zero ZERO field, an OPCODE outside 0x01 to 0x08, or a non-zero IMM32 with
an opcode other than CMPEQQ and SMUL reports ERR_ILLEGAL in every state, whether or not a layout is valid, and changes
nothing else. -/
def Obligations.IllegalWordReportsErrIllegal : Prop :=
  ∀ (s : State) (c : Word) (rest : List HostAction), s.script = .write 0 c :: rest →
    let op := (c.extractLsb' 0 8).toNat
    (c.extractLsb' 8 24 ≠ 0 ∨ ¬ (1 ≤ op ∧ op ≤ 8) ∨ (c.extractLsb' 32 32 ≠ 0 ∧ op ≠ 4 ∧ op ≠ 6)) →
    step s = .next (failed 4 { s with script := rest })

/-- R10, R13, R16 to R18, R31 (a), (c): a host read has no side effect and returns the register of that number; CMD,
reserved bits and the numbers from 18 on read 0. That what the host reads is kept in a list is the model's choice
(notes/assumptions/3.md). -/
def Obligations.HostReadReturnsRegister : Prop :=
  ∀ (s : State) (num : Nat) (rest : List HostAction), s.script = .read num :: rest →
    step s = .next { s with
      script := rest
      replies := s.replies ++ [([0, s.status &&& 0x10F, s.result &&& 0x3, s.errlog &&& 0x7E, s.modulus, s.dim,
        s.laneWidth, s.lanePitch, s.lanesPerWord, s.valueMask, s.guardMask, s.wordCount, s.aBase, s.aLen, s.bBase,
        s.bLen, s.laneIdx, s.laneData] : List Word).getD num 0] }

/-- R11, R25 to R30: a host write to an operand register stores all 64 bits, whatever the value, and changes nothing
else. -/
def Obligations.HostWriteStoresOperandRegister : Prop :=
  ∀ (s : State) (v : Word) (rest : List HostAction),
    (s.script = .write 12 v :: rest → step s = .next { s with script := rest, aBase := v }) ∧
    (s.script = .write 13 v :: rest → step s = .next { s with script := rest, aLen := v }) ∧
    (s.script = .write 14 v :: rest → step s = .next { s with script := rest, bBase := v }) ∧
    (s.script = .write 15 v :: rest → step s = .next { s with script := rest, bLen := v }) ∧
    (s.script = .write 16 v :: rest → step s = .next { s with script := rest, laneIdx := v }) ∧
    (s.script = .write 17 v :: rest → step s = .next { s with script := rest, laneData := v })

/-- R33: a host write to MODULUS or DIM stores the value, clears CFG_VALID and registers 6 to 11 and changes nothing
else; while CFG_VALID is 0 every command but LAYOUT fails with ERR_NOCONFIG, and only a LAYOUT that completes sets it. -/
def Obligations.WriteOfModulusOrDimInvalidates : Prop :=
  (∀ (s : State) (v : Word) (rest : List HostAction),
    let cleared : State := { s with
      script := rest
      status := s.status &&& ~~~0x100#64
      laneWidth := 0, lanePitch := 0, lanesPerWord := 0, valueMask := 0, guardMask := 0, wordCount := 0 }
    (s.script = .write 4 v :: rest → step s = .next { cleared with modulus := v }) ∧
    (s.script = .write 5 v :: rest → step s = .next { cleared with dim := v })) ∧
  (∀ (i : Instr) (s : State), i ≠ .layout → s.status.getLsbD 8 = false → exec i s = .next (failed 5 s)) ∧
  ∀ s t : State, step s = .next t → s.status.getLsbD 8 = false → t.status.getLsbD 8 = true →
    ∃ c rest, s.script = .write 0 c :: rest ∧ decode c = .ok .layout ∧ t.status.extractLsb' 0 4 = 0

/-- R31 (b), (c): a host write to STATUS, RESULT, registers 6 to 11 or a reserved number changes no state. -/
def Obligations.ReadOnlyRegistersIgnoreWrites : Prop :=
  ∀ (s : State) (num : Nat) (v : Word) (rest : List HostAction), s.script = .write num v :: rest →
    (num = 1 ∨ num = 2 ∨ (6 ≤ num ∧ num ≤ 11) ∨ 18 ≤ num) → step s = .next { s with script := rest }

/-- R18: a host write of v to ERRLOG clears exactly the bits 1 to 6 that v has set, and changes nothing else. -/
def Obligations.ErrlogIsWriteOneToClear : Prop :=
  ∀ (s : State) (v : Word) (rest : List HostAction), s.script = .write 3 v :: rest →
    ∃ e : Word, step s = .next { s with script := rest, errlog := e } ∧
      ∀ k, k < 64 → e.getLsbD k = (s.errlog.getLsbD k && !(v.getLsbD k && decide (1 ≤ k ∧ k ≤ 6)))

/-- R18: over every step of the machine, an ERRLOG bit is lost only to a host write with that bit set or to reset, and
gained only by a write to CMD that ends with ERR = that bit's number; every write to CMD that ends so leaves it set. -/
def Obligations.ErrlogBitsAreSticky : Prop :=
  ∀ (s t : State) (k : Nat), step s = .next t →
    (s.errlog.getLsbD k = true → t.errlog.getLsbD k = false →
      (∃ v rest, s.script = .write 3 v :: rest ∧ v.getLsbD k = true ∧ 1 ≤ k ∧ k ≤ 6) ∨
        ∃ rest, s.script = .reset :: rest) ∧
    (s.errlog.getLsbD k = false → t.errlog.getLsbD k = true →
      (∃ c rest, s.script = .write 0 c :: rest) ∧ (t.status.extractLsb' 0 4).toNat = k) ∧
    (∀ c rest, s.script = .write 0 c :: rest → 1 ≤ k → (t.status.extractLsb' 0 4).toNat = k →
      t.errlog.getLsbD k = true)

/-- R18: from a state with no failure logged, a command leaves one logged exactly when it ends in an error. -/
def Obligations.ErrlogTellsWhetherACommandFailed : Prop :=
  ∀ (i : Instr) (s t : State), NoFailureLogged s → exec i s = .next t →
    (NoFailureLogged t ↔ t.status.extractLsb' 0 4 = 0)

/-- R38: after the reset event every register is 0 and reads 0, and the memory is as it was; in the machine's state after
reset every register is 0 and reads 0 too. -/
def Obligations.ResetClearsEveryRegister : Prop :=
  (∀ (s : State) (rest : List HostAction), s.script = .reset :: rest →
    ∃ t, step s = .next t ∧ (∀ num, hostReadReg num t = 0) ∧ t.status = 0 ∧ t.result = 0 ∧ t.errlog = 0 ∧
      t.mem = s.mem) ∧
  (∀ num, hostReadReg num State.reset = 0) ∧
  State.reset.status = 0 ∧ State.reset.result = 0 ∧ State.reset.errlog = 0

/-- R128, R139: with no host action to come a step answers, and the block is idle and holds everything; otherwise one
step is the next action and nothing more, and a step that answers leaves the actions after it. That the host's actions
stand in a list is the model's choice (notes/assumptions/3.md). -/
def Obligations.EachStepTakesOneAction : Prop :=
  ∀ s : State, (s.script = [] → step s = .next s) ∧
    (∀ x rest, s.script = x :: rest → step s = hostAction x { s with script := rest }) ∧
    ∀ t, step s = .next t → t.script = s.script.tail

/-- R36, R41 to R43: the host's own store of a word replaces that word, whose bytes are little-endian, and no other
byte; its load returns the word and changes nothing. The host's own access is an action of the model
(notes/assumptions/3.md). -/
def Obligations.HostStoresAndLoadsWords : Prop :=
  ∀ (s : State) (a : Nat) (v : Word) (rest : List HostAction), accessFault s.params a = none →
    (s.script = .store a v :: rest → ∃ m, step s = .next { s with script := rest, mem := m } ∧ m.readWord a = v ∧
      (∀ j, j < 8 → m.readByte (8 * a + j) = v.extractLsb' (8 * j) 8) ∧
      ∀ b, b / 8 ≠ a → m.readByte b = s.mem.readByte b) ∧
    (s.script = .load a :: rest → ∃ w : Word,
      step s = .next { s with script := rest, replies := s.replies ++ [w] } ∧
      ∀ j, j < 8 → w.extractLsb' (8 * j) 8 = s.mem.readByte (8 * a + j))

/-- R41: where the host reaches bytes, byte 8a + j holds bits 8j+7 to 8j of word a, for its stores and its loads. The
host's own access is an action of the model (notes/assumptions/3.md). -/
def Obligations.HostStoresAndLoadsBytes : Prop :=
  ∀ (s : State) (a j : Nat) (v : Byte) (rest : List HostAction), j < 8 → accessFault s.params a = none →
    (s.script = .storeByte (8 * a + j) v :: rest → ∃ m, step s = .next { s with script := rest, mem := m } ∧
      (m.readWord a).extractLsb' (8 * j) 8 = v ∧ ∀ b, b ≠ 8 * a + j → m.readByte b = s.mem.readByte b) ∧
    (s.script = .loadByte (8 * a + j) :: rest → ∃ w : Word,
      step s = .next { s with script := rest, replies := s.replies ++ [w] } ∧
      w = ((s.mem.readWord a).extractLsb' (8 * j) 8).setWidth 64)

/-- R36, R41, R54: the host's access to a word at or beyond 2^ADDR_BITS, or outside MEM_ADMIT, stops by name, whether it
stores or loads the whole word or byte j of it. That it stops with a fault is the model's choice
(notes/assumptions/2.md). -/
def Obligations.HostAccessOutsideStorageFaults : Prop :=
  ∀ (s : State) (a j : Nat) (v : Word) (b : Byte) (rest : List HostAction), j < 8 →
    (s.script = .store a v :: rest ∨ s.script = .load a :: rest ∨ s.script = .storeByte (8 * a + j) b :: rest ∨
      s.script = .loadByte (8 * a + j) :: rest) →
    (2 ^ s.params.addrBits ≤ a → step s = .fault (.outsideAddressSpace a)) ∧
    (a < 2 ^ s.params.addrBits → (∃ h ∈ s.params.holes, h.1 ≤ a ∧ a < h.1 + h.2) → step s = .fault (.unbacked a))

/-- R63, R64: the script line of a command runs that command; CFG writes MODULUS and DIM and runs LAYOUT; SETA and SETB
write a base and a length. -/
def Obligations.ScriptLinesRunTheirCommands : Prop :=
  ∀ (s : State) (rest : List HostAction),
    (∀ i : Instr, i.wellFormed = true → s.script = commandLine i :: rest →
      step s = exec i { s with script := rest }) ∧
    (∀ p d : Word, s.script = cfgLines p d ++ rest → ∃ t u, step s = .next t ∧ step t = .next u ∧
      u.modulus = p ∧ u.dim = d ∧ step u = exec .layout { u with script := rest }) ∧
    (∀ base len : Word, s.script = setALines base len ++ rest → ∃ t, step s = .next t ∧
      step t = .next { s with script := rest, aBase := base, aLen := len }) ∧
    (∀ base len : Word, s.script = setBLines base len ++ rest → ∃ t, step s = .next t ∧
      step t = .next { s with script := rest, bBase := base, bLen := len })

/-! How commands end. -/

/-- R118: a command reports the first failing check in the order decode, configuration, length, address, index; LAYOUT
runs decode and then its own check. -/
def Obligations.CommandReportsFirstFailingCheck : Prop :=
  ∀ (s : State) (c : Word) (rest : List HostAction), s.script = .write 0 c :: rest →
    let u : State := { s with script := rest }
    (∀ e, decode c = .error e → step s = .next (failed 4 u)) ∧
    (∀ i, decode c = .ok i → i ≠ .layout →
      (u.status.getLsbD 8 = false → step s = .next (failed 5 u)) ∧
      (u.status.getLsbD 8 = true → LengthBad i u → step s = .next (failed 2 u)) ∧
      (u.status.getLsbD 8 = true → ¬ LengthBad i u → AddressBad i u → step s = .next (failed 6 u)) ∧
      (u.status.getLsbD 8 = true → ¬ LengthBad i u → ¬ AddressBad i u → IndexBad i u →
        step s = .next (failed 3 u))) ∧
    (decode c = .ok .layout → ¬ Accepted u.modulus.toNat →
      ∃ t, step s = .next t ∧ t.status.extractLsb' 0 4 = 1)

/-- R110: a command that answers has completed (ERR = 0, ERRLOG and, but for LAYOUT, CFG_VALID kept) or has failed; a
failing command leaves everything but STATUS.ERR and ERRLOG as it was, except that a failing LAYOUT clears the layout. -/
def Obligations.CommandCompletesOrFailsWithoutEffect : Prop :=
  ∀ (i : Instr) (s t : State), exec i s = .next t →
    (t.errlog = s.errlog ∧ t.status.extractLsb' 0 4 = 0 ∧ (i ≠ .layout → t.status = okStatus s)) ∨
    (i ≠ .layout ∧ ∃ k ∈ [2, 3, 5, 6], t = failed k s) ∨
    (i = .layout ∧ t = failed 1 { s with
      status := s.status &&& ~~~0x100#64
      laneWidth := 0, lanePitch := 0, lanesPerWord := 0, valueMask := 0, guardMask := 0, wordCount := 0 })

/-- R110, R112, R118: every command whose checks pass, all of whose accesses are to storage, completes: exec answers a
next state with ERR = 0. -/
def Obligations.ReadyCommandsComplete : Prop :=
  ∀ (i : Instr) (s : State), ChecksPass i s → PortBacks i s →
    ∃ t, exec i s = .next t ∧ t.status.extractLsb' 0 4 = 0

/-- R110, R143: on a platform that backs every word address, every command ends, in completion or in an error, in every
state that meets the layout invariant (the spec's sentence R32): none faults and none is refused. -/
def Obligations.CommandsAlwaysEndOnFullStorage : Prop :=
  ∀ (i : Instr) (s : State), LayoutInv s → s.params.holes = [] → ∃ t, exec i s = .next t

/-- R54: a command whose checks pass stops with a fault exactly when one of the accesses R46 lists for it is not to
storage, and no command is refused. That it stops with a fault is the model's choice among the spec's two
(notes/assumptions/2.md). -/
def Obligations.CommandsFaultExactlyOutsideStorage : Prop :=
  (∀ (i : Instr) (s : State), ChecksPass i s → ((∃ f, exec i s = .fault f) ↔ ¬ PortBacks i s)) ∧
  ∀ (i : Instr) (s : State) (r : Refusal), exec i s ≠ .refused r

/-! LAYOUT. -/

/-- R70, R72, R75: for p = 2^l - 1 with 2 <= l <= 32, LAYOUT installs l, the least pitch s of 2, 4, 8, 16, 32 that is at
least l, n = 64 / s, VM with the low l bits of every slot, GM with the bit above the lane in every plane slot, and the
least WC with n * WC >= DIM; it sets CFG_VALID, clears ERR and changes nothing else. -/
def Obligations.LayoutInstallsDerivedLayout : Prop :=
  (∀ c : Word, decode c = .ok .layout ↔ c = 0x0000000000000001) ∧
  ∀ (s : State) (l : Nat), 2 ≤ l → l ≤ 32 → s.modulus.toNat = 2 ^ l - 1 →
    ∃ (pitch n wc : Nat) (vm gm : Word),
      pitch ∈ [2, 4, 8, 16, 32] ∧ l ≤ pitch ∧ (∀ r ∈ [2, 4, 8, 16, 32], l ≤ r → pitch ≤ r) ∧ n * pitch = 64 ∧
      (∀ b, b < 64 → vm.getLsbD b = decide (b % pitch < l)) ∧
      (∀ b, b < 64 → gm.getLsbD b = decide (b % (2 * pitch) = l)) ∧
      s.dim.toNat ≤ n * wc ∧ n * wc < s.dim.toNat + n ∧ wc < 2 ^ 64 ∧
      exec .layout s = .next { s with
        status := (s.status &&& ~~~0xF#64) ||| 0x100#64
        laneWidth := BitVec.ofNat 64 l
        lanePitch := BitVec.ofNat 64 pitch
        lanesPerWord := BitVec.ofNat 64 n
        valueMask := vm
        guardMask := gm
        wordCount := BitVec.ofNat 64 wc }

/-- R119: LAYOUT with any other modulus raises ERR_CONFIG, clears CFG_VALID and registers 6 to 11, and fails the same
way when it is repeated; no other command raises ERR_CONFIG, and LAYOUT only with such a modulus. -/
def Obligations.LayoutRefusesOtherModuli : Prop :=
  (∀ s : State, ¬ Accepted s.modulus.toNat →
    let t : State := { s with
      status := (s.status &&& ~~~0x10F#64) ||| 1#64
      errlog := s.errlog ||| 2#64
      laneWidth := 0, lanePitch := 0, lanesPerWord := 0, valueMask := 0, guardMask := 0, wordCount := 0 }
    exec .layout s = .next t ∧ exec .layout t = .next t) ∧
  ∀ (i : Instr) (s t : State), exec i s = .next t → t.status.extractLsb' 0 4 = 1 →
    i = .layout ∧ ¬ Accepted s.modulus.toNat

/-- R74: the spec's table of 31 rows is complete, and for each row LAYOUT of that modulus gives the row's registers and
masks. -/
def Obligations.LayoutTableHolds : Prop :=
  (∀ p, Accepted p ↔ ∃ r ∈ layoutRowsNarrow ++ layoutRowsWide, r.p = p) ∧
  ∀ r ∈ layoutRowsNarrow ++ layoutRowsWide,
    ∃ t, exec .layout { State.reset with modulus := BitVec.ofNat 64 r.p } = .next t ∧ HoldsRow r t

/-! COPY, LGET, LSET. -/

/-- R82: COPY writes each word of A, all 64 bits, to B in ascending order (so on partial overlap too, R49), writes
nothing else but STATUS.ERR, and once its checks pass cannot fail; where A and B are the same or apart, every word of B
is then the old word of A. -/
def Obligations.CopyWritesBufferB : Prop :=
  (∀ c : Word, decode c = .ok .copy ↔ c = 0x0000000000000002) ∧
  (∀ s : State, ChecksPass .copy s → PortBacks .copy s →
    ∃ m, exec .copy s = .next { s with status := okStatus s, mem := m, port := s.port ++ accesses .copy s } ∧
      m = (List.range s.wordCount.toNat).foldl
        (fun m i => m.writeWord (s.bBase.toNat + i) (m.readWord (s.aBase.toNat + i))) s.mem ∧
      (SameOrApart s → ∀ i, i < s.wordCount.toNat →
        m.readWord (s.bBase.toNat + i) = s.mem.readWord (s.aBase.toNat + i)) ∧
      ∀ b, ¬ StoresTo .copy s b → m.readByte b = s.mem.readByte b) ∧
  FailsInOrder .copy

/-- R49 (its example): COPY with B one word above A smears word 0 of A over the whole of B. -/
def Obligations.CopySmearsWhenBIsOneAboveA : Prop :=
  ∀ s : State, ChecksPass .copy s → PortBacks .copy s → s.bBase.toNat = s.aBase.toNat + 1 →
    ∃ t, exec .copy s = .next t ∧
      ∀ i, i < s.wordCount.toNat → t.mem.readWord (s.bBase.toNat + i) = s.mem.readWord s.aBase.toNat

/-- R82 (its last sentence): COPY and then CMPEQ reports Equal, where A and B are the same or apart. -/
def Obligations.CopyThenCompareReportsEqual : Prop :=
  ∀ s : State, ChecksPass .copy s → PortBacks .copy s → SameOrApart s →
    ∃ t u, exec .copy s = .next t ∧ exec .cmpeq t = .next u ∧ u.result = 0 ∧ u.status.extractLsb' 0 4 = 0

/-- R83: LGET puts the l value bits of lane LANE_IDX (slot LANE_IDX mod n of the word at A + LANE_IDX div n) into
LANE_DATA, zero-extended and not canonicalised, and changes nothing else but STATUS.ERR. -/
def Obligations.LgetReadsRawLane : Prop :=
  (∀ c : Word, decode c = .ok .lget ↔ c = 0x0000000000000007) ∧
  (∀ s : State, ChecksPass .lget s → PortBacks .lget s →
    ∃ v : Word, exec .lget s = .next { s with
        status := okStatus s, laneData := v, port := s.port ++ [.read (laneWordAddr s)] } ∧
      ∀ b, b < 64 → v.getLsbD b = (decide (b < s.laneWidth.toNat) &&
        (s.mem.readWord (laneWordAddr s)).getLsbD
          (s.laneIdx.toNat % s.lanesPerWord.toNat * s.lanePitch.toNat + b))) ∧
  FailsInOrder .lget

/-- R84: LSET replaces the l value bits of lane LANE_IDX by the low l bits of LANE_DATA; every other bit of the word,
every other byte of memory and every register but STATUS.ERR keep their values. -/
def Obligations.LsetChangesOneLane : Prop :=
  (∀ c : Word, decode c = .ok .lset ↔ c = 0x0000000000000008) ∧
  (∀ s : State, ChecksPass .lset s → PortBacks .lset s →
    let sh := s.laneIdx.toNat % s.lanesPerWord.toNat * s.lanePitch.toNat
    ∃ m, exec .lset s = .next { s with
        status := okStatus s, mem := m
        port := s.port ++ [.read (laneWordAddr s), .write (laneWordAddr s)] } ∧
      (∀ b, b < 64 → (m.readWord (laneWordAddr s)).getLsbD b =
        if sh ≤ b ∧ b < sh + s.laneWidth.toNat then s.laneData.getLsbD (b - sh)
        else (s.mem.readWord (laneWordAddr s)).getLsbD b) ∧
      ∀ b, ¬ StoresTo .lset s b → m.readByte b = s.mem.readByte b) ∧
  FailsInOrder .lset

/-- R84 (its last corner case): LSET and then LGET at the same index returns LANE_DATA & (2^l - 1). -/
def Obligations.LsetThenLgetReturnsLowBits : Prop :=
  ∀ s : State, LayoutInv s → ChecksPass .lset s → PortBacks .lset s →
    ∃ t u, exec .lset s = .next t ∧ exec .lget t = .next u ∧
      u.laneData.toNat = s.laneData.toNat % 2 ^ s.laneWidth.toNat

/-! CMPEQ, CMPEQQ. -/

/-- R92, R90: for the layout of every accepted modulus, neq_word is 0 exactly when every lane of a is congruent to the
lane of b modulo p (the spec's own inference in its sentence R93). -/
def Obligations.NeqWordLaneLaw : Prop :=
  ∀ l, 2 ≤ l → l ≤ 32 → ∀ a b : Word,
    neqWord (deriveLayout l) a b = 0 ↔ ∀ k, k < 64 / lanePitchOf l →
      lane (deriveLayout l) a k % (2 ^ l - 1) = lane (deriveLayout l) b k % (2 ^ l - 1)

/-- R94 (d): with 1 < q < p, q dividing p and c = p / q, the test of the rescaled words is 0 exactly when every lane of
a is congruent to the lane of b modulo q (the spec's own inference in its sentence R95). -/
def Obligations.RescaledNeqWordLaneLaw : Prop :=
  ∀ l q, 2 ≤ l → l ≤ 32 → 1 < q → q < 2 ^ l - 1 → q ∣ 2 ^ l - 1 → ∀ a b : Word,
    neqWordScaled (deriveLayout l) ((2 ^ l - 1) / q) a b = 0 ↔ ∀ k, k < 64 / lanePitchOf l →
      lane (deriveLayout l) a k % q = lane (deriveLayout l) b k % q

/-- R91: CMPEQ sets RESULT to 0 exactly when A and B are equal modulo p in every lane of every word, trailing lanes
included and pad bits left out (R90), else to 1; it reads all words of both and writes nothing else but STATUS.ERR. That
its word test decides this is an inference the spec draws in its sentence R93. -/
def Obligations.CmpeqDecidesEqualityModP : Prop :=
  (∀ c : Word, decode c = .ok .cmpeq ↔ c = 0x0000000000000003) ∧
  (∀ s : State, LayoutInv s → ChecksPass .cmpeq s → PortBacks .cmpeq s →
    exec .cmpeq s = .next { s with
      status := okStatus s
      result := if BuffersCongruent s.modulus.toNat s then 0 else 1
      port := s.port ++ accesses .cmpeq s }) ∧
  FailsInOrder .cmpeq

/-- R91: comparing a buffer with itself gives Equal for every content. -/
def Obligations.CmpeqIsReflexive : Prop :=
  ∀ s : State, ChecksPass .cmpeq s → PortBacks .cmpeq s → s.aBase = s.bBase →
    ∃ t, exec .cmpeq s = .next t ∧ t.result = 0

/-- R91: exchanging the A and B registers does not change what CMPEQ reports. -/
def Obligations.CmpeqIsSymmetric : Prop :=
  ∀ s : State, LayoutInv s → ChecksPass .cmpeq s → PortBacks .cmpeq s →
    ∃ t u, exec .cmpeq s = .next t ∧
      exec .cmpeq { s with aBase := s.bBase, aLen := s.bLen, bBase := s.aBase, bLen := s.aLen } = .next u ∧
      t.result = u.result

/-- R94: CMPEQQ q sets RESULT to 2 when q does not divide p, else to 0 when all pairs of lanes are congruent modulo q
and to 1 when not; it makes the accesses of its case and writes nothing else but STATUS.ERR. That its word test decides
this is an inference the spec draws in its sentences R93 and R95. -/
def Obligations.CmpeqqDecidesCongruenceModQ : Prop :=
  (∀ (c : Word) (q : Nat), decode c = .ok (.cmpeqq q) ↔ q < 2 ^ 32 ∧ c = (BitVec.ofNat 64 q <<< 32) ||| 0x04) ∧
  (∀ (q : Nat) (s : State), LayoutInv s → ChecksPass (.cmpeqq q) s → PortBacks (.cmpeqq q) s →
    exec (.cmpeqq q) s = .next { s with
      status := okStatus s
      result := if q ∣ s.modulus.toNat then (if BuffersCongruent q s then 0 else 1) else 2
      port := s.port ++ accesses (.cmpeqq q) s }) ∧
  ∀ q : Nat, FailsInOrder (.cmpeqq q)

/-- R121: CMPEQQ with a q that is not 1 and does not divide p completes: ERR = 0, ERRLOG unchanged, RESULT = 2. -/
def Obligations.NotDivisibleIsAResult : Prop :=
  ∀ (q : Nat) (s : State), ChecksPass (.cmpeqq q) s → q ≠ 1 → ¬ q ∣ s.modulus.toNat →
    exec (.cmpeqq q) s = .next { s with status := okStatus s, result := 2 }

/-! ADD, SMUL. -/

/-- R101, R103: for the layout of every accepted modulus, lane k of add_word is rep_p of the sum of the two lanes k,
and the pad bits of the result are 0 (the spec's own inference in its sentence R102). -/
def Obligations.AddWordLaneLaw : Prop :=
  ∀ l, 2 ≤ l → l ≤ 32 → ∀ a b : Word,
    (∀ k, k < 64 / lanePitchOf l → lane (deriveLayout l) (addWord (deriveLayout l) a b) k =
      rep (2 ^ l - 1) (lane (deriveLayout l) a k + lane (deriveLayout l) b k)) ∧
    addWord (deriveLayout l) a b &&& ~~~valueMaskOf l (lanePitchOf l) = 0

/-- R106, R109: for the layout of every accepted modulus and 0 <= f < p, lane k of smul_word is rep_p of f times the
lane k, and the pad bits of the result are 0 (the spec's own inference in its sentence R107). -/
def Obligations.SmulWordLaneLaw : Prop :=
  ∀ l, 2 ≤ l → l ≤ 32 → ∀ (f : Nat) (a : Word), f < 2 ^ l - 1 →
    (∀ k, k < 64 / lanePitchOf l → lane (deriveLayout l) (smulWord (deriveLayout l) f a) k =
      rep (2 ^ l - 1) (f * lane (deriveLayout l) a k)) ∧
    smulWord (deriveLayout l) f a &&& ~~~valueMaskOf l (lanePitchOf l) = 0

/-- R100: ADD rewrites the words of A in ascending order by add_word of the A and B words it reads (so on partial
overlap too, R49), and changes nothing else but STATUS.ERR; each lane of the new A is rep_p of the sum of the lanes
read, and the pad bits are 0. A is read as it was, and B too where A and B are the same or apart. That
add_word gives these lanes and pad bits is an inference the spec draws in its sentence R102. -/
def Obligations.AddComputesLaneSums : Prop :=
  (∀ c : Word, decode c = .ok .add ↔ c = 0x0000000000000005) ∧
  (∀ s : State, LayoutInv s → ChecksPass .add s → PortBacks .add s →
    let A := s.aBase.toNat
    let B := s.bBase.toNat
    let before : Nat → Memory := fun i => (List.range i).foldl
      (fun m j => m.writeWord (A + j) (addWord (activeLayout s) (m.readWord (A + j)) (m.readWord (B + j)))) s.mem
    let m := before s.wordCount.toNat
    exec .add s = .next { s with status := okStatus s, mem := m, port := s.port ++ accesses .add s } ∧
      (∀ i, i < s.wordCount.toNat →
        (∀ k, k < s.lanesPerWord.toNat → lane (activeLayout s) (m.readWord (A + i)) k =
          rep s.modulus.toNat (lane (activeLayout s) (s.mem.readWord (A + i)) k +
            lane (activeLayout s) ((before i).readWord (B + i)) k)) ∧
        m.readWord (A + i) &&& ~~~s.valueMask = 0 ∧
        (SameOrApart s → (before i).readWord (B + i) = s.mem.readWord (B + i))) ∧
      ∀ b, ¬ StoresTo .add s b → m.readByte b = s.mem.readByte b) ∧
  FailsInOrder .add

/-- R103: adding a buffer of zero words leaves well-formed words of A as they are, bit for bit, also lanes holding p. -/
def Obligations.AddOfZeroIsIdentity : Prop :=
  ∀ s : State, LayoutInv s → ChecksPass .add s → PortBacks .add s → SameOrApart s →
    (∀ i, i < s.wordCount.toNat → s.mem.readWord (s.aBase.toNat + i) &&& ~~~s.valueMask = 0 ∧
      s.mem.readWord (s.bBase.toNat + i) = 0) →
    ∃ t, exec .add s = .next t ∧ ∀ b, t.mem.readByte b = s.mem.readByte b

/-- R105, R108: SMUL makes each lane of A rep_p of f times the old lane, f being the number in [0, p - 1] congruent to
the factor, with pad bits 0, and changes nothing else but STATUS.ERR; buffer B is neither used nor checked. That
smul_word gives these lanes and pad bits is an inference the spec draws in its sentence R107. -/
def Obligations.SmulComputesLaneProducts : Prop :=
  (∀ (c : Word) (factor : Int), decode c = .ok (.smul factor) ↔ -(2 ^ 31) ≤ factor ∧ factor < 2 ^ 31 ∧
    c = (BitVec.ofNat 64 (factor % 2 ^ 32).toNat <<< 32) ||| 0x06) ∧
  (∀ (factor : Int) (s : State), LayoutInv s → ChecksPass (.smul factor) s → PortBacks (.smul factor) s →
    ∃ m, exec (.smul factor) s =
        .next { s with status := okStatus s, mem := m, port := s.port ++ accesses (.smul factor) s } ∧
      (∀ i, i < s.wordCount.toNat →
        (∀ k f : Nat, k < s.lanesPerWord.toNat → f < s.modulus.toNat → (s.modulus.toNat : Int) ∣ factor - f →
          lane (activeLayout s) (m.readWord (s.aBase.toNat + i)) k =
            rep s.modulus.toNat (f * lane (activeLayout s) (s.mem.readWord (s.aBase.toNat + i)) k)) ∧
        m.readWord (s.aBase.toNat + i) &&& ~~~s.valueMask = 0) ∧
      ∀ b, ¬ StoresTo (.smul factor) s b → m.readByte b = s.mem.readByte b) ∧
  ∀ factor : Int, FailsInOrder (.smul factor)

/-- R109: a factor that is a multiple of p zeroes every word of A; a factor congruent to 1 leaves well-formed words as
they are, bit for bit. -/
def Obligations.SmulByZeroAndByOne : Prop :=
  ∀ (factor : Int) (s : State), LayoutInv s → ChecksPass (.smul factor) s → PortBacks (.smul factor) s →
    ∃ t, exec (.smul factor) s = .next t ∧
      ((s.modulus.toNat : Int) ∣ factor →
        ∀ i, i < s.wordCount.toNat → t.mem.readWord (s.aBase.toNat + i) = 0) ∧
      ((s.modulus.toNat : Int) ∣ factor - 1 →
        ∀ i, i < s.wordCount.toNat → s.mem.readWord (s.aBase.toNat + i) &&& ~~~s.valueMask = 0 →
          t.mem.readWord (s.aBase.toNat + i) = s.mem.readWord (s.aBase.toNat + i))

/-- R109 (its last sentence): SMUL 2 leaves the same memory as ADD of a buffer with itself. -/
def Obligations.SmulByTwoIsAddWithItself : Prop :=
  ∀ s : State, LayoutInv s → ChecksPass .add s → PortBacks .add s → s.aBase = s.bBase →
    ∃ t u, exec (.smul 2) s = .next t ∧ exec .add s = .next u ∧ t.mem = u.mem

/-! Frames, accesses, invariants. -/

/-- R61: the registers each command writes. Every command may write STATUS and ERRLOG; registers 6 to 11 are written
by LAYOUT only, RESULT by CMPEQ and CMPEQQ only, LANE_DATA by LGET only, and no command writes any other register. -/
def Obligations.CommandsWriteOnlyTheirRegisters : Prop :=
  ∀ (i : Instr) (s t : State), exec i s = .next t →
    (t.modulus = s.modulus ∧ t.dim = s.dim ∧ t.aBase = s.aBase ∧ t.aLen = s.aLen ∧ t.bBase = s.bBase ∧
      t.bLen = s.bLen ∧ t.laneIdx = s.laneIdx ∧ t.params = s.params ∧ t.script = s.script ∧ t.replies = s.replies) ∧
    (i ≠ .layout → t.laneWidth = s.laneWidth ∧ t.lanePitch = s.lanePitch ∧ t.lanesPerWord = s.lanesPerWord ∧
      t.valueMask = s.valueMask ∧ t.guardMask = s.guardMask ∧ t.wordCount = s.wordCount ∧
      t.status.getLsbD 8 = s.status.getLsbD 8) ∧
    (i ≠ .cmpeq → (∀ q, i ≠ .cmpeqq q) → t.result = s.result) ∧
    (i ≠ .lget → t.laneData = s.laneData) ∧
    ∀ b, 4 ≤ b → b ≠ 8 → t.status.getLsbD b = s.status.getLsbD b

/-- R61: the bytes of memory each command may change: those of buffer B for COPY, of buffer A for ADD and SMUL, of the
one word for LSET, none for the others; a command that ends in an error leaves the whole memory as it was. -/
def Obligations.CommandsStoreOnlyToTheirBuffers : Prop :=
  ∀ (i : Instr) (s t : State), exec i s = .next t →
    (∀ b, ¬ StoresTo i s b → t.mem.readByte b = s.mem.readByte b) ∧
    (t.status.extractLsb' 0 4 ≠ 0 → t.mem = s.mem)

/-- R46: a command that completes makes exactly the accesses listed for it, in that order; a command that ends with
ERR != OK makes none. -/
def Obligations.CommandsMakeTheListedAccesses : Prop :=
  ∀ (i : Instr) (s t : State), exec i s = .next t →
    t.port = s.port ++ (if t.status.extractLsb' 0 4 = 0 then accesses i s else [])

/-- R46, R142 (data independence): whatever the contents of memory, a command makes the same accesses, reports the same
outcome in STATUS and ERRLOG, and stops, where it stops, in the same way. -/
def Obligations.AccessesAreDataIndependent : Prop :=
  ∀ (i : Instr) (s : State) (m : Memory),
    (∀ t, exec i s = .next t → ∃ u, exec i { s with mem := m } = .next u ∧ u.port = t.port ∧
      u.status = t.status ∧ u.errlog = t.errlog) ∧
    ∀ f, exec i s = .fault f → exec i { s with mem := m } = .fault f

/-- R17: over every step of the machine, RESULT changes only by a CMPEQ or CMPEQQ that completes with ERR = OK, and by
reset. -/
def Obligations.ResultChangesOnlyByCompare : Prop :=
  ∀ s t : State, step s = .next t → t.result ≠ s.result →
    (∃ c rest i, s.script = .write 0 c :: rest ∧ decode c = .ok i ∧ (i = .cmpeq ∨ ∃ q, i = .cmpeqq q) ∧
      t.status.extractLsb' 0 4 = 0 ∧ (t.result = 0 ∨ t.result = 1 ∨ (t.result = 2 ∧ i ≠ .cmpeq))) ∨
    ∃ rest, s.script = .reset :: rest

/-- R16: over every step of the machine, CFG_VALID is set only by a LAYOUT that completes, and cleared only by a LAYOUT
that fails, a host write to MODULUS or DIM, or reset. -/
def Obligations.CfgValidChangesOnlyByLayoutAndWrites : Prop :=
  ∀ s t : State, step s = .next t →
    (s.status.getLsbD 8 = false → t.status.getLsbD 8 = true →
      ∃ c rest, s.script = .write 0 c :: rest ∧ decode c = .ok .layout ∧ t.status.extractLsb' 0 4 = 0) ∧
    (s.status.getLsbD 8 = true → t.status.getLsbD 8 = false →
      (∃ c rest, s.script = .write 0 c :: rest ∧ decode c = .ok .layout ∧ t.status.extractLsb' 0 4 = 1) ∨
      (∃ num v rest, s.script = .write num v :: rest ∧ (num = 4 ∨ num = 5)) ∨
      ∃ rest, s.script = .reset :: rest)

/-- The layout invariant (an inference the spec draws in its sentence R32 from R14, R15, R33, R71, R72): it holds at
reset and every step keeps it, so at every point between commands the layout registers are clear with CFG_VALID = 0, or
hold the layout of the current MODULUS and DIM. -/
def Obligations.LayoutInvariantIsKept : Prop :=
  LayoutInv State.reset ∧ ∀ s t : State, LayoutInv s → step s = .next t → LayoutInv t

/-- R16 to R18, R111: every step keeps the reserved bits of STATUS, RESULT and ERRLOG at 0, and never produces an ERR
code above 6 or RESULT code 3. -/
def Obligations.FieldsStayLegal : Prop :=
  ∀ s t : State, FieldsLegal s → step s = .next t → FieldsLegal t

/-- Every step keeps the memory's canonical form (the model's own form, notes/assumptions/1.md). -/
def Obligations.MemoryStaysCanonical : Prop :=
  ∀ s t : State, s.mem.wf = true → step s = .next t → t.mem.wf = true

/-- R39: the platform's parameters are fixed: no step changes them. That they stand in the state is the model's choice
(notes/assumptions/4.md). -/
def Obligations.ParametersNeverChange : Prop :=
  ∀ s t : State, step s = .next t → t.params = s.params

/-- R38, R32: the state after reset meets every invariant. Its memory lists nothing, in canonical form, by the model's
choice (notes/assumptions/1.md); its parameters are the defaults of R6, and that they stand in the state is the model's
choice (notes/assumptions/4.md). -/
def Obligations.ResetMeetsTheInvariants : Prop :=
  LayoutInv State.reset ∧ FieldsLegal State.reset ∧ NoFailureLogged State.reset ∧ State.reset.mem = [] ∧
    State.reset.mem.wf = true ∧ State.reset.params = { addrBits := 32, holes := [] }

/-- The properties of every derived layout (an inference the spec draws in its sentence R73 from R72): lanes fit a
word, the planes are disjoint and together the value mask, the guard bits lie outside the plane lanes, and CM lies
in VM. -/
def Obligations.DerivedLayoutsFit : Prop :=
  ∀ l, l ≤ 32 → 2 ≤ l →
    let L := deriveLayout l
    L.l = l ∧ L.l ≤ L.s ∧ L.n * L.s = 64 ∧ L.n % 2 = 0 ∧ 2 ≤ L.n ∧ L.vm = L.pm ||| (L.pm <<< L.s) ∧
      L.pm &&& (L.pm <<< L.s) = 0 ∧ L.gm &&& L.pm = 0 ∧ L.cm &&& ~~~L.vm = 0
end

