-- ==== Sys2Proof/Laws/Exec.lean ====
section
/-! SUPPORT. Each command's meaning over the shared operations, as one equation to rewrite with: a proof rewrites with
these and then cites the lemma of the shared operation. -/

namespace Sys2Proof.Laws

open Sys2Proof.Machine

theorem exec_layout (s : State) :
    exec .layout s = match laneWidthOf s.modulus.toNat with
      | none => .next (raise .config (clearLayout s))
      | some l => .next (complete (installLayout (deriveLayout l) s)) := rfl

theorem exec_copy (s : State) : exec .copy s = withPrologue true true false s copyBuffer := rfl

theorem exec_cmpeq (s : State) :
    exec .cmpeq s = withPrologue true true false s fun s => compareBuffers (neqWord (activeLayout s)) s := rfl

theorem exec_cmpeqq (q : Nat) (s : State) :
    exec (.cmpeqq q) s = withPrologue true true false s fun s =>
      if q = s.modulus.toNat then compareBuffers (neqWord (activeLayout s)) s
      else if q = 1 then .next (setResult .equal s)
      else if q = 0 ∨ s.modulus.toNat % q ≠ 0 then .next (setResult .notDivisible s)
      else compareBuffers (neqWordScaled (activeLayout s) (s.modulus.toNat / q)) s := rfl

theorem exec_add (s : State) :
    exec .add s = withPrologue true true false s fun s => mapBuffersAB (addWord (activeLayout s)) s := rfl

theorem exec_smul (factor : Int) (s : State) :
    exec (.smul factor) s = withPrologue true false false s fun s =>
      mapBufferA (smulWord (activeLayout s) (normalFactor factor s.modulus.toNat)) s := rfl

theorem exec_lget (s : State) :
    exec .lget s = withPrologue true false true s fun s =>
      andThen (memRead (laneAddr s) s) fun r =>
        .next (setLaneData (laneWord (activeLayout s) r.1 (laneSlot s)) r.2) := rfl

theorem exec_lset (s : State) :
    exec .lset s = withPrologue true false true s fun s =>
      andThen (memRead (laneAddr s) s) fun r =>
        memWrite (laneAddr s) (insertLane (activeLayout s) r.1 s.laneData (laneSlot s)) r.2 := rfl

end Sys2Proof.Laws
end

