-- ==== Sys2Proof/Laws/State.lean ====
section
/-! SUPPORT. One lemma per field of State for each named update, so that no proof unfolds a record update. -/

namespace Sys2Proof.Laws

open Sys2Proof.Machine

section complete

variable (s : State)

@[simp] theorem complete_status : (complete s).status = statusWithErr s.status 0 := rfl
@[simp] theorem complete_result : (complete s).result = s.result := rfl
@[simp] theorem complete_errlog : (complete s).errlog = s.errlog := rfl
@[simp] theorem complete_modulus : (complete s).modulus = s.modulus := rfl
@[simp] theorem complete_dim : (complete s).dim = s.dim := rfl
@[simp] theorem complete_laneWidth : (complete s).laneWidth = s.laneWidth := rfl
@[simp] theorem complete_lanePitch : (complete s).lanePitch = s.lanePitch := rfl
@[simp] theorem complete_lanesPerWord : (complete s).lanesPerWord = s.lanesPerWord := rfl
@[simp] theorem complete_valueMask : (complete s).valueMask = s.valueMask := rfl
@[simp] theorem complete_guardMask : (complete s).guardMask = s.guardMask := rfl
@[simp] theorem complete_wordCount : (complete s).wordCount = s.wordCount := rfl
@[simp] theorem complete_aBase : (complete s).aBase = s.aBase := rfl
@[simp] theorem complete_aLen : (complete s).aLen = s.aLen := rfl
@[simp] theorem complete_bBase : (complete s).bBase = s.bBase := rfl
@[simp] theorem complete_bLen : (complete s).bLen = s.bLen := rfl
@[simp] theorem complete_laneIdx : (complete s).laneIdx = s.laneIdx := rfl
@[simp] theorem complete_laneData : (complete s).laneData = s.laneData := rfl
@[simp] theorem complete_mem : (complete s).mem = s.mem := rfl
@[simp] theorem complete_params : (complete s).params = s.params := rfl
@[simp] theorem complete_script : (complete s).script = s.script := rfl
@[simp] theorem complete_replies : (complete s).replies = s.replies := rfl
@[simp] theorem complete_port : (complete s).port = s.port := rfl

end complete

section raise

variable (e : Err) (s : State)

@[simp] theorem raise_status : (raise e s).status = statusWithErr s.status (errCode e) := rfl
@[simp] theorem raise_result : (raise e s).result = s.result := rfl
@[simp] theorem raise_errlog : (raise e s).errlog = errlogWithBit s.errlog (errCode e) := rfl
@[simp] theorem raise_modulus : (raise e s).modulus = s.modulus := rfl
@[simp] theorem raise_dim : (raise e s).dim = s.dim := rfl
@[simp] theorem raise_laneWidth : (raise e s).laneWidth = s.laneWidth := rfl
@[simp] theorem raise_lanePitch : (raise e s).lanePitch = s.lanePitch := rfl
@[simp] theorem raise_lanesPerWord : (raise e s).lanesPerWord = s.lanesPerWord := rfl
@[simp] theorem raise_valueMask : (raise e s).valueMask = s.valueMask := rfl
@[simp] theorem raise_guardMask : (raise e s).guardMask = s.guardMask := rfl
@[simp] theorem raise_wordCount : (raise e s).wordCount = s.wordCount := rfl
@[simp] theorem raise_aBase : (raise e s).aBase = s.aBase := rfl
@[simp] theorem raise_aLen : (raise e s).aLen = s.aLen := rfl
@[simp] theorem raise_bBase : (raise e s).bBase = s.bBase := rfl
@[simp] theorem raise_bLen : (raise e s).bLen = s.bLen := rfl
@[simp] theorem raise_laneIdx : (raise e s).laneIdx = s.laneIdx := rfl
@[simp] theorem raise_laneData : (raise e s).laneData = s.laneData := rfl
@[simp] theorem raise_mem : (raise e s).mem = s.mem := rfl
@[simp] theorem raise_params : (raise e s).params = s.params := rfl
@[simp] theorem raise_script : (raise e s).script = s.script := rfl
@[simp] theorem raise_replies : (raise e s).replies = s.replies := rfl
@[simp] theorem raise_port : (raise e s).port = s.port := rfl

end raise

section clearLayout

variable (s : State)

@[simp] theorem clearLayout_status : (clearLayout s).status = statusWithCfgValid s.status false := rfl
@[simp] theorem clearLayout_result : (clearLayout s).result = s.result := rfl
@[simp] theorem clearLayout_errlog : (clearLayout s).errlog = s.errlog := rfl
@[simp] theorem clearLayout_modulus : (clearLayout s).modulus = s.modulus := rfl
@[simp] theorem clearLayout_dim : (clearLayout s).dim = s.dim := rfl
@[simp] theorem clearLayout_laneWidth : (clearLayout s).laneWidth = 0 := rfl
@[simp] theorem clearLayout_lanePitch : (clearLayout s).lanePitch = 0 := rfl
@[simp] theorem clearLayout_lanesPerWord : (clearLayout s).lanesPerWord = 0 := rfl
@[simp] theorem clearLayout_valueMask : (clearLayout s).valueMask = 0 := rfl
@[simp] theorem clearLayout_guardMask : (clearLayout s).guardMask = 0 := rfl
@[simp] theorem clearLayout_wordCount : (clearLayout s).wordCount = 0 := rfl
@[simp] theorem clearLayout_aBase : (clearLayout s).aBase = s.aBase := rfl
@[simp] theorem clearLayout_aLen : (clearLayout s).aLen = s.aLen := rfl
@[simp] theorem clearLayout_bBase : (clearLayout s).bBase = s.bBase := rfl
@[simp] theorem clearLayout_bLen : (clearLayout s).bLen = s.bLen := rfl
@[simp] theorem clearLayout_laneIdx : (clearLayout s).laneIdx = s.laneIdx := rfl
@[simp] theorem clearLayout_laneData : (clearLayout s).laneData = s.laneData := rfl
@[simp] theorem clearLayout_mem : (clearLayout s).mem = s.mem := rfl
@[simp] theorem clearLayout_params : (clearLayout s).params = s.params := rfl
@[simp] theorem clearLayout_script : (clearLayout s).script = s.script := rfl
@[simp] theorem clearLayout_replies : (clearLayout s).replies = s.replies := rfl
@[simp] theorem clearLayout_port : (clearLayout s).port = s.port := rfl

end clearLayout

section installLayout

variable (L : Layout) (s : State)

@[simp] theorem installLayout_status : (installLayout L s).status = statusWithCfgValid s.status true := rfl
@[simp] theorem installLayout_result : (installLayout L s).result = s.result := rfl
@[simp] theorem installLayout_errlog : (installLayout L s).errlog = s.errlog := rfl
@[simp] theorem installLayout_modulus : (installLayout L s).modulus = s.modulus := rfl
@[simp] theorem installLayout_dim : (installLayout L s).dim = s.dim := rfl
@[simp] theorem installLayout_laneWidth : (installLayout L s).laneWidth = BitVec.ofNat 64 L.l := rfl
@[simp] theorem installLayout_lanePitch : (installLayout L s).lanePitch = BitVec.ofNat 64 L.s := rfl
@[simp] theorem installLayout_lanesPerWord : (installLayout L s).lanesPerWord = BitVec.ofNat 64 L.n := rfl
@[simp] theorem installLayout_valueMask : (installLayout L s).valueMask = L.vm := rfl
@[simp] theorem installLayout_guardMask : (installLayout L s).guardMask = L.gm := rfl
@[simp] theorem installLayout_wordCount : (installLayout L s).wordCount = BitVec.ofNat 64 (wordCountOf s.dim.toNat L.n) := rfl
@[simp] theorem installLayout_aBase : (installLayout L s).aBase = s.aBase := rfl
@[simp] theorem installLayout_aLen : (installLayout L s).aLen = s.aLen := rfl
@[simp] theorem installLayout_bBase : (installLayout L s).bBase = s.bBase := rfl
@[simp] theorem installLayout_bLen : (installLayout L s).bLen = s.bLen := rfl
@[simp] theorem installLayout_laneIdx : (installLayout L s).laneIdx = s.laneIdx := rfl
@[simp] theorem installLayout_laneData : (installLayout L s).laneData = s.laneData := rfl
@[simp] theorem installLayout_mem : (installLayout L s).mem = s.mem := rfl
@[simp] theorem installLayout_params : (installLayout L s).params = s.params := rfl
@[simp] theorem installLayout_script : (installLayout L s).script = s.script := rfl
@[simp] theorem installLayout_replies : (installLayout L s).replies = s.replies := rfl
@[simp] theorem installLayout_port : (installLayout L s).port = s.port := rfl

end installLayout

section setResult

variable (v : Verdict) (s : State)

@[simp] theorem setResult_status : (setResult v s).status = s.status := rfl
@[simp] theorem setResult_result : (setResult v s).result = verdictCode v := rfl
@[simp] theorem setResult_errlog : (setResult v s).errlog = s.errlog := rfl
@[simp] theorem setResult_modulus : (setResult v s).modulus = s.modulus := rfl
@[simp] theorem setResult_dim : (setResult v s).dim = s.dim := rfl
@[simp] theorem setResult_laneWidth : (setResult v s).laneWidth = s.laneWidth := rfl
@[simp] theorem setResult_lanePitch : (setResult v s).lanePitch = s.lanePitch := rfl
@[simp] theorem setResult_lanesPerWord : (setResult v s).lanesPerWord = s.lanesPerWord := rfl
@[simp] theorem setResult_valueMask : (setResult v s).valueMask = s.valueMask := rfl
@[simp] theorem setResult_guardMask : (setResult v s).guardMask = s.guardMask := rfl
@[simp] theorem setResult_wordCount : (setResult v s).wordCount = s.wordCount := rfl
@[simp] theorem setResult_aBase : (setResult v s).aBase = s.aBase := rfl
@[simp] theorem setResult_aLen : (setResult v s).aLen = s.aLen := rfl
@[simp] theorem setResult_bBase : (setResult v s).bBase = s.bBase := rfl
@[simp] theorem setResult_bLen : (setResult v s).bLen = s.bLen := rfl
@[simp] theorem setResult_laneIdx : (setResult v s).laneIdx = s.laneIdx := rfl
@[simp] theorem setResult_laneData : (setResult v s).laneData = s.laneData := rfl
@[simp] theorem setResult_mem : (setResult v s).mem = s.mem := rfl
@[simp] theorem setResult_params : (setResult v s).params = s.params := rfl
@[simp] theorem setResult_script : (setResult v s).script = s.script := rfl
@[simp] theorem setResult_replies : (setResult v s).replies = s.replies := rfl
@[simp] theorem setResult_port : (setResult v s).port = s.port := rfl

end setResult

section setLaneData

variable (v : Word) (s : State)

@[simp] theorem setLaneData_status : (setLaneData v s).status = s.status := rfl
@[simp] theorem setLaneData_result : (setLaneData v s).result = s.result := rfl
@[simp] theorem setLaneData_errlog : (setLaneData v s).errlog = s.errlog := rfl
@[simp] theorem setLaneData_modulus : (setLaneData v s).modulus = s.modulus := rfl
@[simp] theorem setLaneData_dim : (setLaneData v s).dim = s.dim := rfl
@[simp] theorem setLaneData_laneWidth : (setLaneData v s).laneWidth = s.laneWidth := rfl
@[simp] theorem setLaneData_lanePitch : (setLaneData v s).lanePitch = s.lanePitch := rfl
@[simp] theorem setLaneData_lanesPerWord : (setLaneData v s).lanesPerWord = s.lanesPerWord := rfl
@[simp] theorem setLaneData_valueMask : (setLaneData v s).valueMask = s.valueMask := rfl
@[simp] theorem setLaneData_guardMask : (setLaneData v s).guardMask = s.guardMask := rfl
@[simp] theorem setLaneData_wordCount : (setLaneData v s).wordCount = s.wordCount := rfl
@[simp] theorem setLaneData_aBase : (setLaneData v s).aBase = s.aBase := rfl
@[simp] theorem setLaneData_aLen : (setLaneData v s).aLen = s.aLen := rfl
@[simp] theorem setLaneData_bBase : (setLaneData v s).bBase = s.bBase := rfl
@[simp] theorem setLaneData_bLen : (setLaneData v s).bLen = s.bLen := rfl
@[simp] theorem setLaneData_laneIdx : (setLaneData v s).laneIdx = s.laneIdx := rfl
@[simp] theorem setLaneData_laneData : (setLaneData v s).laneData = v := rfl
@[simp] theorem setLaneData_mem : (setLaneData v s).mem = s.mem := rfl
@[simp] theorem setLaneData_params : (setLaneData v s).params = s.params := rfl
@[simp] theorem setLaneData_script : (setLaneData v s).script = s.script := rfl
@[simp] theorem setLaneData_replies : (setLaneData v s).replies = s.replies := rfl
@[simp] theorem setLaneData_port : (setLaneData v s).port = s.port := rfl

end setLaneData

section logAccess

variable (s : State) (x : Access)

@[simp] theorem logAccess_status : (s.logAccess x).status = s.status := rfl
@[simp] theorem logAccess_result : (s.logAccess x).result = s.result := rfl
@[simp] theorem logAccess_errlog : (s.logAccess x).errlog = s.errlog := rfl
@[simp] theorem logAccess_modulus : (s.logAccess x).modulus = s.modulus := rfl
@[simp] theorem logAccess_dim : (s.logAccess x).dim = s.dim := rfl
@[simp] theorem logAccess_laneWidth : (s.logAccess x).laneWidth = s.laneWidth := rfl
@[simp] theorem logAccess_lanePitch : (s.logAccess x).lanePitch = s.lanePitch := rfl
@[simp] theorem logAccess_lanesPerWord : (s.logAccess x).lanesPerWord = s.lanesPerWord := rfl
@[simp] theorem logAccess_valueMask : (s.logAccess x).valueMask = s.valueMask := rfl
@[simp] theorem logAccess_guardMask : (s.logAccess x).guardMask = s.guardMask := rfl
@[simp] theorem logAccess_wordCount : (s.logAccess x).wordCount = s.wordCount := rfl
@[simp] theorem logAccess_aBase : (s.logAccess x).aBase = s.aBase := rfl
@[simp] theorem logAccess_aLen : (s.logAccess x).aLen = s.aLen := rfl
@[simp] theorem logAccess_bBase : (s.logAccess x).bBase = s.bBase := rfl
@[simp] theorem logAccess_bLen : (s.logAccess x).bLen = s.bLen := rfl
@[simp] theorem logAccess_laneIdx : (s.logAccess x).laneIdx = s.laneIdx := rfl
@[simp] theorem logAccess_laneData : (s.logAccess x).laneData = s.laneData := rfl
@[simp] theorem logAccess_mem : (s.logAccess x).mem = s.mem := rfl
@[simp] theorem logAccess_params : (s.logAccess x).params = s.params := rfl
@[simp] theorem logAccess_script : (s.logAccess x).script = s.script := rfl
@[simp] theorem logAccess_replies : (s.logAccess x).replies = s.replies := rfl
@[simp] theorem logAccess_port : (s.logAccess x).port = s.port ++ [x] := rfl

end logAccess

section withMem

variable (s : State) (m : Memory)

@[simp] theorem withMem_status : (s.withMem m).status = s.status := rfl
@[simp] theorem withMem_result : (s.withMem m).result = s.result := rfl
@[simp] theorem withMem_errlog : (s.withMem m).errlog = s.errlog := rfl
@[simp] theorem withMem_modulus : (s.withMem m).modulus = s.modulus := rfl
@[simp] theorem withMem_dim : (s.withMem m).dim = s.dim := rfl
@[simp] theorem withMem_laneWidth : (s.withMem m).laneWidth = s.laneWidth := rfl
@[simp] theorem withMem_lanePitch : (s.withMem m).lanePitch = s.lanePitch := rfl
@[simp] theorem withMem_lanesPerWord : (s.withMem m).lanesPerWord = s.lanesPerWord := rfl
@[simp] theorem withMem_valueMask : (s.withMem m).valueMask = s.valueMask := rfl
@[simp] theorem withMem_guardMask : (s.withMem m).guardMask = s.guardMask := rfl
@[simp] theorem withMem_wordCount : (s.withMem m).wordCount = s.wordCount := rfl
@[simp] theorem withMem_aBase : (s.withMem m).aBase = s.aBase := rfl
@[simp] theorem withMem_aLen : (s.withMem m).aLen = s.aLen := rfl
@[simp] theorem withMem_bBase : (s.withMem m).bBase = s.bBase := rfl
@[simp] theorem withMem_bLen : (s.withMem m).bLen = s.bLen := rfl
@[simp] theorem withMem_laneIdx : (s.withMem m).laneIdx = s.laneIdx := rfl
@[simp] theorem withMem_laneData : (s.withMem m).laneData = s.laneData := rfl
@[simp] theorem withMem_mem : (s.withMem m).mem = m := rfl
@[simp] theorem withMem_params : (s.withMem m).params = s.params := rfl
@[simp] theorem withMem_script : (s.withMem m).script = s.script := rfl
@[simp] theorem withMem_replies : (s.withMem m).replies = s.replies := rfl
@[simp] theorem withMem_port : (s.withMem m).port = s.port := rfl

end withMem

section withScript

variable (s : State) (rest : List HostAction)

@[simp] theorem withScript_status : (s.withScript rest).status = s.status := rfl
@[simp] theorem withScript_result : (s.withScript rest).result = s.result := rfl
@[simp] theorem withScript_errlog : (s.withScript rest).errlog = s.errlog := rfl
@[simp] theorem withScript_modulus : (s.withScript rest).modulus = s.modulus := rfl
@[simp] theorem withScript_dim : (s.withScript rest).dim = s.dim := rfl
@[simp] theorem withScript_laneWidth : (s.withScript rest).laneWidth = s.laneWidth := rfl
@[simp] theorem withScript_lanePitch : (s.withScript rest).lanePitch = s.lanePitch := rfl
@[simp] theorem withScript_lanesPerWord : (s.withScript rest).lanesPerWord = s.lanesPerWord := rfl
@[simp] theorem withScript_valueMask : (s.withScript rest).valueMask = s.valueMask := rfl
@[simp] theorem withScript_guardMask : (s.withScript rest).guardMask = s.guardMask := rfl
@[simp] theorem withScript_wordCount : (s.withScript rest).wordCount = s.wordCount := rfl
@[simp] theorem withScript_aBase : (s.withScript rest).aBase = s.aBase := rfl
@[simp] theorem withScript_aLen : (s.withScript rest).aLen = s.aLen := rfl
@[simp] theorem withScript_bBase : (s.withScript rest).bBase = s.bBase := rfl
@[simp] theorem withScript_bLen : (s.withScript rest).bLen = s.bLen := rfl
@[simp] theorem withScript_laneIdx : (s.withScript rest).laneIdx = s.laneIdx := rfl
@[simp] theorem withScript_laneData : (s.withScript rest).laneData = s.laneData := rfl
@[simp] theorem withScript_mem : (s.withScript rest).mem = s.mem := rfl
@[simp] theorem withScript_params : (s.withScript rest).params = s.params := rfl
@[simp] theorem withScript_script : (s.withScript rest).script = rest := rfl
@[simp] theorem withScript_replies : (s.withScript rest).replies = s.replies := rfl
@[simp] theorem withScript_port : (s.withScript rest).port = s.port := rfl

end withScript

section reply

variable (s : State) (v : Word)

@[simp] theorem reply_status : (s.reply v).status = s.status := rfl
@[simp] theorem reply_result : (s.reply v).result = s.result := rfl
@[simp] theorem reply_errlog : (s.reply v).errlog = s.errlog := rfl
@[simp] theorem reply_modulus : (s.reply v).modulus = s.modulus := rfl
@[simp] theorem reply_dim : (s.reply v).dim = s.dim := rfl
@[simp] theorem reply_laneWidth : (s.reply v).laneWidth = s.laneWidth := rfl
@[simp] theorem reply_lanePitch : (s.reply v).lanePitch = s.lanePitch := rfl
@[simp] theorem reply_lanesPerWord : (s.reply v).lanesPerWord = s.lanesPerWord := rfl
@[simp] theorem reply_valueMask : (s.reply v).valueMask = s.valueMask := rfl
@[simp] theorem reply_guardMask : (s.reply v).guardMask = s.guardMask := rfl
@[simp] theorem reply_wordCount : (s.reply v).wordCount = s.wordCount := rfl
@[simp] theorem reply_aBase : (s.reply v).aBase = s.aBase := rfl
@[simp] theorem reply_aLen : (s.reply v).aLen = s.aLen := rfl
@[simp] theorem reply_bBase : (s.reply v).bBase = s.bBase := rfl
@[simp] theorem reply_bLen : (s.reply v).bLen = s.bLen := rfl
@[simp] theorem reply_laneIdx : (s.reply v).laneIdx = s.laneIdx := rfl
@[simp] theorem reply_laneData : (s.reply v).laneData = s.laneData := rfl
@[simp] theorem reply_mem : (s.reply v).mem = s.mem := rfl
@[simp] theorem reply_params : (s.reply v).params = s.params := rfl
@[simp] theorem reply_script : (s.reply v).script = s.script := rfl
@[simp] theorem reply_replies : (s.reply v).replies = s.replies ++ [v] := rfl
@[simp] theorem reply_port : (s.reply v).port = s.port := rfl

end reply

section resetEvent

variable (s : State)

@[simp] theorem resetEvent_status : (resetEvent s).status = 0 := rfl
@[simp] theorem resetEvent_result : (resetEvent s).result = 0 := rfl
@[simp] theorem resetEvent_errlog : (resetEvent s).errlog = 0 := rfl
@[simp] theorem resetEvent_modulus : (resetEvent s).modulus = 0 := rfl
@[simp] theorem resetEvent_dim : (resetEvent s).dim = 0 := rfl
@[simp] theorem resetEvent_laneWidth : (resetEvent s).laneWidth = 0 := rfl
@[simp] theorem resetEvent_lanePitch : (resetEvent s).lanePitch = 0 := rfl
@[simp] theorem resetEvent_lanesPerWord : (resetEvent s).lanesPerWord = 0 := rfl
@[simp] theorem resetEvent_valueMask : (resetEvent s).valueMask = 0 := rfl
@[simp] theorem resetEvent_guardMask : (resetEvent s).guardMask = 0 := rfl
@[simp] theorem resetEvent_wordCount : (resetEvent s).wordCount = 0 := rfl
@[simp] theorem resetEvent_aBase : (resetEvent s).aBase = 0 := rfl
@[simp] theorem resetEvent_aLen : (resetEvent s).aLen = 0 := rfl
@[simp] theorem resetEvent_bBase : (resetEvent s).bBase = 0 := rfl
@[simp] theorem resetEvent_bLen : (resetEvent s).bLen = 0 := rfl
@[simp] theorem resetEvent_laneIdx : (resetEvent s).laneIdx = 0 := rfl
@[simp] theorem resetEvent_laneData : (resetEvent s).laneData = 0 := rfl
@[simp] theorem resetEvent_mem : (resetEvent s).mem = s.mem := rfl
@[simp] theorem resetEvent_params : (resetEvent s).params = s.params := rfl
@[simp] theorem resetEvent_script : (resetEvent s).script = s.script := rfl
@[simp] theorem resetEvent_replies : (resetEvent s).replies = s.replies := rfl
@[simp] theorem resetEvent_port : (resetEvent s).port = s.port := rfl

end resetEvent

end Sys2Proof.Laws
end

