-- ==== Sys2Proof/Laws/Flags.lean ====
section
/-! SUPPORT. The fields of STATUS and ERRLOG after each of their updates, and the two endings of a command in the words
of the statements. -/

namespace Sys2Proof.Laws

open Sys2Proof.Machine Sys2Proof.Safety

/-- STATUS with ERR replaced, as two masks (R16). -/
theorem statusWithErr_eq (w : Word) (k : Nat) (h : k < 16) :
    statusWithErr w k = (w &&& ~~~0xF#64) ||| BitVec.ofNat 64 k := by
  unfold statusWithErr
  congr 1
  apply BitVec.eq_of_toNat_eq
  simp only [BitVec.toNat_setWidth, BitVec.toNat_ofNat]
  omega

/-- Replacing ERR changes bits 3:0 only (R16). -/
theorem statusWithErr_getLsbD (w : Word) (k b : Nat) (h : 4 ≤ b) : (statusWithErr w k).getLsbD b = w.getLsbD b := by
  have hm : ∀ c, c < 64 → 4 ≤ c → (~~~0xF#64).getLsbD c = true := by decide
  by_cases hb : b < 64
  · simp only [statusWithErr, BitVec.getLsbD_or, BitVec.getLsbD_and, hm b hb h, Bool.and_true,
      BitVec.getLsbD_setWidth, BitVec.getLsbD_of_ge (BitVec.ofNat 4 k) b h, Bool.and_false, Bool.or_false]
  · rw [BitVec.getLsbD_of_ge _ b (by omega), BitVec.getLsbD_of_ge _ b (by omega)]

/-- ERR reads as it was written (R16). -/
theorem statusWithErr_err (w : Word) (k : Nat) : (statusWithErr w k).extractLsb' 0 4 = BitVec.ofNat 4 k := by
  have hm : ∀ c, c < 4 → (~~~0xF#64).getLsbD c = false := by decide
  apply BitVec.eq_of_getLsbD_eq
  intro i hi
  simp only [statusWithErr, BitVec.getLsbD_extractLsb', Nat.zero_add, BitVec.getLsbD_or, BitVec.getLsbD_and,
    hm i hi, Bool.and_false, BitVec.getLsbD_setWidth, Bool.false_or, hi, decide_true, Bool.true_and,
    decide_eq_true (show i < 64 by omega)]

/-- CFG_VALID reads as it was written (R16). -/
theorem statusWithCfgValid_valid (w : Word) (v : Bool) : (statusWithCfgValid w v).getLsbD 8 = v := by
  have h1 : (~~~0x100#64).getLsbD 8 = false := by decide
  have h2 : (0x100#64).getLsbD 8 = true := by decide
  cases v <;> simp only [statusWithCfgValid, BitVec.getLsbD_or, BitVec.getLsbD_and, h1, Bool.and_false, h2,
    if_true, Bool.false_or, Bool.false_eq_true, if_false, BitVec.ofNat_eq_ofNat, BitVec.getLsbD_zero]

/-- Replacing CFG_VALID changes bit 8 only (R16). -/
theorem statusWithCfgValid_getLsbD (w : Word) (v : Bool) (b : Nat) (h : b ≠ 8) :
    (statusWithCfgValid w v).getLsbD b = w.getLsbD b := by
  have hm : ∀ c, c < 64 → c ≠ 8 → (~~~0x100#64).getLsbD c = true ∧ (0x100#64).getLsbD c = false := by decide
  by_cases hb : b < 64
  · obtain ⟨h1, h2⟩ := hm b hb h
    cases v <;> simp only [statusWithCfgValid, BitVec.getLsbD_or, BitVec.getLsbD_and, h1, h2, Bool.and_true,
      Bool.or_false, if_true, Bool.false_eq_true, if_false, BitVec.ofNat_eq_ofNat, BitVec.getLsbD_zero]
  · rw [BitVec.getLsbD_of_ge _ b (by omega), BitVec.getLsbD_of_ge _ b (by omega)]

/-- An ERRLOG bit after an error of code k (R18, R113). -/
theorem errlogWithBit_getLsbD (w : Word) (k b : Nat) (h : k < 64) :
    (errlogWithBit w k).getLsbD b = (w.getLsbD b || decide (b = k)) := by
  simp only [errlogWithBit, BitVec.getLsbD_or, BitVec.getLsbD_shiftLeft, BitVec.getLsbD_one]
  congr 1
  by_cases hb : b = k
  · subst hb; simp [h]
  · simp only [hb, decide_false]
    by_cases h1 : b < k
    · simp [h1]
    · have : b - k ≠ 0 := by omega
      simp [this]

/-- Every error code is between 1 and 6 (R111). -/
theorem errCode_range (e : Err) : 1 ≤ errCode e ∧ errCode e ≤ 6 := by cases e <;> decide

/-- `raise` in the words of the statements (R113). -/
theorem raise_eq_failed (e : Err) (s : State) : raise e s = failed (errCode e) s := by
  unfold raise failed errlogWithBit
  rw [statusWithErr_eq _ _ (by have := errCode_range e; omega)]

/-- `complete` in the words of the statements (R112). -/
theorem complete_eq (s : State) : complete s = { s with status := okStatus s } := by
  unfold complete okStatus
  rw [statusWithErr_eq _ _ (by decide)]
  simp

/-- `clearLayout` in the words of the statements (R33). -/
theorem clearLayout_eq (s : State) :
    clearLayout s = { s with
      status := s.status &&& ~~~0x100#64
      laneWidth := 0, lanePitch := 0, lanesPerWord := 0, valueMask := 0, guardMask := 0, wordCount := 0 } := by
  simp [clearLayout, statusWithCfgValid]

end Sys2Proof.Laws
end

