-- ==== Sys2Proof/Laws/Memory.lean ====
section
/-! SUPPORT. Read-after-write laws of the memory, byte-wise and word-wise, and that every write keeps the canonical
form. -/

namespace Sys2Proof.Laws

open Sys2Proof.Machine

theorem readByte_append_of_forall_ne (m m' : Memory) (a : Nat) (h : ∀ c ∈ m, c.1 ≠ a) :
    Memory.readByte (m ++ m') a = Memory.readByte m' a := by
  induction m with
  | nil => rfl
  | cons c m ih =>
    obtain ⟨k, b⟩ := c
    have hk : k ≠ a := h (k, b) (by simp)
    simp [Memory.readByte, hk, ih (fun c hc => h c (by simp [hc]))]

theorem readByte_of_forall_ne (m : Memory) (a : Nat) (h : ∀ c ∈ m, c.1 ≠ a) :
    Memory.readByte m a = unlistedByte := by
  simpa [Memory.readByte] using readByte_append_of_forall_ne m [] a h

/-- Taking out the entries of one address keeps every other byte. -/
theorem readByte_filter_ne (m : Memory) (a c : Nat) (h : c ≠ a) :
    Memory.readByte (m.filter fun d => decide (d.1 ≠ a)) c = Memory.readByte m c := by
  induction m with
  | nil => rfl
  | cons d m ih =>
    obtain ⟨k, b⟩ := d
    by_cases hk : k = a
    · have hac : a ≠ c := fun hac => h hac.symm
      subst hk
      simpa [Memory.readByte, hac] using ih
    · rw [List.filter_cons_of_pos (by simpa using hk)]
      simp only [Memory.readByte, ih]

/-- What a placed byte does to each byte, where it has no entry yet. -/
theorem readByte_placeByte (m : Memory) (a c : Nat) (b : Byte) (h : ∀ d ∈ m, d.1 ≠ a) :
    Memory.readByte (placeByte a b m) c = if c = a then b else Memory.readByte m c := by
  induction m with
  | nil =>
    by_cases hb : b = unlistedByte <;> by_cases hc : c = a <;> simp [placeByte, hb, Memory.readByte, hc]
    omega
  | cons d m ih =>
    obtain ⟨k, v⟩ := d
    have hk : k ≠ a := h (k, v) (by simp)
    have ih := ih fun d hd => h d (by simp [hd])
    rw [placeByte]
    split
    · by_cases hc : c = a
      · subst hc; simp [Memory.readByte, hk, ih]
      · simp [Memory.readByte, ih, hc]
    · by_cases hc : c = a
      · subst hc
        rw [if_pos rfl]
        split
        · next hb => rw [List.nil_append, readByte_of_forall_ne _ _ h, hb]
        · simp [Memory.readByte]
      · rw [if_neg hc]
        split
        · rfl
        · have : a ≠ c := fun e => hc e.symm
          simp [Memory.readByte, this]

/-- What storing a byte does to each byte. -/
theorem readByte_writeByte (m : Memory) (a c : Nat) (b : Byte) :
    (m.writeByte a b).readByte c = if c = a then b else m.readByte c := by
  rw [Memory.writeByte, readByte_placeByte _ _ _ _ (by simp)]
  split
  · rfl
  · next hc => exact readByte_filter_ne m a c hc

/-- A byte reads as it was last stored. -/
@[simp] theorem readByte_writeByte_same (m : Memory) (a : Nat) (b : Byte) :
    (m.writeByte a b).readByte a = b := by
  rw [readByte_writeByte, if_pos rfl]

/-- Every other byte is left alone. -/
@[simp] theorem readByte_writeByte_other (m : Memory) (a c : Nat) (b : Byte) (h : c ≠ a) :
    (m.writeByte a b).readByte c = m.readByte c := by
  rw [readByte_writeByte, if_neg h]

/-- The canonical form, entry by entry. -/
theorem wf_cons (c : Host.Cell) (m : Memory) :
    Memory.wf (c :: m) = true ↔ (∀ d ∈ m, c.1 < d.1) ∧ c.2 ≠ unlistedByte ∧ Memory.wf m = true := by
  simp [Memory.wf, and_assoc]

theorem wf_filter (m : Memory) (p : Host.Cell → Bool) (h : Memory.wf m = true) : Memory.wf (m.filter p) = true := by
  induction m with
  | nil => rfl
  | cons c m ih =>
    rw [wf_cons] at h
    by_cases hp : p c = true
    · rw [List.filter_cons_of_pos hp, wf_cons]
      exact ⟨fun d hd => h.1 d (List.mem_filter.1 hd).1, h.2.1, ih h.2.2⟩
    · rw [List.filter_cons_of_neg hp]
      exact ih h.2.2

/-- Every entry of a memory with a placed byte is that byte's or was there. -/
theorem mem_placeByte {m : Memory} {a : Nat} {b : Byte} {d : Host.Cell} (h : d ∈ placeByte a b m) :
    d = (a, b) ∨ d ∈ m := by
  induction m with
  | nil => simp only [placeByte] at h; split at h <;> simp_all
  | cons c m ih =>
    rw [placeByte] at h
    split at h
    · rcases List.mem_cons.1 h with h | h
      · simp [h]
      · rcases ih h with h | h <;> simp [h]
    · split at h <;> simp_all

/-- Placing a byte keeps the canonical form, where it has no entry yet. -/
theorem wf_placeByte (m : Memory) (a : Nat) (b : Byte) (hm : ∀ d ∈ m, d.1 ≠ a) (h : Memory.wf m = true) :
    Memory.wf (placeByte a b m) = true := by
  induction m with
  | nil =>
    rw [placeByte]
    split
    · rfl
    · next hb => simp [Memory.wf, hb]
  | cons c m ih =>
    obtain ⟨h1, h2, h3⟩ := (wf_cons c m).1 h
    have hc : c.1 ≠ a := hm c (by simp)
    rw [placeByte]
    split
    · next hlt =>
      rw [wf_cons]
      refine ⟨fun d hd => ?_, h2, ih (fun d hd => hm d (by simp [hd])) h3⟩
      rcases mem_placeByte hd with rfl | hd
      · exact hlt
      · exact h1 d hd
    · next hge =>
      split
      · exact h
      · next hb =>
        rw [List.singleton_append, wf_cons]
        refine ⟨fun d hd => ?_, hb, h⟩
        rcases List.mem_cons.1 hd with rfl | hd
        · show a < d.1; omega
        · have := h1 d hd; show a < d.1; omega

/-- Storing a byte keeps the canonical form. -/
theorem wf_writeByte (m : Memory) (a : Nat) (b : Byte) (h : Memory.wf m = true) :
    Memory.wf (m.writeByte a b) = true :=
  wf_placeByte _ _ _ (by simp) (wf_filter m _ h)

theorem wf_writeBytes (m : Memory) (a : Nat) (v : Word) (n : Nat) (h : Memory.wf m = true) :
    Memory.wf (m.writeBytes a v n) = true := by
  induction n with
  | zero => exact h
  | succ n ih => exact wf_writeByte _ _ _ ih

/-- Storing a word keeps the canonical form. -/
theorem wf_writeWord (m : Memory) (a : Nat) (v : Word) (h : Memory.wf m = true) :
    Memory.wf (m.writeWord a v) = true := wf_writeBytes m a v 8 h

/-- What storing the lowest n bytes of a word does to each byte. -/
theorem readByte_writeBytes (m : Memory) (a : Nat) (v : Word) (n c : Nat) :
    (m.writeBytes a v n).readByte c =
      if 8 * a ≤ c ∧ c < 8 * a + n then byteOf v (c - 8 * a) else m.readByte c := by
  induction n with
  | zero =>
    have : ¬ (8 * a ≤ c ∧ c < 8 * a + 0) := by omega
    rw [if_neg this]; rfl
  | succ n ih =>
    rw [Memory.writeBytes]
    by_cases hc : c = 8 * a + n
    · subst hc
      rw [readByte_writeByte_same, if_pos (by omega)]
      congr 1; omega
    · rw [readByte_writeByte_other _ _ _ _ hc, ih]
      exact if_congr (by omega) rfl rfl

/-- What storing a word does to each byte. -/
theorem readByte_writeWord (m : Memory) (a : Nat) (v : Word) (c : Nat) :
    (m.writeWord a v).readByte c = if c / 8 = a then byteOf v (c % 8) else m.readByte c := by
  rw [Memory.writeWord, readByte_writeBytes]
  by_cases h : c / 8 = a
  · rw [if_pos (by omega), if_pos h]
    congr 1; omega
  · rw [if_neg (by omega), if_neg h]

/-- A byte outside the stored word is left alone. -/
theorem readByte_writeWord_other (m : Memory) (a : Nat) (v : Word) (c : Nat) (h : c / 8 ≠ a) :
    (m.writeWord a v).readByte c = m.readByte c := by
  rw [readByte_writeWord, if_neg h]

/-- Bit i of a word is bit i mod 8 of its byte i / 8. -/
theorem readWord_getLsbD (m : Memory) (a i : Nat) (h : i < 64) :
    (m.readWord a).getLsbD i = (m.readByte (8 * a + i / 8)).getLsbD (i % 8) := by
  simp only [Memory.readWord, BitVec.getLsbD_append]
  have h8 : i / 8 < 8 := by omega
  generalize hq : i / 8 = q at h8 ⊢
  generalize hr : i % 8 = r
  have hi : i = 8 * q + r := by omega
  have hr8 : r < 8 := by omega
  subst hi
  rcases q with _ | _ | _ | _ | _ | _ | _ | _ | q
  · simp [hr8]
  all_goals first
    | omega
    | (repeat rw [if_neg (by omega)]
       try rw [if_pos (by omega)]
       congr 1; omega)

/-- Two words are equal when their bytes are. -/
theorem readWord_congr (m m' : Memory) (a a' : Nat)
    (h : ∀ j, j < 8 → m.readByte (8 * a + j) = m'.readByte (8 * a' + j)) : m.readWord a = m'.readWord a' := by
  apply BitVec.eq_of_getLsbD_eq
  intro i hi
  rw [readWord_getLsbD m a i hi, readWord_getLsbD m' a' i hi, h _ (by omega)]

/-- A word reads as it was last stored, bit for bit (R41). -/
@[simp] theorem readWord_writeWord_same (m : Memory) (a : Nat) (v : Word) : (m.writeWord a v).readWord a = v := by
  apply BitVec.eq_of_getLsbD_eq
  intro i hi
  rw [readWord_getLsbD _ _ _ hi, readByte_writeWord, if_pos (by omega)]
  have hj : (8 * a + i / 8) % 8 = i / 8 := by omega
  simp only [hj, byteOf, BitVec.getLsbD_extractLsb']
  have : 8 * (i / 8) + i % 8 = i := by omega
  simp [this, Nat.mod_lt]

/-- Every other word is left alone. -/
@[simp] theorem readWord_writeWord_other (m : Memory) (a c : Nat) (v : Word) (h : c ≠ a) :
    (m.writeWord a v).readWord c = m.readWord c :=
  readWord_congr _ _ _ _ fun j hj => readByte_writeWord_other m a v _ (by omega)

end Sys2Proof.Laws
end

