-- ==== Sys2Proof/Laws/Ops.lean ====
section
/-! SUPPORT. For each shared operation, what it can do: a later proof cites these and does not unfold the operation. -/

namespace Sys2Proof.Laws

open Sys2Proof.Machine

/-! Sequencing. -/

@[simp] theorem andThen_next {α β : Type} (x : α) (k : α → Host.Outcome β Fault Refusal) :
    andThen (.next x) k = k x := rfl

@[simp] theorem andThen_fault {α β : Type} (f : Fault) (k : α → Host.Outcome β Fault Refusal) :
    andThen (.fault f) k = .fault f := rfl

@[simp] theorem andThen_refused {α β : Type} (r : Refusal) (k : α → Host.Outcome β Fault Refusal) :
    andThen (.refused r) k = .refused r := rfl

/-- A sequence answers next exactly when both parts do. -/
theorem andThen_eq_next {α β : Type} {o : Host.Outcome α Fault Refusal} {k : α → Host.Outcome β Fault Refusal} {y : β} :
    andThen o k = .next y ↔ ∃ x, o = .next x ∧ k x = .next y := by
  cases o <;> simp [andThen]

/-! The memory port. -/

/-- An access has a meaning exactly below 2^ADDR_BITS and outside every hole (R42, R54). -/
theorem accessFault_eq_none {p : Params} {a : Nat} :
    accessFault p a = none ↔ a < 2 ^ p.addrBits ∧ ∀ h ∈ p.holes, ¬ (h.1 ≤ a ∧ a < h.1 + h.2) := by
  unfold accessFault backs
  by_cases h1 : 2 ^ p.addrBits ≤ a
  · simp [h1]
  · simp only [if_neg h1, Nat.not_le.1 h1, true_and]
    split
    · next h => simpa [Nat.not_le, imp_iff_not_or] using h
    · next h => simpa [Nat.not_le, imp_iff_not_or] using h

/-- What a read that has a meaning answers. -/
theorem memRead_of_backed {a : Nat} {s : State} (h : accessFault s.params a = none) :
    memRead a s = .next (s.mem.readWord a, s.logAccess (.read a)) := by
  simp [memRead, h]

/-- What a read can answer. -/
theorem memRead_eq_next {a : Nat} {s : State} {r : Word × State} :
    memRead a s = .next r ↔ accessFault s.params a = none ∧ r = (s.mem.readWord a, s.logAccess (.read a)) := by
  unfold memRead
  split
  · next h => simp [h]
  · next h => simp [h, eq_comm]

/-- What a write that has a meaning answers. -/
theorem memWrite_of_backed {a : Nat} {v : Word} {s : State} (h : accessFault s.params a = none) :
    memWrite a v s = .next ((s.withMem (s.mem.writeWord a v)).logAccess (.write a)) := by
  simp [memWrite, h]

/-- What a write can answer. -/
theorem memWrite_eq_next {a : Nat} {v : Word} {s t : State} :
    memWrite a v s = .next t ↔
      accessFault s.params a = none ∧ t = (s.withMem (s.mem.writeWord a v)).logAccess (.write a) := by
  unfold memWrite
  split
  · next h => simp [h]
  · next h => simp [h, eq_comm]

/-! The prologue. -/

/-- The prologue passes exactly when each of its checks does (R118). -/
theorem prologue_eq_none {useA useB useIdx : Bool} {s : State} :
    prologue useA useB useIdx s = none ↔
      statusCfgValid s.status = true ∧ (useA = true → s.aLen = s.wordCount) ∧ (useB = true → s.bLen = s.wordCount) ∧
        (useA = true → s.aBase.toNat + s.wordCount.toNat ≤ 2 ^ s.params.addrBits) ∧
        (useB = true → s.bBase.toNat + s.wordCount.toNat ≤ 2 ^ s.params.addrBits) ∧
        (useIdx = true → s.laneIdx.toNat < s.dim.toNat) := by
  unfold prologue beyondAddressSpace
  repeat' split
  all_goals (simp at *; try grind)

/-- A command other than LAYOUT ends in its prologue's error, or its work is done and it completes (R110). -/
theorem withPrologue_eq_next {useA useB useIdx : Bool} {s t : State}
    {work : State → Host.Outcome State Fault Refusal} :
    withPrologue useA useB useIdx s work = .next t ↔
      (∃ e, prologue useA useB useIdx s = some e ∧ t = raise e s) ∨
        (prologue useA useB useIdx s = none ∧ ∃ u, work s = .next u ∧ t = complete u) := by
  unfold withPrologue
  split
  · next e h => simp [h, eq_comm]
  · next h =>
    simp only [h, andThen_eq_next, Host.Outcome.next.injEq, reduceCtorEq, false_and, exists_false, false_or, true_and]
    exact exists_congr fun u => and_congr_right fun _ => eq_comm

/-! The word loop. -/

/-- A relation that holds across every pass holds across the loop. -/
theorem forWords_relates {α : Type} {body : Nat → α → Host.Outcome α Fault Refusal} (R : α → α → Prop)
    (refl : ∀ x, R x x) (trans : ∀ x y z, R x y → R y z → R x z) :
    ∀ (count lo : Nat) (x y : α), (∀ i x y, lo ≤ i → i < lo + count → body i x = .next y → R x y) →
      forWords body count lo x = .next y → R x y := by
  intro count
  induction count with
  | zero =>
    intro lo x y _ h
    simp only [forWords, Host.Outcome.next.injEq] at h
    exact h ▸ refl x
  | succ n ih =>
    intro lo x y hb h
    obtain ⟨z, hz, h⟩ := andThen_eq_next.1 h
    exact trans _ _ _ (hb lo x z (Nat.le_refl _) (by omega) hz)
      (ih (lo + 1) z y (fun i x y h1 h2 => hb i x y (by omega) (by omega)) h)

/-- A loop whose passes, where they answer, answer as g does, is the fold of g. -/
theorem forWords_eq_foldl_of_next {α : Type} {body : Nat → α → Host.Outcome α Fault Refusal} (g : Nat → α → α)
    (hg : ∀ i x y, body i x = .next y → y = g i x) :
    ∀ (count lo : Nat) (x y : α), forWords body count lo x = .next y →
      y = (List.range' lo count).foldl (fun z i => g i z) x := by
  intro count
  induction count with
  | zero =>
    intro lo x y h
    simp only [forWords, Host.Outcome.next.injEq] at h
    simpa using h.symm
  | succ n ih =>
    intro lo x y h
    obtain ⟨z, hz, h⟩ := andThen_eq_next.1 h
    rw [List.range'_succ, List.foldl_cons, ← hg lo x z hz]
    exact ih (lo + 1) z y h

/-- A loop whose passes all answer, as g does, answers the fold of g. -/
theorem forWords_next {α : Type} {body : Nat → α → Host.Outcome α Fault Refusal} (g : Nat → α → α) (inv : α → Prop) :
    ∀ (count lo : Nat) (x : α), (∀ i y, lo ≤ i → i < lo + count → inv y → body i y = .next (g i y) ∧ inv (g i y)) →
      inv x → forWords body count lo x = .next ((List.range' lo count).foldl (fun z i => g i z) x) := by
  intro count
  induction count with
  | zero => intro lo x _ _; rfl
  | succ n ih =>
    intro lo x hb hx
    obtain ⟨h1, h2⟩ := hb lo x (Nat.le_refl _) (by omega) hx
    rw [forWords, h1, andThen_next, List.range'_succ, List.foldl_cons]
    exact ih (lo + 1) _ (fun i y h3 h4 => hb i y (by omega) (by omega)) h2

/-! The four loops, pass by pass. -/

/-- One pass of the copy loop (R46). -/
theorem copyPass_eq_next {a b : Nat} {t u : State} :
    (andThen (memRead a t) fun r => memWrite b r.1 r.2) = .next u ↔
      accessFault t.params a = none ∧ accessFault t.params b = none ∧
        u = ((t.logAccess (.read a)).withMem (t.mem.writeWord b (t.mem.readWord a))).logAccess (.write b) := by
  simp only [andThen_eq_next, memRead_eq_next, memWrite_eq_next]
  constructor
  · rintro ⟨r, ⟨h1, rfl⟩, h2, rfl⟩; exact ⟨h1, h2, rfl⟩
  · rintro ⟨h1, h2, rfl⟩; exact ⟨_, ⟨h1, rfl⟩, h2, rfl⟩

/-- One pass of the loop of SMUL (R46). -/
theorem mapPass_eq_next {f : Word → Word} {a : Nat} {t u : State} :
    (andThen (memRead a t) fun r => memWrite a (f r.1) r.2) = .next u ↔
      accessFault t.params a = none ∧
        u = ((t.logAccess (.read a)).withMem (t.mem.writeWord a (f (t.mem.readWord a)))).logAccess (.write a) := by
  simp only [andThen_eq_next, memRead_eq_next, memWrite_eq_next]
  constructor
  · rintro ⟨r, ⟨h1, rfl⟩, h2, rfl⟩; exact ⟨h1, rfl⟩
  · rintro ⟨h1, rfl⟩; exact ⟨_, ⟨h1, rfl⟩, h1, rfl⟩

/-- One pass of the loop of ADD (R46). -/
theorem mapABPass_eq_next {f : Word → Word → Word} {a b : Nat} {t u : State} :
    (andThen (memRead a t) fun ra => andThen (memRead b ra.2) fun rb => memWrite a (f ra.1 rb.1) rb.2) = .next u ↔
      accessFault t.params a = none ∧ accessFault t.params b = none ∧
        u = (((t.logAccess (.read a)).logAccess (.read b)).withMem
          (t.mem.writeWord a (f (t.mem.readWord a) (t.mem.readWord b)))).logAccess (.write a) := by
  simp only [andThen_eq_next, memRead_eq_next, memWrite_eq_next]
  constructor
  · rintro ⟨r, ⟨h1, rfl⟩, r', ⟨h2, rfl⟩, h3, rfl⟩; exact ⟨h1, h2, rfl⟩
  · rintro ⟨h1, h2, rfl⟩; exact ⟨_, ⟨h1, rfl⟩, _, ⟨h2, rfl⟩, h1, rfl⟩

/-- One pass of the comparison loop (R46). -/
theorem comparePass_eq_next {differ : Word → Word → Word} {a b : Nat} {x y : Word × State} :
    (andThen (memRead a x.2) fun ra => andThen (memRead b ra.2) fun rb =>
      (Host.Outcome.next (x.1 ||| differ ra.1 rb.1, rb.2) : Host.Outcome (Word × State) Fault Refusal)) = .next y ↔
      accessFault x.2.params a = none ∧ accessFault x.2.params b = none ∧
        y = (x.1 ||| differ (x.2.mem.readWord a) (x.2.mem.readWord b),
          (x.2.logAccess (.read a)).logAccess (.read b)) := by
  simp only [andThen_eq_next, memRead_eq_next, Host.Outcome.next.injEq]
  constructor
  · rintro ⟨r, ⟨h1, rfl⟩, r', ⟨h2, rfl⟩, rfl⟩; exact ⟨h1, h2, rfl⟩
  · rintro ⟨h1, h2, rfl⟩; exact ⟨_, ⟨h1, rfl⟩, _, ⟨h2, rfl⟩, rfl⟩

/-- The second state is the first but for the memory and the port's history. -/
def OnlyMemAndPort (s t : State) : Prop := t = { s with mem := t.mem, port := t.port }

theorem OnlyMemAndPort.trans {s t u : State} (h1 : OnlyMemAndPort s t) (h2 : OnlyMemAndPort t u) :
    OnlyMemAndPort s u := by
  unfold OnlyMemAndPort at *
  rw [h2, h1]

/-- All the copy loop can change: the memory and the port's history. -/
theorem copyBuffer_only {s t : State} (h : copyBuffer s = .next t) :
    OnlyMemAndPort s t := by
  unfold copyBuffer at h
  refine forWords_relates OnlyMemAndPort (fun _ => rfl) (fun x y z h1 h2 => h1.trans h2) _ _ _ _ (fun i x y _ _ h => ?_) h
  obtain ⟨-, -, rfl⟩ := copyPass_eq_next.1 h
  simp [OnlyMemAndPort, State.logAccess, State.withMem]

/-- All the loop of SMUL can change: the memory and the port's history. -/
theorem mapBufferA_only {f : Word → Word} {s t : State} (h : mapBufferA f s = .next t) :
    OnlyMemAndPort s t := by
  unfold mapBufferA at h
  refine forWords_relates OnlyMemAndPort (fun _ => rfl) (fun x y z h1 h2 => h1.trans h2) _ _ _ _ (fun i x y _ _ h => ?_) h
  obtain ⟨-, rfl⟩ := mapPass_eq_next.1 h
  simp [OnlyMemAndPort, State.logAccess, State.withMem]

/-- All the loop of ADD can change: the memory and the port's history. -/
theorem mapBuffersAB_only {f : Word → Word → Word} {s t : State} (h : mapBuffersAB f s = .next t) :
    OnlyMemAndPort s t := by
  unfold mapBuffersAB at h
  refine forWords_relates OnlyMemAndPort (fun _ => rfl) (fun x y z h1 h2 => h1.trans h2) _ _ _ _ (fun i x y _ _ h => ?_) h
  obtain ⟨-, -, rfl⟩ := mapABPass_eq_next.1 h
  simp [OnlyMemAndPort, State.logAccess, State.withMem]

/-- All a comparison can change: RESULT, which takes one of its two verdicts, and the port's history. -/
theorem compareBuffers_only {differ : Word → Word → Word} {s t : State} (h : compareBuffers differ s = .next t) :
    t = { s with result := t.result, port := t.port } ∧
      (t.result = verdictCode .equal ∨ t.result = verdictCode .notEqual) := by
  obtain ⟨x, hx, h⟩ := andThen_eq_next.1 h
  have hs : x.2 = { s with port := x.2.port } := by
    refine forWords_relates (fun x y : Word × State => y.2 = { x.2 with port := y.2.port }) (fun _ => rfl)
      (fun x y z h1 h2 => ?_) _ _ _ _ (fun i x y _ _ h => ?_) hx
    · rw [h2, h1]
    · obtain ⟨-, -, rfl⟩ := comparePass_eq_next.1 h; rfl
  simp only [Host.Outcome.next.injEq] at h
  subst h
  refine ⟨?_, ?_⟩
  · rw [setResult, hs]
  · simp only [setResult, verdictOf]
    split <;> simp

/-! The host's register accesses. -/

/-- A host register write that runs no command changes nothing but one writable register, the layout that a write of
MODULUS or DIM invalidates, and ERRLOG bits that it clears (R31, R33). -/
theorem writeReg_keeps (r : Reg) (v : Word) (s : State) :
    (writeReg r v s).result = s.result ∧ (writeReg r v s).mem = s.mem ∧ (writeReg r v s).params = s.params ∧
      (writeReg r v s).script = s.script ∧ (writeReg r v s).replies = s.replies ∧ (writeReg r v s).port = s.port := by
  cases r <;> exact ⟨rfl, rfl, rfl, rfl, rfl, rfl⟩

/-- What one action of the host can do, command by command and access by access (R31, R36, R41, R130). -/
theorem hostAction_eq_next {x : HostAction} {s t : State} (h : hostAction x s = .next t) :
    (∃ v i, x = .write 0 v ∧ decode v = .ok i ∧ exec i s = .next t) ∨
      (∃ v e, x = .write 0 v ∧ decode v = .error e ∧ t = raise .illegal s) ∨
      (∃ num r v, x = .write num v ∧ regOfNum num = some r ∧ r ≠ .cmd ∧ t = writeReg r v s) ∨
      (∃ num v, x = .write num v ∧ regOfNum num = none ∧ t = s) ∨
      (∃ num, x = .read num ∧ t = s.reply (hostReadReg num s)) ∨
      (∃ a v, x = .store a v ∧ accessFault s.params a = none ∧ t = s.withMem (s.mem.writeWord a v)) ∨
      (∃ a, x = .load a ∧ accessFault s.params a = none ∧ t = s.reply (s.mem.readWord a)) ∨
      (∃ a v, x = .storeByte a v ∧ accessFault s.params (a / 8) = none ∧ t = s.withMem (s.mem.writeByte a v)) ∨
      (∃ a, x = .loadByte a ∧ accessFault s.params (a / 8) = none ∧
        t = s.reply ((s.mem.readByte a).setWidth 64)) ∨
      (x = .reset ∧ t = resetEvent s) := by
  cases x with
  | write num v =>
    simp only [hostAction, hostWriteReg] at h
    split at h
    · next hn => simp_all
    · next hn =>
      have h0 : num = 0 := by
        unfold regOfNum at hn
        split at hn <;> simp_all
      subst h0
      simp only [issueCommand] at h
      split at h <;> simp_all
    · next r hr hn =>
      right; right; left
      exact ⟨num, r, v, rfl, hn, hr, by simpa using h.symm⟩
  | read num => simp_all [hostAction]
  | store a v =>
    simp only [hostAction, hostStore] at h
    split at h <;> simp_all
  | load a =>
    simp only [hostAction, hostLoad] at h
    split at h <;> simp_all
  | storeByte a v =>
    simp only [hostAction, hostStoreByte] at h
    split at h <;> simp_all
  | loadByte a =>
    simp only [hostAction, hostLoadByte] at h
    split at h <;> simp_all
  | reset => simp_all [hostAction]

end Sys2Proof.Laws
end

