-- ==== Sys2Proof/Laws/Loops.lean ====
section
/-! SUPPORT. What each of the four word loops computes (memory, accesses, verdict) and when it answers. -/

namespace Sys2Proof.Laws

open Sys2Proof.Machine

/-- The memory and the accesses of a loop whose passes rewrite the memory by g and make the accesses acc. -/
theorem forWords_mem_port {body : Nat → State → Host.Outcome State Fault Refusal} (g : Nat → Memory → Memory)
    (acc : Nat → List Access)
    (hp : ∀ i x y, body i x = .next y → y.mem = g i x.mem ∧ y.port = x.port ++ acc i) :
    ∀ (count lo : Nat) (s t : State), forWords body count lo s = .next t →
      t.mem = (List.range' lo count).foldl (fun m i => g i m) s.mem ∧
        t.port = s.port ++ (List.range' lo count).flatMap acc := by
  intro count
  induction count with
  | zero =>
    intro lo s t h
    simp only [forWords, Host.Outcome.next.injEq] at h
    subst h; simp
  | succ n ih =>
    intro lo s t h
    obtain ⟨z, hz, h⟩ := andThen_eq_next.1 h
    obtain ⟨hm, hq⟩ := hp lo s z hz
    obtain ⟨h1, h2⟩ := ih (lo + 1) z t h
    rw [List.range'_succ, List.foldl_cons, List.flatMap_cons, ← hm, ← List.append_assoc, ← hq]
    exact ⟨h1, h2⟩

/-- What COPY's loop computes (R46, R49, R82). -/
theorem copyBuffer_computes {s t : State} (h : copyBuffer s = .next t) :
    t.mem = (List.range s.wordCount.toNat).foldl
        (fun m i => m.writeWord (s.bBase.toNat + i) (m.readWord (s.aBase.toNat + i))) s.mem ∧
      t.port = s.port ++ (List.range s.wordCount.toNat).flatMap
        (fun i => [.read (s.aBase.toNat + i), .write (s.bBase.toNat + i)]) := by
  unfold copyBuffer at h
  rw [List.range_eq_range']
  refine forWords_mem_port (fun i m => m.writeWord (s.bBase.toNat + i) (m.readWord (s.aBase.toNat + i))) _
    (fun i x y h => ?_) _ _ _ _ h
  obtain ⟨-, -, rfl⟩ := copyPass_eq_next.1 h
  simp

/-- What SMUL's loop computes (R46, R105). -/
theorem mapBufferA_computes {f : Word → Word} {s t : State} (h : mapBufferA f s = .next t) :
    t.mem = (List.range s.wordCount.toNat).foldl
        (fun m i => m.writeWord (s.aBase.toNat + i) (f (m.readWord (s.aBase.toNat + i)))) s.mem ∧
      t.port = s.port ++ (List.range s.wordCount.toNat).flatMap
        (fun i => [.read (s.aBase.toNat + i), .write (s.aBase.toNat + i)]) := by
  unfold mapBufferA at h
  rw [List.range_eq_range']
  refine forWords_mem_port (fun i m => m.writeWord (s.aBase.toNat + i) (f (m.readWord (s.aBase.toNat + i)))) _
    (fun i x y h => ?_) _ _ _ _ h
  obtain ⟨-, rfl⟩ := mapPass_eq_next.1 h
  simp

/-- What ADD's loop computes (R46, R100). -/
theorem mapBuffersAB_computes {f : Word → Word → Word} {s t : State} (h : mapBuffersAB f s = .next t) :
    t.mem = (List.range s.wordCount.toNat).foldl
        (fun m i => m.writeWord (s.aBase.toNat + i)
          (f (m.readWord (s.aBase.toNat + i)) (m.readWord (s.bBase.toNat + i)))) s.mem ∧
      t.port = s.port ++ (List.range s.wordCount.toNat).flatMap
        (fun i => [.read (s.aBase.toNat + i), .read (s.bBase.toNat + i), .write (s.aBase.toNat + i)]) := by
  unfold mapBuffersAB at h
  rw [List.range_eq_range']
  refine forWords_mem_port (fun i m => m.writeWord (s.aBase.toNat + i)
    (f (m.readWord (s.aBase.toNat + i)) (m.readWord (s.bBase.toNat + i)))) _ (fun i x y h => ?_) _ _ _ _ h
  obtain ⟨-, -, rfl⟩ := mapABPass_eq_next.1 h
  simp

/-- What a comparison computes: the verdict of the differences of all words, and two reads a word (R46, R91). -/
theorem compareBuffers_computes {differ : Word → Word → Word} {s t : State} (h : compareBuffers differ s = .next t) :
    t.result = verdictCode (verdictOf ((List.range s.wordCount.toNat).foldl
        (fun d i => d ||| differ (s.mem.readWord (s.aBase.toNat + i)) (s.mem.readWord (s.bBase.toNat + i))) 0)) ∧
      t.port = s.port ++ (List.range s.wordCount.toNat).flatMap
        (fun i => [.read (s.aBase.toNat + i), .read (s.bBase.toNat + i)]) := by
  obtain ⟨x, hx, h⟩ := andThen_eq_next.1 h
  simp only [Host.Outcome.next.injEq] at h
  subst h
  rw [List.range_eq_range']
  suffices key : ∀ (count lo : Nat) (y z : Word × State), y.2.mem = s.mem →
      forWords (fun i (x : Word × State) => andThen (memRead (s.aBase.toNat + i) x.2) fun ra =>
        andThen (memRead (s.bBase.toNat + i) ra.2) fun rb => .next (x.1 ||| differ ra.1 rb.1, rb.2)) count lo y
        = .next z →
      z.1 = (List.range' lo count).foldl (fun d i =>
          d ||| differ (s.mem.readWord (s.aBase.toNat + i)) (s.mem.readWord (s.bBase.toNat + i))) y.1 ∧
        z.2.port = y.2.port ++ (List.range' lo count).flatMap
          (fun i => [.read (s.aBase.toNat + i), .read (s.bBase.toNat + i)]) by
    obtain ⟨h1, h2⟩ := key _ _ _ _ rfl hx
    simp only [setResult_result, setResult_port, h1, h2, and_self]
  intro count
  induction count with
  | zero =>
    intro lo y z _ h
    simp only [forWords, Host.Outcome.next.injEq] at h
    subst h; simp
  | succ n ih =>
    intro lo y z hm h
    obtain ⟨w, hw, h⟩ := andThen_eq_next.1 h
    obtain ⟨-, -, rfl⟩ := comparePass_eq_next.1 hw
    obtain ⟨h1, h2⟩ := ih (lo + 1) _ z (by simpa using hm) h
    rw [List.range'_succ, List.foldl_cons, List.flatMap_cons, h1, h2]
    simp [hm]

/-- The copy loop answers when every access has a meaning. -/
theorem copyBuffer_answers {s : State}
    (h : ∀ i, i < s.wordCount.toNat → accessFault s.params (s.aBase.toNat + i) = none ∧
      accessFault s.params (s.bBase.toNat + i) = none) : ∃ t, copyBuffer s = .next t := by
  refine ⟨_, forWords_next (fun i t => ((t.logAccess (.read (s.aBase.toNat + i))).withMem
    (t.mem.writeWord (s.bBase.toNat + i) (t.mem.readWord (s.aBase.toNat + i)))).logAccess
      (.write (s.bBase.toNat + i))) (fun t => t.params = s.params) _ _ _ (fun i y _ hi hy => ?_) rfl⟩
  obtain ⟨ha, hb⟩ := h i (by omega)
  exact ⟨copyPass_eq_next.2 ⟨by rw [hy]; exact ha, by rw [hy]; exact hb, by simp only⟩, by simpa using hy⟩

/-- The loop of SMUL answers when every access has a meaning. -/
theorem mapBufferA_answers {f : Word → Word} {s : State}
    (h : ∀ i, i < s.wordCount.toNat → accessFault s.params (s.aBase.toNat + i) = none) :
    ∃ t, mapBufferA f s = .next t := by
  refine ⟨_, forWords_next (fun i t => ((t.logAccess (.read (s.aBase.toNat + i))).withMem
    (t.mem.writeWord (s.aBase.toNat + i) (f (t.mem.readWord (s.aBase.toNat + i))))).logAccess
      (.write (s.aBase.toNat + i))) (fun t => t.params = s.params) _ _ _ (fun i y _ hi hy => ?_) rfl⟩
  exact ⟨mapPass_eq_next.2 ⟨by rw [hy]; exact h i (by omega), by simp only⟩, by simpa using hy⟩

/-- The loop of ADD answers when every access has a meaning. -/
theorem mapBuffersAB_answers {f : Word → Word → Word} {s : State}
    (h : ∀ i, i < s.wordCount.toNat → accessFault s.params (s.aBase.toNat + i) = none ∧
      accessFault s.params (s.bBase.toNat + i) = none) : ∃ t, mapBuffersAB f s = .next t := by
  refine ⟨_, forWords_next (fun i t => (((t.logAccess (.read (s.aBase.toNat + i))).logAccess
    (.read (s.bBase.toNat + i))).withMem (t.mem.writeWord (s.aBase.toNat + i)
      (f (t.mem.readWord (s.aBase.toNat + i)) (t.mem.readWord (s.bBase.toNat + i))))).logAccess
      (.write (s.aBase.toNat + i))) (fun t => t.params = s.params) _ _ _ (fun i y _ hi hy => ?_) rfl⟩
  obtain ⟨ha, hb⟩ := h i (by omega)
  exact ⟨mapABPass_eq_next.2 ⟨by rw [hy]; exact ha, by rw [hy]; exact hb, by simp only⟩, by simpa using hy⟩

/-- A comparison answers when every access has a meaning. -/
theorem compareBuffers_answers {differ : Word → Word → Word} {s : State}
    (h : ∀ i, i < s.wordCount.toNat → accessFault s.params (s.aBase.toNat + i) = none ∧
      accessFault s.params (s.bBase.toNat + i) = none) : ∃ t, compareBuffers differ s = .next t := by
  refine ⟨_, andThen_eq_next.2 ⟨_, forWords_next (fun i x =>
    (x.1 ||| differ (x.2.mem.readWord (s.aBase.toNat + i)) (x.2.mem.readWord (s.bBase.toNat + i)),
      (x.2.logAccess (.read (s.aBase.toNat + i))).logAccess (.read (s.bBase.toNat + i))))
    (fun x => x.2.params = s.params) _ _ _ (fun i y _ hi hy => ?_) rfl, rfl⟩⟩
  obtain ⟨ha, hb⟩ := h i (by omega)
  exact ⟨comparePass_eq_next.2 ⟨hy ▸ ha, hy ▸ hb, rfl⟩, hy⟩

end Sys2Proof.Laws
end

