-- ==== Sys2Proof/Laws/Inversion.lean ====
section
/-! SUPPORT. Everything a command or a step can do, said once: a proof about every command takes these cases apart
instead of unfolding exec or step. Then the memory after a loop that rewrites words in ascending order. -/

namespace Sys2Proof.Laws

open Sys2Proof.Machine Sys2Proof.Safety

/-- The codes a command other than LAYOUT can end in (R118). -/
theorem prologue_code {useA useB useIdx : Bool} {s : State} {e : Err} (h : prologue useA useB useIdx s = some e) :
    errCode e ∈ [2, 3, 5, 6] ∧ (useIdx = false → errCode e ∈ [2, 5, 6]) := by
  unfold prologue at h
  repeat' split at h
  all_goals first
    | cases h; done
    | (cases h; simp_all [errCode])

/-- The prologue of a command passes exactly when the command's checks do (R118). -/
theorem prologue_eq_none_iff_checksPass (i : Instr) (s : State) (hi : i ≠ .layout) :
    prologue (usesA i) (usesB i) (usesIdx i) s = none ↔ ChecksPass i s := by
  rw [prologue_eq_none]
  unfold ChecksPass LengthBad AddressBad IndexBad statusCfgValid
  rw [if_neg hi]
  constructor
  · rintro ⟨h1, h2, h3, h4, h5, h6⟩
    refine ⟨h1, ?_, ?_, ?_⟩
    · rintro (⟨a, b⟩ | ⟨a, b⟩)
      exacts [b (h2 a), b (h3 a)]
    · rintro (⟨a, b⟩ | ⟨a, b⟩)
      exacts [absurd b (Nat.not_lt.2 (h4 a)), absurd b (Nat.not_lt.2 (h5 a))]
    · rintro ⟨a, b⟩
      exact absurd (h6 a) (Nat.not_lt.2 b)
  · rintro ⟨h1, h2, h3, h4⟩
    refine ⟨h1, fun a => ?_, fun a => ?_, fun a => ?_, fun a => ?_, fun a => ?_⟩
    · by_contra h; exact h2 (.inl ⟨a, h⟩)
    · by_contra h; exact h2 (.inr ⟨a, h⟩)
    · by_contra h; exact h3 (.inl ⟨a, Nat.not_le.1 h⟩)
    · by_contra h; exact h3 (.inr ⟨a, Nat.not_le.1 h⟩)
    · by_contra h; exact h4 ⟨a, Nat.not_lt.1 h⟩

/-- With every check passed a command is its own work and `complete()`. -/
theorem withPrologue_of_none {useA useB useIdx : Bool} {s : State}
    {work : State → Host.Outcome State Fault Refusal} (h : prologue useA useB useIdx s = none) :
    withPrologue useA useB useIdx s work = andThen (work s) fun t => .next (complete t) := by
  rw [withPrologue, h]

/-- What LAYOUT can do (R70). -/
theorem exec_layout_cases {s t : State} (h : exec .layout s = .next t) :
    (laneWidthOf s.modulus.toNat = none ∧ t = raise .config (clearLayout s)) ∨
      ∃ l, laneWidthOf s.modulus.toNat = some l ∧ t = complete (installLayout (deriveLayout l) s) := by
  rw [exec_layout] at h
  split at h
  · next hn => exact .inl ⟨hn, by simpa using h.symm⟩
  · next l hl => exact .inr ⟨l, hl, by simpa using h.symm⟩

/-- What the work of a command can change, beside the port's history (R61). -/
def WorkOnly (i : Instr) (s u : State) : Prop :=
  (OnlyMemAndPort s u ∧ (i = .copy ∨ i = .add ∨ (∃ f, i = .smul f) ∨ i = .lset)) ∨
    (u = { s with result := u.result, port := u.port } ∧ (i = .cmpeq ∨ ∃ q, i = .cmpeqq q) ∧
      (u.result = 0 ∨ u.result = 1 ∨ (u.result = 2 ∧ i ≠ .cmpeq))) ∨
    (u = { s with laneData := u.laneData, port := u.port } ∧ i = .lget)

/-- A comparison's work, in the words of WorkOnly. -/
theorem compareBuffers_workOnly {differ : Word → Word → Word} {s u : State} {i : Instr}
    (hi : i = .cmpeq ∨ ∃ q, i = .cmpeqq q) (hu : compareBuffers differ s = .next u) : WorkOnly i s u := by
  obtain ⟨h1, h2⟩ := compareBuffers_only hu
  refine .inr (.inl ⟨h1, hi, ?_⟩)
  rcases h2 with h | h <;> rw [h] <;> simp [verdictCode]

/-- What a command other than LAYOUT can do: it ends in the first error of its prologue, or its work is done, with
the accesses that R46 lists, and it completes. -/
theorem exec_cases {i : Instr} {s t : State} (h : exec i s = .next t) (hi : i ≠ .layout) :
    (∃ e, prologue (usesA i) (usesB i) (usesIdx i) s = some e ∧ t = raise e s) ∨
      (prologue (usesA i) (usesB i) (usesIdx i) s = none ∧
        ∃ u, t = complete u ∧ u.port = s.port ++ accesses i s ∧ WorkOnly i s u) := by
  cases i with
  | layout => exact absurd rfl hi
  | copy =>
    rw [exec_copy] at h
    rcases withPrologue_eq_next.1 h with h | ⟨hp, u, hu, rfl⟩
    · exact .inl h
    · exact .inr ⟨hp, u, rfl, (copyBuffer_computes hu).2, .inl ⟨copyBuffer_only hu, by simp⟩⟩
  | add =>
    rw [exec_add] at h
    rcases withPrologue_eq_next.1 h with h | ⟨hp, u, hu, rfl⟩
    · exact .inl h
    · exact .inr ⟨hp, u, rfl, (mapBuffersAB_computes hu).2, .inl ⟨mapBuffersAB_only hu, by simp⟩⟩
  | smul f =>
    rw [exec_smul] at h
    rcases withPrologue_eq_next.1 h with h | ⟨hp, u, hu, rfl⟩
    · exact .inl h
    · exact .inr ⟨hp, u, rfl, (mapBufferA_computes hu).2, .inl ⟨mapBufferA_only hu, by simp⟩⟩
  | cmpeq =>
    rw [exec_cmpeq] at h
    rcases withPrologue_eq_next.1 h with h | ⟨hp, u, hu, rfl⟩
    · exact .inl h
    · exact .inr ⟨hp, u, rfl, (compareBuffers_computes hu).2, compareBuffers_workOnly (.inl rfl) hu⟩
  | cmpeqq q =>
    rw [exec_cmpeqq] at h
    rcases withPrologue_eq_next.1 h with h | ⟨hp, u, hu, rfl⟩
    · exact .inl h
    refine .inr ⟨hp, u, rfl, ?_⟩
    simp only [accesses, ne_eq]
    split at hu
    · next hq =>
      simp only [hq, not_true_eq_false, false_and, if_false]
      exact ⟨(compareBuffers_computes hu).2, compareBuffers_workOnly (.inr ⟨_, rfl⟩) hu⟩
    · next hq =>
      split at hu
      · next h1 =>
        simp only [Host.Outcome.next.injEq] at hu
        subst hu
        rw [if_pos ⟨hq, .inl h1⟩]
        exact ⟨(List.append_nil _).symm, .inr (.inl ⟨rfl, .inr ⟨_, rfl⟩, .inl rfl⟩)⟩
      · next h1 =>
        split at hu
        · next h2 =>
          simp only [Host.Outcome.next.injEq] at hu
          subst hu
          have hd : ¬ q ∣ s.modulus.toNat := by
            rintro ⟨c, hc⟩
            rcases h2 with h2 | h2
            · subst h2; exact hq (by simpa using hc.symm)
            · exact h2 (by rw [hc]; simp)
          rw [if_pos ⟨hq, .inr hd⟩]
          exact ⟨(List.append_nil _).symm, .inr (.inl ⟨rfl, .inr ⟨_, rfl⟩, .inr (.inr ⟨rfl, by simp⟩)⟩)⟩
        · next h2 =>
          have hd : q ∣ s.modulus.toNat := by
            by_contra hd; exact h2 (.inr fun h => hd (Nat.dvd_of_mod_eq_zero h))
          rw [if_neg (by simp [h1, hd])]
          exact ⟨(compareBuffers_computes hu).2, compareBuffers_workOnly (.inr ⟨_, rfl⟩) hu⟩
  | lget =>
    rw [exec_lget] at h
    rcases withPrologue_eq_next.1 h with h | ⟨hp, u, hu, rfl⟩
    · exact .inl h
    · obtain ⟨r, hr, hu⟩ := andThen_eq_next.1 hu
      obtain ⟨-, rfl⟩ := memRead_eq_next.1 hr
      simp only [Host.Outcome.next.injEq] at hu
      subst hu
      exact .inr ⟨hp, _, rfl, rfl, .inr (.inr ⟨rfl, rfl⟩)⟩
  | lset =>
    rw [exec_lset] at h
    rcases withPrologue_eq_next.1 h with h | ⟨hp, u, hu, rfl⟩
    · exact .inl h
    · obtain ⟨r, hr, hu⟩ := andThen_eq_next.1 hu
      obtain ⟨-, rfl⟩ := memRead_eq_next.1 hr
      obtain ⟨-, rfl⟩ := memWrite_eq_next.1 hu
      refine .inr ⟨hp, _, rfl, ?_, .inl ⟨?_, by simp⟩⟩
      · simp [accesses, laneWordAddr, laneAddr]
      · simp [OnlyMemAndPort, State.logAccess, State.withMem]

/-- What a step can do: stay idle, or take the host's next action (R139). -/
theorem step_cases {s t : State} (h : step s = .next t) :
    (s.script = [] ∧ t = s) ∨ ∃ x rest, s.script = x :: rest ∧ hostAction x (s.withScript rest) = .next t := by
  unfold step takeAction at h
  split at h
  · next hs => exact .inl ⟨hs, by simpa using h.symm⟩
  · next x rest hs => exact .inr ⟨x, rest, hs, h⟩

/-! The memory after a loop that rewrites `count` words from word `base` upward, word i by g i of the memory so far. -/

/-- The memory of such a loop. -/
def rewriteWords (g : Nat → Memory → Word) (base count : Nat) (m : Memory) : Memory :=
  (List.range count).foldl (fun m i => m.writeWord (base + i) (g i m)) m

theorem rewriteWords_succ (g : Nat → Memory → Word) (base count : Nat) (m : Memory) :
    rewriteWords g base (count + 1) m =
      (rewriteWords g base count m).writeWord (base + count) (g count (rewriteWords g base count m)) := by
  simp only [rewriteWords, List.range_succ, List.foldl_append, List.foldl_cons, List.foldl_nil]

/-- A byte outside the words rewritten reads as before. -/
theorem readByte_rewriteWords (g : Nat → Memory → Word) (base : Nat) :
    ∀ (count : Nat) (m : Memory) (b : Nat), (∀ k, k < count → b / 8 ≠ base + k) →
      (rewriteWords g base count m).readByte b = m.readByte b := by
  intro count
  induction count with
  | zero => intros; rfl
  | succ n ih =>
    intro m b hb
    rw [rewriteWords_succ, readByte_writeWord_other _ _ _ _ (hb n (by omega)), ih m b fun k hk => hb k (by omega)]

/-- A word that is not rewritten reads as before. -/
theorem readWord_rewriteWords_other (g : Nat → Memory → Word) (base count : Nat) (m : Memory) (a : Nat)
    (h : ∀ k, k < count → a ≠ base + k) : (rewriteWords g base count m).readWord a = m.readWord a :=
  readWord_congr _ _ _ _ fun j hj => readByte_rewriteWords g base count m _ fun k hk => by
    have := h k hk
    omega

/-- A word that is rewritten reads as it was computed, from the memory before its own turn. -/
theorem readWord_rewriteWords (g : Nat → Memory → Word) (base : Nat) :
    ∀ (count : Nat) (m : Memory) (k : Nat), k < count →
      (rewriteWords g base count m).readWord (base + k) = g k (rewriteWords g base k m) := by
  intro count
  induction count with
  | zero => intros; omega
  | succ n ih =>
    intro m k hk
    rw [rewriteWords_succ]
    by_cases h : k = n
    · subst h; rw [readWord_writeWord_same]
    · rw [readWord_writeWord_other _ _ _ _ (by omega), ih m k (by omega)]

end Sys2Proof.Laws
end

