-- ==== Sys2Proof/Laws/Layout.lean ====
section
/-! SUPPORT. The masks of a derived layout bit by bit, and which moduli have one. -/

namespace Sys2Proof.Laws

open Sys2Proof.Machine

/-- The pitch of every accepted lane width is a power of two that holds the lane and leaves at least two lanes a word
(R73 a). -/
theorem lanePitchOf_fits : ∀ l, l ≤ 32 → 2 ≤ l →
    l ≤ lanePitchOf l ∧ lanePitchOf l ≤ 32 ∧ 64 / lanePitchOf l * lanePitchOf l = 64 := by decide +kernel

/-- VM has the low l bits of every slot (R72). -/
theorem valueMaskOf_getLsbD : ∀ l, l ≤ 32 → 2 ≤ l → ∀ b, b < 64 →
    (valueMaskOf l (lanePitchOf l)).getLsbD b = decide (b % lanePitchOf l < l) := by decide +kernel

/-- PM has the low l bits of every even slot (R72). -/
theorem planeMaskOf_getLsbD : ∀ l, l ≤ 32 → 2 ≤ l → ∀ b, b < 64 →
    (planeMaskOf l (lanePitchOf l)).getLsbD b = decide (b % (2 * lanePitchOf l) < l) := by decide +kernel

/-- GM has the bit above the lane in every slot of a plane (R72). -/
theorem guardMaskOf_getLsbD : ∀ l, l ≤ 32 → 2 ≤ l → ∀ b, b < 64 →
    (guardMaskOf l (lanePitchOf l)).getLsbD b = decide (b % (2 * lanePitchOf l) = l) := by decide +kernel

/-- CM has the low l - 1 bits of every slot (R72). -/
theorem checkMaskOf_getLsbD : ∀ l, l ≤ 32 → 2 ≤ l → ∀ b, b < 64 →
    (checkMaskOf l (lanePitchOf l)).getLsbD b = decide (b % lanePitchOf l < l - 1) := by decide +kernel

/-- The search finds l only for p = 2^l - 1 with 2 <= l <= 32. -/
theorem laneWidthOf_eq_some {p l : Nat} (h : laneWidthOf p = some l) : 2 ≤ l ∧ l ≤ 32 ∧ p = 2 ^ l - 1 := by
  have h1 := List.find?_some h
  have h2 := List.mem_of_find?_eq_some h
  simp only [List.mem_range', Nat.one_mul, decide_eq_true_eq] at h1 h2
  omega

/-- The search finds every l with 2 <= l <= 32. -/
theorem laneWidthOf_mersenne : ∀ l, l ≤ 32 → 2 ≤ l → laneWidthOf (2 ^ l - 1) = some l := by decide +kernel

end Sys2Proof.Laws
end

