-- ==== Sys2Proof/Laws/PerInstr.lean ====
section
/-! SUPPORT. Statements made for every command, one lemma per constructor of Instr. -/

namespace Sys2Proof.Laws

/-- The fields of the encoded word are the command's OPCODE, a zero ZERO field and the command's immediate (R55,
R58). -/
def EncodeFields.Statement (i : Instr) : Prop :=
  opcodeField (encode i) = opcode i ∧ zeroBits (encode i) = 0 ∧ immField (encode i) = immediate i

/-- The fields of a word put together from its three fields. -/
theorem fields_of_append (imm : BitVec 32) (op : BitVec 8) :
    opcodeField (imm ++ (0 : BitVec 24) ++ op) = op ∧ zeroBits (imm ++ (0 : BitVec 24) ++ op) = 0 ∧
      immField (imm ++ (0 : BitVec 24) ++ op) = imm := by
  refine ⟨?_, ?_, ?_⟩
  all_goals
    apply BitVec.eq_of_getLsbD_eq
    intro i hi
    simp only [opcodeField, zeroBits, immField, BitVec.getLsbD_extractLsb', BitVec.getLsbD_append, hi,
      decide_true, Bool.true_and]
  · simp [hi]
  · rw [if_neg (by omega), if_pos (by omega)]
    simp
  · rw [if_neg (by omega), if_neg (by omega)]
    congr 1; omega

theorem EncodeFields.layout : EncodeFields.Statement .layout := fields_of_append _ _
theorem EncodeFields.copy : EncodeFields.Statement .copy := fields_of_append _ _
theorem EncodeFields.cmpeq : EncodeFields.Statement .cmpeq := fields_of_append _ _
theorem EncodeFields.cmpeqq (q : Nat) : EncodeFields.Statement (.cmpeqq q) := fields_of_append _ _
theorem EncodeFields.add : EncodeFields.Statement .add := fields_of_append _ _
theorem EncodeFields.smul (factor : Int) : EncodeFields.Statement (.smul factor) := fields_of_append _ _
theorem EncodeFields.lget : EncodeFields.Statement .lget := fields_of_append _ _
theorem EncodeFields.lset : EncodeFields.Statement .lset := fields_of_append _ _

end Sys2Proof.Laws
end

