-- ==== Sys2Proof/Tests/Slice0.lean ====
section
/-! SUPPORT. The model's own tests: what WellFormed refuses, the words of every command written out from
spec/30_encoding.md R55, R58, single steps whose expected values stand in spec/95_test_vectors.md, and, for every
statement with hypotheses, a state and operands that meet them. -/

namespace Sys2Proof.Tests

-- One theorem after another: each one's evaluation would otherwise hold a thread of its own.
set_option Elab.async false

open Sys2Proof.Machine Sys2Proof.Safety

/-! WellFormed: an ill-formed term for each check, and the ends of each range (R57). -/

theorem test_wellFormed_refuses_q_too_large : (Instr.cmpeqq 4294967296).wellFormed = false := by decide

theorem test_wellFormed_refuses_factor_too_large : (Instr.smul 2147483648).wellFormed = false := by decide

theorem test_wellFormed_refuses_factor_too_small : (Instr.smul (-2147483649)).wellFormed = false := by decide

theorem test_wellFormed_accepts_range_ends :
    (Instr.cmpeqq 0).wellFormed = true ∧ (Instr.cmpeqq 4294967295).wellFormed = true ∧
      (Instr.smul 2147483647).wellFormed = true ∧ (Instr.smul (-2147483648)).wellFormed = true := by decide

/-! Decode: words written out bit by bit as IMM32, ZERO, OPCODE (R55, R58), and the words of V9. -/

theorem test_decode_layout : decode (0b00000000000000000000000000000000#32 ++ 0b000000000000000000000000#24 ++
    0b00000001#8) = .ok .layout := by decide

theorem test_decode_copy : decode (0b00000000000000000000000000000000#32 ++ 0b000000000000000000000000#24 ++
    0b00000010#8) = .ok .copy := by decide

theorem test_decode_cmpeq : decode (0b00000000000000000000000000000000#32 ++ 0b000000000000000000000000#24 ++
    0b00000011#8) = .ok .cmpeq := by decide

theorem test_decode_cmpeqq : decode (0b00000000000000000000000000011111#32 ++ 0b000000000000000000000000#24 ++
    0b00000100#8) = .ok (.cmpeqq 31) := by decide

theorem test_decode_cmpeqq_zero_extends : decode 0xFFFFFFFF00000004 = .ok (.cmpeqq 4294967295) := by decide

theorem test_decode_add : decode (0b00000000000000000000000000000000#32 ++ 0b000000000000000000000000#24 ++
    0b00000101#8) = .ok .add := by decide

theorem test_decode_smul : decode (0b10000000000000000000000000000000#32 ++ 0b000000000000000000000000#24 ++
    0b00000110#8) = .ok (.smul (-2147483648)) := by decide

theorem test_decode_smul_sign_extends : decode 0xFFFFFFFF00000006 = .ok (.smul (-1)) := by decide

theorem test_decode_lget : decode (0b00000000000000000000000000000000#32 ++ 0b000000000000000000000000#24 ++
    0b00000111#8) = .ok .lget := by decide

theorem test_decode_lset : decode (0b00000000000000000000000000000000#32 ++ 0b000000000000000000000000#24 ++
    0b00001000#8) = .ok .lset := by decide

theorem test_decode_rejects_reserved_opcodes :
    decode 0x0000000000000000 = .error .reservedOpcode ∧ decode 0x0000000000000009 = .error .reservedOpcode ∧
      decode 0x00000000000000FF = .error .reservedOpcode := by decide

theorem test_decode_rejects_zero_field :
    decode 0x0000000000000105 = .error .zeroField ∧ decode 0x0000000080000005 = .error .zeroField := by decide

theorem test_decode_rejects_immediate :
    decode 0x0000000100000005 = .error .immediate ∧ decode 0x0000000100000001 = .error .immediate := by decide

theorem test_decodeTableWord : decodeTableWord 8 0x07 = some .lget ∧
    decodeTableWord 64 0x0000000700000004 = some (.cmpeqq 7) ∧ decodeTableWord 64 0x0105 = none := by decide

/-! States. -/

/-- p = 31, DIM = 10, A = two words at 0x1000, B = two words at 0x2000, as in program P2 after its second line. -/
def cfg31 : State := { State.reset with
  status := 0x100, modulus := 31, dim := 10
  laneWidth := 5, lanePitch := 8, lanesPerWord := 8
  valueMask := 0x1F1F1F1F1F1F1F1F, guardMask := 0x0020002000200020, wordCount := 2
  aBase := 0x1000, aLen := 2, bBase := 0x2000, bLen := 2 }

/-- p = 3, DIM = 4, A = one word at 0x100, B = one word at 0x200, as in program P1 after its fifth line. -/
def cfg3 : State := { State.reset with
  status := 0x100, modulus := 3, dim := 4
  laneWidth := 2, lanePitch := 2, lanesPerWord := 32
  valueMask := 0xFFFFFFFFFFFFFFFF, guardMask := 0x4444444444444444, wordCount := 1
  aBase := 0x100, aLen := 1, bBase := 0x200, bLen := 1 }

/-- p = 15, DIM = 20, A = two words at 0x40, B = two words at 0x80, as in program P3 after its second line. -/
def cfg15 : State := { State.reset with
  status := 0x100, modulus := 15, dim := 20
  laneWidth := 4, lanePitch := 4, lanesPerWord := 16
  valueMask := 0xFFFFFFFFFFFFFFFF, guardMask := 0x1010101010101010, wordCount := 2
  aBase := 0x40, aLen := 2, bBase := 0x80, bLen := 2 }

/-- The state with a word stored in the memory. -/
def put (a : Nat) (v : Word) (s : State) : State := { s with mem := s.mem.writeWord a v }

/-- What is asked of a next state, where there is one. -/
def ask {α : Type} (o : Host.Outcome State Fault Refusal) (f : State → α) : Option α :=
  match o with
  | .next t => some (f t)
  | .fault _ => none
  | .refused _ => none

/-- The state with one host action to come. -/
def act (x : HostAction) (s : State) : State := { s with script := [x] }

/-- Word 0x1001 of the memory of cfg31 has no storage. -/
def holed : State := { cfg31 with params := { addrBits := 32, holes := [(0x1001, 1)] } }

/-! Single steps, against spec/95_test_vectors.md. -/

/-- V1, row p = 31, DIM = 10. -/
theorem test_layout_31 : ask (exec .layout { State.reset with modulus := 31, dim := 10 })
    (fun t => (t.status, t.laneWidth, t.lanePitch, t.lanesPerWord, t.valueMask, t.guardMask, t.wordCount)) =
    some (0x100, 5, 8, 8, 0x1F1F1F1F1F1F1F1F, 0x0020002000200020, 2) := by decide +kernel

/-- P4, line 2: 5 is no accepted modulus. -/
theorem test_layout_refuses_5 : ask (exec .layout { cfg3 with modulus := 5, errlog := 0x20 })
    (fun t => (t.status, t.errlog, t.valueMask, t.wordCount)) = some (0x001, 0x22, 0, 0) := by decide +kernel

/-- V8, COPY of two ill-formed words. -/
theorem test_copy_bits : ask (exec .copy (put 0x1000 0xFFFFFFFFFFFFFFFF (put 0x1001 0x0123456789ABCDEF cfg31)))
    (fun t => (t.mem.readWord 0x2000, t.mem.readWord 0x2001)) =
    some (0xFFFFFFFFFFFFFFFF, 0x0123456789ABCDEF) := by decide +kernel

/-- P1, line 6: the accesses of COPY. -/
theorem test_copy_accesses : ask (exec .copy cfg3) (fun t => t.port) = some [.read 0x100, .write 0x200] := by
  decide +kernel

/-- V6, p = 31, first row: 0 against 31 twice, and pad bits. -/
theorem test_cmpeq_equal : ask (exec .cmpeq (put 0x1000 0x0707001F1E051F00 (put 0x2000 0x0707001F1E0500FF cfg31)))
    (fun t => t.result) = some 0 := by decide +kernel

/-- V6, p = 31, second row: 7 against its complement 24. -/
theorem test_cmpeq_complement : ask (exec .cmpeq
    (put 0x1000 0x0707001F1E051F00 (put 0x2000 0x1807001F1E05001F cfg31))) (fun t => t.result) = some 1 := by
  decide +kernel

/-- V7, word example: p = 15, q = 5 and q = 3. -/
theorem test_cmpeqq_word : ask (exec (.cmpeqq 5) (put 0x40 0xC7 (put 0x80 0x22 cfg15))) (fun t => t.result) = some 0 ∧
    ask (exec (.cmpeqq 3) (put 0x40 0xC7 (put 0x80 0x22 cfg15))) (fun t => t.result) = some 1 := by decide +kernel

/-- V7, V9: q = 0 is a result, without an access and without an error. -/
theorem test_cmpeqq_zero : ask (exec (.cmpeqq 0) cfg15) (fun t => (t.result, t.status, t.port)) =
    some (2, 0x100, []) := by decide +kernel

/-- V3, p = 31, with pad bits set in both inputs. -/
theorem test_add_31 : ask (exec .add (put 0x1000 0x811F100F1F1FE01E (put 0x2000 0x010110101F000025 cfg31)))
    (fun t => t.mem.readWord 0x1000) = some 0x0201011F1F1F0004 := by decide +kernel

/-- P1, line 8: ADD of a buffer with itself, its accesses and its word. -/
theorem test_add_self : ask (exec .add (put 0x100 0x86 { cfg3 with bBase := 0x100 }))
    (fun t => (t.mem.readWord 0x100, t.port)) =
    some (0x49, [.read 0x100, .read 0x100, .write 0x100]) := by decide +kernel

/-- V5, p = 31, f = 30, with pad bits set. -/
theorem test_smul_31 : ask (exec (.smul (-1)) (put 0x1000 0x0201A00719101E1F cfg31))
    (fun t => t.mem.readWord 0x1000) = some 0x1D1E0018060F011F := by decide +kernel

/-- V4, p = 31, factor -2147483648: f = 29, and 29 times 7 is 17. -/
theorem test_smul_least_factor : ask (exec (.smul (-2147483648)) (put 0x1000 0x07 cfg31))
    (fun t => t.mem.readWord 0x1000) = some 17 := by decide +kernel

/-- V8, LGET of p = 3, lane 3. -/
theorem test_lget_3 : ask (exec .lget (put 0x100 0x86 { cfg3 with laneIdx := 3 })) (fun t => t.laneData) = some 2 := by
  decide +kernel

/-- P2, line 18: index 10 is not below DIM. -/
theorem test_lget_index : ask (exec .lget { cfg31 with laneIdx := 10, laneData := 1 })
    (fun t => (t.status, t.errlog, t.laneData, t.port)) = some (0x103, 0x08, 1, []) := by decide +kernel

/-- V8, LSET of p = 31: value bits cleared, pad bits of the slot kept. -/
theorem test_lset_keeps_pads : ask (exec .lset (put 0x1000 0xFFFFFFFFFFFFFFFF { cfg31 with laneIdx := 1 }))
    (fun t => t.mem.readWord 0x1000) = some 0xFFFFFFFFFFFFE0FF := by decide +kernel

/-- P2, line 9: only the low l bits of LANE_DATA, into slot 1 of word 1. -/
theorem test_lset_low_bits : ask (exec .lset { cfg31 with laneIdx := 9, laneData := 0x3F0 })
    (fun t => (t.mem.readWord 0x1001, t.port)) = some (0x1000, [.read 0x1001, .write 0x1001]) := by decide +kernel

/-- P4, line 12: write 1 to clear. -/
theorem test_errlog_clear : ask (step (act (.write 3 0x36) { cfg3 with errlog := 0x7E })) (fun t => t.errlog) =
    some 0x48 := by decide +kernel

/-- P4, line 3: an illegal word reports ERR_ILLEGAL. -/
theorem test_illegal : ask (step (act (.write 0 0) State.reset)) (fun t => (t.status, t.errlog)) =
    some (0x004, 0x10) := by decide +kernel

/-- P4, line 13: DIM written, the layout is gone. -/
theorem test_dim_write : ask (step (act (.write 5 8) cfg3)) (fun t => (t.status, t.dim, t.lanesPerWord, t.wordCount)) =
    some (0, 8, 0, 0) := by decide +kernel

/-- R41: the bytes of a word are little-endian for the host. -/
theorem test_host_bytes : ask (step (act (.storeByte 0x803 0xAB) State.reset)) (fun t => t.mem.readWord 0x100) =
    some 0xAB000000 := by decide +kernel

/-- The word placed for the next step is the command that the next step runs. -/
theorem test_withFetchWord : step (State.reset.withFetchWord 64 0x0000000000000005) = exec .add State.reset := rfl

theorem test_memory_of_reset : State.reset.mem.wf = true := by decide

/-! Witnesses: the hypotheses of each statement are met, and each clause of those with several. -/

theorem witness_DecodeOfEncode : (Instr.cmpeqq 4294967295).wellFormed = true ∧
    (Instr.smul (-2147483648)).wellFormed = true ∧ Instr.lset.wellFormed = true := by decide

theorem witness_EncodeOfDecode : decode 0x8000000000000006 = .ok (.smul (-2147483648)) := by decide

theorem witness_StepRunsDecodedCommand :
    (act (.write 0 0xFFFFFFFF00000006) cfg31).script = .write 0 0xFFFFFFFF00000006 :: [] ∧
      decode 0xFFFFFFFF00000006 = .ok (.smul (-1)) := by decide

/-- One word for each of the three ways to be illegal, on a state with a layout. -/
theorem witness_IllegalWordReportsErrIllegal :
    (act (.write 0 0x80000005) cfg31).script = .write 0 0x80000005 :: [] ∧
      BitVec.extractLsb' 8 24 0x80000005#64 ≠ 0 ∧ ¬ (1 ≤ (BitVec.extractLsb' 0 8 0x9#64).toNat ∧
      (BitVec.extractLsb' 0 8 0x9#64).toNat ≤ 8) ∧ BitVec.extractLsb' 32 32 0x8000000000000008#64 ≠ 0 ∧
      (BitVec.extractLsb' 0 8 0x8000000000000008#64).toNat = 8 := by decide

theorem witness_HostReadReturnsRegister : (act (.read 17) cfg31).script = .read 17 :: [] ∧
    (act (.read 18) cfg31).script = .read 18 :: [] := by decide

theorem witness_HostWriteStoresOperandRegister :
    ∀ num ∈ [12, 13, 14, 15, 16, 17], (act (.write num 0xFFFFFFFFFFFFFFFF) cfg31).script =
      .write num 0xFFFFFFFFFFFFFFFF :: [] := by decide

theorem witness_WriteOfModulusOrDimInvalidates : (act (.write 4 31) cfg31).script = .write 4 31 :: [] ∧
    (act (.write 5 10) cfg31).script = .write 5 10 :: [] ∧ Instr.copy ≠ .layout ∧
    State.reset.status.getLsbD 8 = false ∧
    ask (step (act (.write 0 1) { State.reset with modulus := 31 })) (fun t => t.status.getLsbD 8) = some true := by
  decide +kernel

theorem witness_ReadOnlyRegistersIgnoreWrites : ∀ num ∈ [1, 2, 6, 11, 18],
    (act (.write num 0xFF) cfg31).script = .write num 0xFF :: [] ∧
      (num = 1 ∨ num = 2 ∨ (6 ≤ num ∧ num ≤ 11) ∨ 18 ≤ num) := by decide

theorem witness_ErrlogIsWriteOneToClear :
    (act (.write 3 0x36) cfg31).script = .write 3 0x36 :: [] := by decide

/-- Bit 1 lost to a write and to reset, and bit 5 gained by a command. -/
theorem witness_ErrlogBitsAreSticky :
    ask (step (act (.write 3 2) { cfg31 with errlog := 2 })) (fun t => t.errlog.getLsbD 1) = some false ∧
      ask (step (act .reset { cfg31 with errlog := 2 })) (fun t => t.errlog.getLsbD 1) = some false ∧
      ({ cfg31 with errlog := 2 } : State).errlog.getLsbD 1 = true ∧
      ask (step (act (.write 0 5) State.reset)) (fun t => t.errlog.getLsbD 5) = some true ∧
      State.reset.errlog.getLsbD 5 = false := by decide +kernel

/-- A command that completes and one that fails, from a state with nothing logged. -/
theorem witness_ErrlogTellsWhetherACommandFailed : NoFailureLogged cfg31 ∧ NoFailureLogged State.reset ∧
    ask (exec .add cfg31) (fun t => t.status) = some 0x100 ∧
    ask (exec .add State.reset) (fun t => t.status) = some 5 := by decide +kernel

theorem witness_ResetClearsEveryRegister : (act .reset cfg31).script = .reset :: [] := by decide

/-- A step of each kind: idle, and taking an action. -/
theorem witness_EachStepTakesOneAction :
    cfg31.script = [] ∧ (act (.read 4) cfg31).script = .read 4 :: [] ∧ ∃ t, step (act (.read 4) cfg31) = .next t :=
  ⟨rfl, rfl, _, rfl⟩

theorem witness_HostStoresAndLoadsWords : accessFault cfg31.params 0xFFFFFFFF = none ∧
    (act (.store 0xFFFFFFFF 7) cfg31).script = .store 0xFFFFFFFF 7 :: [] ∧
    (act (.load 0xFFFFFFFF) cfg31).script = .load 0xFFFFFFFF :: [] := by decide

theorem witness_HostStoresAndLoadsBytes : 7 < 8 ∧ accessFault cfg31.params 0xFFFFFFFF = none ∧
    (act (.storeByte (8 * 0xFFFFFFFF + 7) 9) cfg31).script = .storeByte (8 * 0xFFFFFFFF + 7) 9 :: [] ∧
    (act (.loadByte (8 * 0xFFFFFFFF + 7)) cfg31).script = .loadByte (8 * 0xFFFFFFFF + 7) :: [] := by decide

/-- The first word beyond the address space and its first byte, and a word in a hole and its last byte. -/
theorem witness_HostAccessOutsideStorageFaults :
    (act (.load 0x100000000) holed).script = .load 0x100000000 :: [] ∧ 2 ^ holed.params.addrBits ≤ 0x100000000 ∧
      (act (.loadByte (8 * 0x100000000 + 0)) holed).script = .loadByte (8 * 0x100000000 + 0) :: [] ∧
      (act (.store 0x1001 7) holed).script = .store 0x1001 7 :: [] ∧ 0x1001 < 2 ^ holed.params.addrBits ∧
      (act (.storeByte (8 * 0x1001 + 7) 9) holed).script = .storeByte (8 * 0x1001 + 7) 9 :: [] ∧ 7 < 8 ∧
      ∃ h ∈ holed.params.holes, h.1 ≤ 0x1001 ∧ 0x1001 < h.1 + h.2 := by decide

theorem witness_ScriptLinesRunTheirCommands :
    (act (commandLine (.smul (-1))) cfg31).script = commandLine (.smul (-1)) :: [] ∧
      (Instr.smul (-1)).wellFormed = true ∧
      ({ cfg31 with script := cfgLines 31 10 } : State).script = cfgLines 31 10 ++ [] ∧
      ({ cfg31 with script := setALines 64 2 } : State).script = setALines 64 2 ++ [] ∧
      ({ cfg31 with script := setBLines 64 2 } : State).script = setBLines 64 2 ++ [] := by decide

/-- Each clause: a word that does not decode, no layout, a wrong length of A or of B, an address one word too high, an
index equal to DIM, and a modulus that is not accepted. -/
theorem witness_CommandReportsFirstFailingCheck :
    (act (.write 0 5) cfg31).script = .write 0 5 :: [] ∧ decode 0 = .error .reservedOpcode ∧ decode 5 = .ok .add ∧
      State.reset.status.getLsbD 8 = false ∧ cfg31.status.getLsbD 8 = true ∧ LengthBad .add { cfg31 with aLen := 3 } ∧
      LengthBad .add { cfg31 with bLen := 1 } ∧ ¬ LengthBad .add { cfg31 with aBase := 0xFFFFFFFF } ∧
      AddressBad .add { cfg31 with aBase := 0xFFFFFFFF } ∧ AddressBad .add { cfg31 with bBase := 0xFFFFFFFF } ∧
      decode 7 = .ok .lget ∧ ¬ LengthBad .lget { cfg31 with laneIdx := 10 } ∧
      ¬ AddressBad .lget { cfg31 with laneIdx := 10 } ∧ IndexBad .lget { cfg31 with laneIdx := 10 } ∧
      decode 1 = .ok .layout ∧ ¬ Accepted 5 := by decide +kernel

/-- A command of each of the three endings. -/
theorem witness_CommandCompletesOrFailsWithoutEffect : (∃ t, exec .add cfg31 = .next t) ∧
    (∃ t, exec .add State.reset = .next t) ∧ ∃ t, exec .layout { cfg31 with modulus := 5 } = .next t :=
  ⟨⟨_, rfl⟩, ⟨_, rfl⟩, _, rfl⟩

/-- Every command but LAYOUT on one state, LAYOUT on its own, an empty buffer, and the last word of the space. -/
theorem witness_ReadyCommandsComplete :
    (∀ i ∈ ([.copy, .cmpeq, .cmpeqq 31, .cmpeqq 1, .cmpeqq 7, .add, .smul (-1), .lget, .lset] : List Instr),
      ChecksPass i cfg31 ∧ PortBacks i cfg31) ∧ ChecksPass .layout cfg31 ∧ PortBacks .layout cfg31 ∧
      ChecksPass .copy { cfg31 with dim := 0, wordCount := 0, aLen := 0, bLen := 0 } ∧
      ChecksPass .add { cfg3 with aBase := 0xFFFFFFFF } ∧ PortBacks .add { cfg3 with aBase := 0xFFFFFFFF } :=
  ⟨by decide +kernel, by decide +kernel, by decide +kernel, by decide +kernel, by decide +kernel, by decide +kernel⟩

theorem witness_CommandsAlwaysEndOnFullStorage : LayoutInv cfg31 ∧ cfg31.params.holes = [] ∧
    LayoutInv State.reset ∧ State.reset.params.holes = [] := by decide +kernel

/-- Checks that pass with all accesses to storage, and with one of them not. -/
theorem witness_CommandsFaultExactlyOutsideStorage : ChecksPass .add cfg31 ∧ PortBacks .add cfg31 ∧
    ChecksPass .add holed ∧ ¬ PortBacks .add holed ∧ exec .add holed = .fault (.unbacked 0x1001) :=
  ⟨by decide +kernel, by decide +kernel, by decide +kernel, by decide +kernel, rfl⟩

/-- The least and the greatest lane width. -/
theorem witness_LayoutInstallsDerivedLayout :
    ({ cfg31 with modulus := 3 } : State).modulus.toNat = 2 ^ 2 - 1 ∧
      ({ cfg31 with modulus := 4294967295 } : State).modulus.toNat = 2 ^ 32 - 1 := by decide

/-- Moduli next to accepted ones and beyond the last; a LAYOUT that answers with ERR = 1. -/
theorem witness_LayoutRefusesOtherModuli :
    ¬ Accepted ({ cfg31 with modulus := 1 } : State).modulus.toNat ∧
      ¬ Accepted ({ cfg31 with modulus := 8589934591 } : State).modulus.toNat ∧
      ask (exec .layout State.reset) (fun t => t.status.extractLsb' 0 4) = some 1 := by decide +kernel

/-- COPY passing its checks on buffers apart, the same, and overlapping; and failing them. -/
theorem witness_CopyWritesBufferB : ChecksPass .copy cfg31 ∧ PortBacks .copy cfg31 ∧ SameOrApart cfg31 ∧
    ChecksPass .copy { cfg31 with bBase := 0x1000 } ∧ SameOrApart { cfg31 with bBase := 0x1000 } ∧
    ¬ SameOrApart { cfg31 with bBase := 0x1001 } ∧ firstFailure .copy State.reset = some 5 := by decide +kernel

theorem witness_CopySmearsWhenBIsOneAboveA : ChecksPass .copy { cfg31 with bBase := 0x1001 } ∧
    PortBacks .copy { cfg31 with bBase := 0x1001 } ∧
    ({ cfg31 with bBase := 0x1001 } : State).bBase.toNat = cfg31.aBase.toNat + 1 := by decide +kernel

theorem witness_CopyThenCompareReportsEqual : ChecksPass .copy cfg31 ∧ PortBacks .copy cfg31 ∧
    SameOrApart cfg31 := by decide +kernel

/-- The last lane below DIM, and an index that fails. -/
theorem witness_LgetReadsRawLane : ChecksPass .lget { cfg31 with laneIdx := 9 } ∧
    PortBacks .lget { cfg31 with laneIdx := 9 } ∧ firstFailure .lget { cfg31 with laneIdx := 10 } = some 3 := by decide +kernel

theorem witness_LsetChangesOneLane : ChecksPass .lset { cfg31 with laneIdx := 9 } ∧
    PortBacks .lset { cfg31 with laneIdx := 9 } ∧ firstFailure .lset { cfg31 with laneIdx := 10 } = some 3 := by decide +kernel

theorem witness_LsetThenLgetReturnsLowBits : LayoutInv { cfg31 with laneIdx := 9 } ∧
    ChecksPass .lset { cfg31 with laneIdx := 9 } ∧ PortBacks .lset { cfg31 with laneIdx := 9 } := by decide +kernel

theorem witness_RescaledNeqWordLaneLaw : (2 ≤ 4 ∧ 1 < 5 ∧ 5 < 2 ^ 4 - 1 ∧ 5 ∣ 2 ^ 4 - 1) ∧
    (32 ≤ 32 ∧ 65537 < 2 ^ 32 - 1 ∧ 65537 ∣ 2 ^ 32 - 1) := by decide

/-- Buffers that are equal and buffers that are not; a failing check. -/
theorem witness_CmpeqDecidesEqualityModP : LayoutInv cfg31 ∧ ChecksPass .cmpeq cfg31 ∧ PortBacks .cmpeq cfg31 ∧
    BuffersCongruent 31 (put 0x1000 0x1F cfg31) ∧ ¬ BuffersCongruent 31 (put 0x1000 0x1E cfg31) ∧
    firstFailure .cmpeq { cfg31 with bLen := 1 } = some 2 := by decide +kernel

theorem witness_CmpeqIsReflexive : ChecksPass .cmpeq { cfg31 with bBase := 0x1000 } ∧
    PortBacks .cmpeq { cfg31 with bBase := 0x1000 } ∧
    ({ cfg31 with bBase := 0x1000 } : State).aBase = ({ cfg31 with bBase := 0x1000 } : State).bBase := by decide +kernel

theorem witness_CmpeqIsSymmetric : LayoutInv (put 0x1000 7 cfg31) ∧ ChecksPass .cmpeq (put 0x1000 7 cfg31) ∧
    PortBacks .cmpeq (put 0x1000 7 cfg31) := by decide +kernel

/-- All four cases of q for p = 15, and a failing check. -/
theorem witness_CmpeqqDecidesCongruenceModQ :
    (∀ q ∈ [15, 1, 0, 4294967295, 5, 3], ChecksPass (.cmpeqq q) cfg15 ∧ PortBacks (.cmpeqq q) cfg15) ∧
      LayoutInv cfg15 ∧ firstFailure (.cmpeqq 5) { cfg15 with bLen := 1 } = some 2 := by decide +kernel

theorem witness_NotDivisibleIsAResult : ChecksPass (.cmpeqq 4) cfg15 ∧ 4 ≠ 1 ∧ ¬ 4 ∣ cfg15.modulus.toNat ∧
    ChecksPass (.cmpeqq 0) cfg15 ∧ ¬ 0 ∣ cfg15.modulus.toNat := by decide +kernel

/-- The least and the greatest lane width of the three lane laws, with the greatest factor. -/
theorem witness_LaneLaws : (2 ≤ 2 ∧ 2 ≤ 32) ∧ (2 ≤ 32 ∧ 32 ≤ 32) ∧ 2 < 2 ^ 2 - 1 ∧ 4294967294 < 2 ^ 32 - 1 ∧
    31 < 64 / lanePitchOf 2 ∧ 1 < 64 / lanePitchOf 32 := by decide

/-- ADD passing its checks on buffers apart and the same; and failing them. -/
theorem witness_AddComputesLaneSums : LayoutInv cfg31 ∧ ChecksPass .add cfg31 ∧ PortBacks .add cfg31 ∧
    SameOrApart cfg31 ∧ SameOrApart { cfg31 with bBase := 0x1000 } ∧ ¬ SameOrApart { cfg31 with bBase := 0x1001 } ∧
    firstFailure .add { cfg31 with bBase := 0xFFFFFFFF } = some 6 := by decide +kernel

/-- A word of A that holds p in lane 1, and a buffer B of zeros. -/
theorem witness_AddOfZeroIsIdentity : LayoutInv (put 0x1000 0x1F00 cfg31) ∧ ChecksPass .add (put 0x1000 0x1F00 cfg31) ∧
    PortBacks .add (put 0x1000 0x1F00 cfg31) ∧ SameOrApart (put 0x1000 0x1F00 cfg31) ∧
    ∀ i, i < cfg31.wordCount.toNat →
      (put 0x1000 0x1F00 cfg31).mem.readWord (cfg31.aBase.toNat + i) &&& ~~~cfg31.valueMask = 0 ∧
        (put 0x1000 0x1F00 cfg31).mem.readWord (cfg31.bBase.toNat + i) = 0 := by decide +kernel

/-- The ends of the factor's range, and the f that belongs to -1. -/
theorem witness_SmulComputesLaneProducts : LayoutInv cfg31 ∧ ChecksPass (.smul (-2147483648)) cfg31 ∧
    PortBacks (.smul (-2147483648)) cfg31 ∧ ChecksPass (.smul 2147483647) cfg31 ∧ 30 < cfg31.modulus.toNat ∧
    (31 : Int) ∣ -1 - 30 ∧ firstFailure (.smul 2) { cfg31 with aLen := 3 } = some 2 :=
  ⟨by decide +kernel, by decide +kernel, by decide +kernel, by decide +kernel, by decide, by decide, by decide +kernel⟩

/-- A factor that p divides, and one that is congruent to 1. -/
theorem witness_SmulByZeroAndByOne : LayoutInv cfg31 ∧ ChecksPass (.smul (-31)) cfg31 ∧ PortBacks (.smul (-31)) cfg31 ∧
    (31 : Int) ∣ -31 ∧ ChecksPass (.smul 32) cfg31 ∧ PortBacks (.smul 32) cfg31 ∧ (31 : Int) ∣ 32 - 1 := by decide +kernel

theorem witness_SmulByTwoIsAddWithItself : LayoutInv { cfg31 with bBase := 0x1000 } ∧
    ChecksPass .add { cfg31 with bBase := 0x1000 } ∧ PortBacks .add { cfg31 with bBase := 0x1000 } ∧
    ({ cfg31 with bBase := 0x1000 } : State).aBase = ({ cfg31 with bBase := 0x1000 } : State).bBase := by decide +kernel

/-- Every command answers somewhere: the frames and the list of accesses speak of these. -/
theorem witness_FramesOfCommands :
    ∀ i ∈ ([.layout, .copy, .cmpeq, .cmpeqq 31, .add, .smul (-1), .lget, .lset] : List Instr),
      ask (exec i cfg31) (fun t => t.status) = some 0x100 := by decide +kernel

/-- A byte that COPY does not store to, the one above buffer B, and one that it does. -/
theorem witness_StoresTo : ¬ StoresTo .copy cfg31 (8 * 0x2002) ∧ StoresTo .copy cfg31 (8 * 0x2001 + 7) := by
  refine ⟨?_, 1, by decide, by decide⟩
  rintro ⟨k, hk, h⟩
  change k < 2 at hk
  change 0x2002 = 0x2000 + k at h
  omega

/-- A next state and a fault. -/
theorem witness_AccessesAreDataIndependent : (∃ t, exec .add cfg31 = .next t) ∧
    exec .add holed = .fault (.unbacked 0x1001) := ⟨⟨_, rfl⟩, rfl⟩

/-- RESULT changed by a comparison and by reset. -/
theorem witness_ResultChangesOnlyByCompare :
    ask (step (act (.write 0 0x0000000700000004) cfg31)) (fun t => t.result) = some 2 ∧ cfg31.result = 0 ∧
      ask (step (act .reset { cfg31 with result := 1 })) (fun t => t.result) = some 0 := by decide +kernel

/-- CFG_VALID set by LAYOUT, and cleared in each of the four ways. -/
theorem witness_CfgValidChangesOnlyByLayoutAndWrites :
    ask (step (act (.write 0 1) { State.reset with modulus := 31 })) (fun t => t.status.getLsbD 8) = some true ∧
      State.reset.status.getLsbD 8 = false ∧ cfg31.status.getLsbD 8 = true ∧
      ask (step (act (.write 0 1) { cfg31 with modulus := 5 })) (fun t => t.status.getLsbD 8) = some false ∧
      ask (step (act (.write 4 31) cfg31)) (fun t => t.status.getLsbD 8) = some false ∧
      ask (step (act (.write 5 10) cfg31)) (fun t => t.status.getLsbD 8) = some false ∧
      ask (step (act .reset cfg31)) (fun t => t.status.getLsbD 8) = some false := by decide +kernel

/-- The layout invariant met with and without a layout, and a step from each. -/
theorem witness_LayoutInvariantIsKept : LayoutInv cfg31 ∧ LayoutInv State.reset ∧
    ask (step (act (.write 4 7) cfg31)) (fun t => t.modulus) = some 7 ∧
    ask (step (act (.write 4 7) State.reset)) (fun t => t.modulus) = some 7 := by decide +kernel

theorem witness_FieldsStayLegal : FieldsLegal cfg31 ∧ FieldsLegal { cfg31 with status := 0x106, errlog := 0x7E } ∧
    ask (step (act (.write 0 0) cfg31)) (fun t => t.status) = some 0x104 := by decide +kernel

theorem witness_MemoryStaysCanonical : (put 0x100 0x86 cfg31).mem.wf = true ∧
    ask (step (act (.store 0x100 0) (put 0x100 0x86 cfg31))) (fun t => t.mem) = some [] := by decide +kernel

theorem witness_ParametersNeverChange : ∃ t, step (act .reset holed) = .next t := ⟨_, rfl⟩

end Sys2Proof.Tests
end

section
/-! PROOFS. One step of the machine from the next action of the host: the rules that the statements about single actions
rewrite with. -/

namespace Sys2Proof.Proofs

open Sys2Proof.Machine Sys2Proof.Safety Sys2Proof.Laws

/-! Register numbers. -/

/-- The number of a register, the other way round than `regOfNum` (R10). -/
def regNum : Reg → Nat
  | .cmd => 0
  | .status => 1
  | .result => 2
  | .errlog => 3
  | .modulus => 4
  | .dim => 5
  | .laneWidth => 6
  | .lanePitch => 7
  | .lanesPerWord => 8
  | .valueMask => 9
  | .guardMask => 10
  | .wordCount => 11
  | .aBase => 12
  | .aLen => 13
  | .bBase => 14
  | .bLen => 15
  | .laneIdx => 16
  | .laneData => 17

/-- Each register has one number (R10). -/
theorem regOfNum_eq_some {num : Nat} {r : Reg} (h : regOfNum num = some r) : num = regNum r := by
  unfold regOfNum at h
  split at h <;> cases h <;> rfl

theorem regNum_lt (r : Reg) : regNum r < 18 := by cases r <;> decide

/-- Past the eighteen registers every number is reserved (R31 c). -/
theorem regOfNum_of_ge {num : Nat} (h : 18 ≤ num) : regOfNum num = none := by
  cases hr : regOfNum num with
  | none => rfl
  | some r =>
    have hn := regOfNum_eq_some hr
    have hlt := regNum_lt r
    omega

/-! The next action. -/

/-- A step with an action to come is that action (R139). -/
theorem step_of_script {s : State} {x : HostAction} {rest : List HostAction} (hs : s.script = x :: rest) :
    step s = hostAction x (s.withScript rest) := by
  simp only [step, takeAction, hs]

/-- A write to a register other than CMD is one write of that register (R31). -/
theorem step_of_write {s : State} {num : Nat} {r : Reg} {v : Word} {rest : List HostAction}
    (hs : s.script = .write num v :: rest) (hr : regOfNum num = some r) (hc : r ≠ .cmd) :
    step s = .next (writeReg r v (s.withScript rest)) := by
  rw [step_of_script hs, hostAction, hostWriteReg, hr]
  cases r with
  | cmd => exact absurd rfl hc
  | _ => rfl

/-- A write to a reserved number is ignored (R31 c). -/
theorem step_of_reserved_write {s : State} {num : Nat} {v : Word} {rest : List HostAction}
    (hs : s.script = .write num v :: rest) (hr : regOfNum num = none) : step s = .next (s.withScript rest) := by
  rw [step_of_script hs, hostAction, hostWriteReg, hr]

/-- A write of a legal word to CMD is the command it encodes (R13). -/
theorem step_of_command {s : State} {c : Word} {rest : List HostAction} {i : Instr}
    (hs : s.script = .write 0 c :: rest) (hd : decode c = .ok i) : step s = exec i (s.withScript rest) := by
  have hc : hostAction (.write 0 c) (s.withScript rest) = issueCommand c (s.withScript rest) := rfl
  rw [step_of_script hs, hc, issueCommand, hd]

/-- After the reset event every register reads 0 (R38). -/
theorem hostReadReg_resetEvent (num : Nat) (s : State) : hostReadReg num (resetEvent s) = 0 := by
  unfold hostReadReg
  split
  · next r _ => cases r <;> simp [readReg]
  · rfl

/-! Accesses of the host to the memory. -/

theorem accessFault_of_outside {p : Params} {a : Nat} (h : 2 ^ p.addrBits ≤ a) :
    accessFault p a = some (.outsideAddressSpace a) := by
  rw [accessFault, if_pos h]

theorem accessFault_of_hole {p : Params} {a : Nat} (h : a < 2 ^ p.addrBits)
    (hh : ∃ h ∈ p.holes, h.1 ≤ a ∧ a < h.1 + h.2) : accessFault p a = some (.unbacked a) := by
  have hb : ¬ backs p a = true := by simpa [backs] using hh
  rw [accessFault, if_neg (Nat.not_le.2 h), if_neg hb]

/-- The action is an access of the host's own to word a, whole or to one of its bytes (R36, R41). -/
def AccessesWord (a : Nat) : HostAction → Prop
  | .store b _ => b = a
  | .load b => b = a
  | .storeByte b _ => b / 8 = a
  | .loadByte b => b / 8 = a
  | .write _ _ => False
  | .read _ => False
  | .reset => False

/-- A host access whose word has no storage stops by the name of the reason (R54). -/
theorem hostAction_of_accessFault {a : Nat} {x : HostAction} {s : State} {f : Fault} (hx : AccessesWord a x)
    (hf : accessFault s.params a = some f) : hostAction x s = .fault f := by
  cases x with
  | store b v => cases hx; simp only [hostAction, hostStore, hf]
  | load b => cases hx; simp only [hostAction, hostLoad, hf]
  | storeByte b v => cases hx; simp only [hostAction, hostStoreByte, hf]
  | loadByte b => cases hx; simp only [hostAction, hostLoadByte, hf]
  | write | read | reset => exact hx.elim

/-- Byte j of the word at word address a is the byte at byte address 8a + j (R41). -/
theorem readWord_byte (m : Memory) (a j : Nat) (hj : j < 8) :
    (m.readWord a).extractLsb' (8 * j) 8 = m.readByte (8 * a + j) := by
  apply BitVec.eq_of_getLsbD_eq
  intro i hi
  have hdiv : (8 * j + i) / 8 = j := by omega
  have hmod : (8 * j + i) % 8 = i := by omega
  rw [BitVec.getLsbD_extractLsb', readWord_getLsbD _ _ _ (by omega), hdiv, hmod]
  simp [hi]

end Sys2Proof.Proofs
end

section
/-! PROOFS. The fields of STATUS and ERRLOG bit by bit: what the statements say with masks, and what each update of a
field does to the other fields. -/

namespace Sys2Proof.Proofs

open Sys2Proof.Machine Sys2Proof.Safety Sys2Proof.Laws

/-- A masked word is 0 when each of its bits in the mask is. -/
theorem and_mask_eq_zero_iff (w m : Word) :
    w &&& m = 0 ↔ ∀ b, b < 64 → m.getLsbD b = true → w.getLsbD b = false := by
  constructor
  · intro h b _ hm
    have hb : (w &&& m).getLsbD b = false := by simp [h]
    simpa [hm] using hb
  · intro h
    apply BitVec.eq_of_getLsbD_eq
    intro b hb
    by_cases hm : m.getLsbD b = true
    · simp [h b hb hm]
    · simp [hm]

/-- The reserved bits of STATUS are those but 3:0 and 8 (R16). -/
theorem status_reserved_iff (w : Word) :
    w &&& ~~~0x10F#64 = 0 ↔ ∀ b, b < 64 → 4 ≤ b ∧ b ≠ 8 → w.getLsbD b = false := by
  have hm : ∀ b, b < 64 → ((~~~0x10F#64).getLsbD b = true ↔ 4 ≤ b ∧ b ≠ 8) := by decide
  rw [and_mask_eq_zero_iff]
  exact forall₂_congr fun b hb => by rw [hm b hb]

/-- The reserved bits of ERRLOG are those but 6:1 (R18). -/
theorem errlog_reserved_iff (w : Word) :
    w &&& ~~~0x7E#64 = 0 ↔ ∀ b, b < 64 → ¬ (1 ≤ b ∧ b ≤ 6) → w.getLsbD b = false := by
  have hm : ∀ b, b < 64 → ((~~~0x7E#64).getLsbD b = true ↔ ¬ (1 ≤ b ∧ b ≤ 6)) := by decide
  rw [and_mask_eq_zero_iff]
  exact forall₂_congr fun b hb => by rw [hm b hb]

/-- No failure is logged when bits 6:1 of ERRLOG are 0 (R18). -/
theorem noFailureLogged_iff (s : State) :
    NoFailureLogged s ↔ ∀ b, b < 64 → 1 ≤ b ∧ b ≤ 6 → s.errlog.getLsbD b = false := by
  have hm : ∀ b, b < 64 → ((0x7E#64).getLsbD b = true ↔ 1 ≤ b ∧ b ≤ 6) := by decide
  rw [NoFailureLogged, and_mask_eq_zero_iff]
  exact forall₂_congr fun b hb => by rw [hm b hb]

/-- Replacing ERR keeps CFG_VALID (R16). -/
theorem statusWithErr_valid (w : Word) (k : Nat) : (statusWithErr w k).getLsbD 8 = w.getLsbD 8 :=
  statusWithErr_getLsbD w k 8 (by decide)

/-- Replacing ERR keeps the reserved bits of STATUS (R16). -/
theorem statusWithErr_reserved {w : Word} (k : Nat) (h : w &&& ~~~0x10F#64 = 0) :
    statusWithErr w k &&& ~~~0x10F#64 = 0 := by
  rw [status_reserved_iff] at h ⊢
  intro b hb hr
  rw [statusWithErr_getLsbD w k b hr.1, h b hb hr]

/-- Replacing CFG_VALID keeps the reserved bits of STATUS (R16). -/
theorem statusWithCfgValid_reserved {w : Word} (v : Bool) (h : w &&& ~~~0x10F#64 = 0) :
    statusWithCfgValid w v &&& ~~~0x10F#64 = 0 := by
  rw [status_reserved_iff] at h ⊢
  intro b hb hr
  rw [statusWithCfgValid_getLsbD w v b hr.2, h b hb hr]

/-- Replacing CFG_VALID keeps ERR (R16). -/
theorem statusWithCfgValid_err (w : Word) (v : Bool) :
    (statusWithCfgValid w v).extractLsb' 0 4 = w.extractLsb' 0 4 := by
  apply BitVec.eq_of_getLsbD_eq
  intro b hb
  simp only [BitVec.getLsbD_extractLsb', Nat.zero_add]
  rw [statusWithCfgValid_getLsbD w v b (by omega)]

/-- The code of an error fits ERR (R16, R111). -/
theorem toNat_ofNat_errCode (e : Err) : (BitVec.ofNat 4 (errCode e)).toNat = errCode e := by
  cases e <;> rfl

/-- The log of an error keeps the reserved bits of ERRLOG (R18). -/
theorem errlogWithBit_reserved {w : Word} (e : Err) (h : w &&& ~~~0x7E#64 = 0) :
    errlogWithBit w (errCode e) &&& ~~~0x7E#64 = 0 := by
  rw [errlog_reserved_iff] at h ⊢
  intro b hb hr
  have he := errCode_range e
  have hne : b ≠ errCode e := by omega
  rw [errlogWithBit_getLsbD w _ b (by omega), h b hb hr, decide_eq_false hne, Bool.or_false]

/-- Write 1 to clear, on bits 6:1 only (R18). -/
theorem errlogAfterWrite_getLsbD (w v : Word) (b : Nat) :
    (errlogAfterWrite w v).getLsbD b = (w.getLsbD b && !(v.getLsbD b && decide (1 ≤ b ∧ b ≤ 6))) := by
  have hm : ∀ c, c < 64 → errlogBits.getLsbD c = decide (1 ≤ c ∧ c ≤ 6) := by decide
  by_cases hb : b < 64
  · simp only [errlogAfterWrite, BitVec.getLsbD_and, BitVec.getLsbD_not, hb, decide_true, Bool.true_and, hm b hb]
  · simp only [BitVec.getLsbD_of_ge _ b (Nat.not_lt.1 hb), Bool.false_and]

/-- Write 1 to clear sets no bit (R18). -/
theorem errlogAfterWrite_reserved {w : Word} (v : Word) (h : w &&& ~~~0x7E#64 = 0) :
    errlogAfterWrite w v &&& ~~~0x7E#64 = 0 := by
  rw [errlog_reserved_iff] at h ⊢
  intro b hb hr
  rw [errlogAfterWrite_getLsbD, h b hb hr, Bool.false_and]

end Sys2Proof.Proofs
end

section
/-! PROOFS. What a step can do to the registers that configure the block and report on it, said once: `CommandEnd` for a
command, `StepEffect` for every step. The invariants and the statements about every step take these cases apart. -/

namespace Sys2Proof.Proofs

open Sys2Proof.Machine Sys2Proof.Safety Sys2Proof.Laws

/-- STATUS, ERRLOG, MODULUS, DIM, registers 6 to 11 and the parameters are the same in both states. -/
structure SameConfig (s t : State) : Prop where
  status : t.status = s.status
  errlog : t.errlog = s.errlog
  modulus : t.modulus = s.modulus
  dim : t.dim = s.dim
  laneWidth : t.laneWidth = s.laneWidth
  lanePitch : t.lanePitch = s.lanePitch
  lanesPerWord : t.lanesPerWord = s.lanesPerWord
  valueMask : t.valueMask = s.valueMask
  guardMask : t.guardMask = s.guardMask
  wordCount : t.wordCount = s.wordCount
  params : t.params = s.params

/-- The work of a command keeps the configuration (R61). -/
theorem sameConfig_of_workOnly {i : Instr} {s u : State} (h : WorkOnly i s u) : SameConfig s u := by
  rcases h with ⟨h, -⟩ | ⟨h, -, -⟩ | ⟨h, -⟩
  · unfold OnlyMemAndPort at h
    constructor <;> rw [h]
  all_goals constructor <;> rw [h]

/-- The work of a command changes RESULT only in a comparison (R17, R61). -/
theorem result_of_workOnly {i : Instr} {s u : State} (h : WorkOnly i s u) :
    u.result = s.result ∨ (i = .cmpeq ∨ ∃ q, i = .cmpeqq q) ∧
      (u.result = 0 ∨ u.result = 1 ∨ (u.result = 2 ∧ i ≠ .cmpeq)) := by
  rcases h with ⟨h, -⟩ | ⟨-, hi, hr⟩ | ⟨h, -⟩
  · unfold OnlyMemAndPort at h
    left; rw [h]
  · exact .inr ⟨hi, hr⟩
  · left; rw [h]

/-- A write to a register other than ERRLOG, MODULUS and DIM keeps the configuration (R31). -/
theorem sameConfig_writeReg {r : Reg} (v : Word) (s : State) (he : r ≠ .errlog) (hm : r ≠ .modulus) (hd : r ≠ .dim) :
    SameConfig s (writeReg r v s) := by
  cases r with
  | errlog => exact absurd rfl he
  | modulus => exact absurd rfl hm
  | dim => exact absurd rfl hd
  | _ => constructor <;> rfl

/-- The four endings of a command: LAYOUT installs a layout or clears it; any other command fails in one of its checks,
or does its work and completes (R70, R110). -/
inductive CommandEnd (i : Instr) (s t : State) : Prop
  | installed (l : Nat) (hi : i = .layout) (hl : laneWidthOf s.modulus.toNat = some l)
      (ht : t = complete (installLayout (deriveLayout l) s))
  | cleared (hi : i = .layout) (ht : t = raise .config (clearLayout s))
  | failed (e : Err) (hi : i ≠ .layout) (ht : t = raise e s)
  | completed (u : State) (hi : i ≠ .layout) (ht : t = complete u) (hw : WorkOnly i s u)

/-- Every command that answers ends in one of the four ways. -/
theorem commandEnd_of_exec {i : Instr} {s t : State} (h : exec i s = .next t) : CommandEnd i s t := by
  by_cases hi : i = .layout
  · subst hi
    rcases exec_layout_cases h with ⟨-, ht⟩ | ⟨l, hl, ht⟩
    · exact .cleared rfl ht
    · exact .installed l rfl hl ht
  · rcases exec_cases h hi with ⟨e, -, ht⟩ | ⟨-, u, ht, -, hw⟩
    · exact .failed e hi ht
    · exact .completed u hi ht hw

/-- What a step can do to the configuration: run a command, report an illegal word, clear ERRLOG bits, invalidate the
layout, reset, or keep it all. -/
inductive StepEffect (s t : State) : Prop
  | command (c : Word) (rest : List HostAction) (i : Instr) (hs : s.script = .write 0 c :: rest)
      (hd : decode c = .ok i) (he : CommandEnd i (s.withScript rest) t)
  | illegal (c : Word) (rest : List HostAction) (hs : s.script = .write 0 c :: rest)
      (ht : t = raise .illegal (s.withScript rest))
  | errlogWrite (v : Word) (rest : List HostAction) (hs : s.script = .write 3 v :: rest)
      (ht : t = writeReg .errlog v (s.withScript rest))
  | modulusWrite (v : Word) (rest : List HostAction) (hs : s.script = .write 4 v :: rest)
      (ht : t = clearLayout { s.withScript rest with modulus := v })
  | dimWrite (v : Word) (rest : List HostAction) (hs : s.script = .write 5 v :: rest)
      (ht : t = clearLayout { s.withScript rest with dim := v })
  | reset (rest : List HostAction) (hs : s.script = .reset :: rest) (ht : t = resetEvent (s.withScript rest))
  | kept (hs : ∀ c rest, s.script ≠ .write 0 c :: rest) (hk : SameConfig s t) (hr : t.result = s.result)

/-- A write to a register other than CMD has one of the effects. -/
theorem stepEffect_of_writeReg {s : State} {num : Nat} {r : Reg} {v : Word} {rest : List HostAction}
    (hs : s.script = .write num v :: rest) (hn : regOfNum num = some r) (hc : r ≠ .cmd) :
    StepEffect s (writeReg r v (s.withScript rest)) := by
  obtain rfl := regOfNum_eq_some hn
  by_cases he : r = .errlog
  · subst he; exact .errlogWrite v rest hs rfl
  by_cases hm : r = .modulus
  · subst hm; exact .modulusWrite v rest hs rfl
  by_cases hd : r = .dim
  · subst hd; exact .dimWrite v rest hs rfl
  have hk := sameConfig_writeReg v (s.withScript rest) he hm hd
  refine .kept (fun c rest' h => hc ?_) ⟨hk.1, hk.2, hk.3, hk.4, hk.5, hk.6, hk.7, hk.8, hk.9, hk.10, hk.11⟩
    (writeReg_keeps r v (s.withScript rest)).1
  rw [hs] at h
  simp only [List.cons.injEq, HostAction.write.injEq] at h
  rw [h.1.1] at hn
  exact (Option.some.inj hn).symm

/-- Every step that answers has one of the effects. -/
theorem stepEffect_of_step {s t : State} (h : step s = .next t) : StepEffect s t := by
  rcases step_cases h with ⟨hs, rfl⟩ | ⟨x, rest, hs, hx⟩
  · exact .kept (by simp [hs]) (by constructor <;> rfl) rfl
  rcases hostAction_eq_next hx with ⟨c, i, rfl, hd, he⟩ | ⟨c, e, rfl, -, ht⟩ | ⟨num, r, v, rfl, hn, hc, rfl⟩ |
    ⟨num, v, rfl, hn, rfl⟩ | ⟨num, rfl, rfl⟩ | ⟨a, v, rfl, -, rfl⟩ | ⟨a, rfl, -, rfl⟩ | ⟨a, v, rfl, -, rfl⟩ |
    ⟨a, rfl, -, rfl⟩ | ⟨rfl, ht⟩
  · exact .command c rest i hs hd (commandEnd_of_exec he)
  · exact .illegal c rest hs ht
  · exact stepEffect_of_writeReg hs hn hc
  · refine .kept (fun c rest' h => ?_) (by constructor <;> rfl) rfl
    rw [hs] at h
    simp only [List.cons.injEq, HostAction.write.injEq] at h
    rw [h.1.1] at hn
    cases hn
  on_goal 6 => exact .reset rest hs ht
  all_goals exact .kept (by simp [hs]) (by constructor <;> simp) (by simp)

/-! What a command reports. -/

/-- The two reports of a command: ERR = 0 and ERRLOG kept, or the code of an error in ERR and its bit set in ERRLOG
(R112, R113). -/
def Reports (s t : State) : Prop :=
  (t.errlog = s.errlog ∧ t.status.extractLsb' 0 4 = 0) ∨
    ∃ e, t.errlog = errlogWithBit s.errlog (errCode e) ∧ t.status.extractLsb' 0 4 = BitVec.ofNat 4 (errCode e)

theorem reports_complete {s u : State} (h : u.errlog = s.errlog) : Reports s (complete u) :=
  .inl ⟨h, statusWithErr_err u.status 0⟩

theorem reports_raise (e : Err) {s u : State} (h : u.errlog = s.errlog) : Reports s (raise e u) :=
  .inr ⟨e, by rw [raise_errlog, h], statusWithErr_err u.status _⟩

/-- Every command reports how it ended. -/
theorem reports_of_commandEnd {i : Instr} {s t : State} (h : CommandEnd i s t) : Reports s t := by
  cases h with
  | installed l hi hl ht => subst ht; exact reports_complete rfl
  | cleared hi ht => subst ht; exact reports_raise .config rfl
  | failed e hi ht => subst ht; exact reports_raise e rfl
  | completed u hi ht hw => subst ht; exact reports_complete (sameConfig_of_workOnly hw).errlog

section reports

variable {s t : State} {k : Nat}

/-- A report is one on the state in which the action was still to come. -/
theorem Reports.of_withScript {rest : List HostAction} (h : Reports (s.withScript rest) t) : Reports s t := h

/-- No report takes a bit out of ERRLOG. -/
theorem Reports.bit_kept (h : Reports s t) (hk : s.errlog.getLsbD k = true) : t.errlog.getLsbD k = true := by
  rcases h with ⟨hl, -⟩ | ⟨e, hl, -⟩
  · rw [hl, hk]
  · have he := errCode_range e
    rw [hl, errlogWithBit_getLsbD _ _ _ (by omega), hk, Bool.true_or]

/-- A bit that a report sets in ERRLOG is that of ERR. -/
theorem Reports.err_of_bit_gained (h : Reports s t) (hs : s.errlog.getLsbD k = false)
    (ht : t.errlog.getLsbD k = true) : (t.status.extractLsb' 0 4).toNat = k := by
  rcases h with ⟨hl, -⟩ | ⟨e, hl, herr⟩
  · rw [hl, hs] at ht; cases ht
  · have he := errCode_range e
    rw [hl, errlogWithBit_getLsbD _ _ _ (by omega), hs, Bool.false_or, decide_eq_true_eq] at ht
    rw [herr, toNat_ofNat_errCode, ht]

/-- A report of an error leaves its bit set in ERRLOG. -/
theorem Reports.bit_of_err (h : Reports s t) (hk : 1 ≤ k) (herr : (t.status.extractLsb' 0 4).toNat = k) :
    t.errlog.getLsbD k = true := by
  rcases h with ⟨-, h0⟩ | ⟨e, hl, he⟩
  · rw [h0] at herr
    exact absurd herr (Nat.ne_of_lt hk)
  · have hr := errCode_range e
    rw [he, toNat_ofNat_errCode] at herr
    rw [hl, errlogWithBit_getLsbD _ _ _ (by omega), decide_eq_true herr.symm, Bool.or_true]

/-- From a clear log, a report leaves the log clear exactly when ERR = 0. -/
theorem Reports.noFailureLogged_iff_err (h : Reports s t) (hs : NoFailureLogged s) :
    NoFailureLogged t ↔ t.status.extractLsb' 0 4 = 0 := by
  rcases h with ⟨hl, h0⟩ | ⟨e, hl, he⟩
  · exact iff_of_true (by rw [NoFailureLogged, hl]; exact hs) h0
  · have hr := errCode_range e
    have herr := toNat_ofNat_errCode e
    refine iff_of_false (fun hn => ?_) (fun h0 => ?_)
    · have hb := (noFailureLogged_iff t).1 hn (errCode e) (by omega) hr
      rw [hl, errlogWithBit_getLsbD _ _ _ (by omega), decide_eq_true rfl, Bool.or_true] at hb
      cases hb
    · rw [he] at h0
      rw [h0] at herr
      exact absurd herr (Nat.ne_of_lt hr.1)

end reports

/-! A command without a layout. -/

/-- Every command but LAYOUT has the prologue of its row (R118). -/
theorem exec_eq_withPrologue (i : Instr) (s : State) (hi : i ≠ .layout) :
    ∃ work, exec i s = withPrologue (usesA i) (usesB i) (usesIdx i) s work := by
  cases i with
  | layout => exact absurd rfl hi
  | copy => exact ⟨_, exec_copy s⟩
  | cmpeq => exact ⟨_, exec_cmpeq s⟩
  | cmpeqq q => exact ⟨_, exec_cmpeqq q s⟩
  | add => exact ⟨_, exec_add s⟩
  | smul factor => exact ⟨_, exec_smul factor s⟩
  | lget => exact ⟨_, exec_lget s⟩
  | lset => exact ⟨_, exec_lset s⟩

/-- A failing check ends a command in that check's error, with nothing else changed (R113, R118). -/
theorem exec_of_prologue_some {i : Instr} {s : State} {e : Err} (hi : i ≠ .layout)
    (hp : prologue (usesA i) (usesB i) (usesIdx i) s = some e) : exec i s = .next (failed (errCode e) s) := by
  obtain ⟨work, hw⟩ := exec_eq_withPrologue i s hi
  rw [hw, withPrologue, hp, ← raise_eq_failed]

/-- The first check is for a layout (R115, R118). -/
theorem prologue_of_not_valid {useA useB useIdx : Bool} {s : State} (h : s.status.getLsbD 8 = false) :
    prologue useA useB useIdx s = some .noConfig := by
  rw [prologue, statusCfgValid, h]
  rfl

end Sys2Proof.Proofs
end

section
/-! PROOFS. The layout invariant R32: what each update of the state does to it, and that every step keeps it. -/

namespace Sys2Proof.Proofs

open Sys2Proof.Machine Sys2Proof.Safety Sys2Proof.Laws

theorem layoutInv_of_sameConfig {s t : State} (h : SameConfig s t) (hs : LayoutInv s) : LayoutInv t := by
  simpa only [LayoutInv, LayoutCleared, HoldsLayout, h.status, h.modulus, h.dim, h.laneWidth, h.lanePitch,
    h.lanesPerWord, h.valueMask, h.guardMask, h.wordCount] using hs

/-- The invariant does not look at ERR or ERRLOG. -/
theorem layoutInv_raise {e : Err} {s : State} (hs : LayoutInv s) : LayoutInv (raise e s) := by
  rw [LayoutInv, raise_status, statusWithErr_valid]
  exact hs

/-- The invariant does not look at ERR. -/
theorem layoutInv_complete {s : State} (hs : LayoutInv s) : LayoutInv (complete s) := by
  rw [LayoutInv, complete_status, statusWithErr_valid]
  exact hs

/-- Without a layout the invariant holds, whatever held before (R32 i). -/
theorem layoutInv_clearLayout (s : State) : LayoutInv (clearLayout s) :=
  .inl ⟨statusWithCfgValid_valid _ _, rfl, rfl, rfl, rfl, rfl, rfl⟩

/-- The count of words of any DIM fits its register (R24, R75). -/
theorem wordCountOf_lt {d n : Nat} (hd : d < 2 ^ 64) (hn : 1 ≤ n) : wordCountOf d n < 2 ^ 64 :=
  Nat.div_lt_of_lt_mul (by omega)

/-- The layout that LAYOUT installs is the one of MODULUS and DIM (R32 ii, R70). -/
theorem layoutInv_installLayout {s : State} {l : Nat} (h : laneWidthOf s.modulus.toNat = some l) :
    LayoutInv (installLayout (deriveLayout l) s) := by
  obtain ⟨h2, h32, hp⟩ := laneWidthOf_eq_some h
  obtain ⟨hfit, hpitch, hslots⟩ := lanePitchOf_fits l h32 h2
  have hn : 1 ≤ 64 / lanePitchOf l := Nat.div_pos (by omega) (by omega)
  have hn64 : 64 / lanePitchOf l ≤ 64 := Nat.div_le_self _ _
  refine .inr ⟨statusWithCfgValid_valid _ _, l, h32, h2, hp, ?_, ?_, ?_, rfl, rfl, ?_⟩
  · exact Nat.mod_eq_of_lt (show l < 2 ^ 64 by omega)
  · exact Nat.mod_eq_of_lt (show lanePitchOf l < 2 ^ 64 by omega)
  · exact Nat.mod_eq_of_lt (show 64 / lanePitchOf l < 2 ^ 64 by omega)
  · exact Nat.mod_eq_of_lt (wordCountOf_lt s.dim.isLt hn)

theorem layoutInv_resetEvent (s : State) : LayoutInv (resetEvent s) :=
  .inl ⟨BitVec.getLsbD_zero, rfl, rfl, rfl, rfl, rfl, rfl⟩

/-- Every command keeps the invariant. -/
theorem layoutInv_of_commandEnd {i : Instr} {s t : State} (h : CommandEnd i s t) (hs : LayoutInv s) : LayoutInv t := by
  cases h with
  | installed l hi hl ht => rw [ht]; exact layoutInv_complete (layoutInv_installLayout hl)
  | cleared hi ht => rw [ht]; exact layoutInv_raise (layoutInv_clearLayout s)
  | failed e hi ht => rw [ht]; exact layoutInv_raise hs
  | completed u hi ht hw => rw [ht]; exact layoutInv_complete (layoutInv_of_sameConfig (sameConfig_of_workOnly hw) hs)

theorem layoutInv_withScript {s : State} (rest : List HostAction) (hs : LayoutInv s) :
    LayoutInv (s.withScript rest) := hs

/-- Every step keeps the invariant. -/
theorem layoutInv_of_step {s t : State} (h : step s = .next t) (hs : LayoutInv s) : LayoutInv t := by
  cases stepEffect_of_step h with
  | command c rest i hs' hd he => exact layoutInv_of_commandEnd he (layoutInv_withScript rest hs)
  | illegal c rest hs' ht => rw [ht]; exact layoutInv_raise (layoutInv_withScript rest hs)
  | errlogWrite v rest hs' ht => rw [ht]; exact layoutInv_withScript rest hs
  | modulusWrite v rest hs' ht => rw [ht]; exact layoutInv_clearLayout _
  | dimWrite v rest hs' ht => rw [ht]; exact layoutInv_clearLayout _
  | reset rest hs' ht => rw [ht]; exact layoutInv_resetEvent _
  | kept hs' hk hr => exact layoutInv_of_sameConfig hk hs

/-- Settles O54: the step lemma above, and the cleared layout of reset. -/
theorem layoutInvariantIsKept : Obligations.LayoutInvariantIsKept :=
  ⟨layoutInv_resetEvent State.reset, fun _ _ hs h => layoutInv_of_step h hs⟩

end Sys2Proof.Proofs
end

section
/-! PROOFS. The invariant of the fields: reserved bits are 0 and the codes are ones that the block produces. -/

namespace Sys2Proof.Proofs

open Sys2Proof.Machine Sys2Proof.Safety Sys2Proof.Laws

/-- Equal fields are legal in one state when they are in the other. -/
theorem fieldsLegal_congr {s t : State} (hst : t.status = s.status) (hr : t.result = s.result)
    (he : t.errlog = s.errlog) (hs : FieldsLegal s) : FieldsLegal t := by
  simpa only [FieldsLegal, hst, hr, he] using hs

theorem fieldsLegal_complete {s : State} (hs : FieldsLegal s) : FieldsLegal (complete s) := by
  obtain ⟨hst, -, hr, he⟩ := hs
  exact ⟨statusWithErr_reserved 0 hst, by rw [complete_status, statusWithErr_err]; decide, hr, he⟩

theorem fieldsLegal_raise (e : Err) {s : State} (hs : FieldsLegal s) : FieldsLegal (raise e s) := by
  obtain ⟨hst, -, hr, he⟩ := hs
  refine ⟨statusWithErr_reserved _ hst, ?_, hr, errlogWithBit_reserved e he⟩
  rw [raise_status, statusWithErr_err, toNat_ofNat_errCode]
  exact (errCode_range e).2

/-- A replaced CFG_VALID leaves every field legal. -/
theorem fieldsLegal_of_cfgValid {s t : State} {v : Bool} (hst : t.status = statusWithCfgValid s.status v)
    (hr : t.result = s.result) (he : t.errlog = s.errlog) (hs : FieldsLegal s) : FieldsLegal t := by
  obtain ⟨h1, h2, h3, h4⟩ := hs
  rw [FieldsLegal, hst, hr, he, statusWithCfgValid_err]
  exact ⟨statusWithCfgValid_reserved v h1, h2, h3, h4⟩

theorem fieldsLegal_resetEvent (s : State) : FieldsLegal (resetEvent s) := by
  refine ⟨?_, ?_, ?_, ?_⟩ <;> simp

/-- A command's work keeps the fields legal: a comparison's code is 0, 1 or 2 (R17). -/
theorem fieldsLegal_of_workOnly {i : Instr} {s u : State} (h : WorkOnly i s u) (hs : FieldsLegal s) :
    FieldsLegal u := by
  have hk := sameConfig_of_workOnly h
  rcases result_of_workOnly h with hr | ⟨-, hr⟩
  · exact fieldsLegal_congr hk.status hr hk.errlog hs
  · obtain ⟨h1, h2, -, h4⟩ := hs
    rw [FieldsLegal, hk.status, hk.errlog]
    refine ⟨h1, h2, ?_, h4⟩
    rcases hr with hr | hr | ⟨hr, -⟩ <;> rw [hr] <;> decide

/-- Every command keeps the fields legal. -/
theorem fieldsLegal_of_commandEnd {i : Instr} {s t : State} (h : CommandEnd i s t) (hs : FieldsLegal s) :
    FieldsLegal t := by
  cases h with
  | installed l hi hl ht => rw [ht]; exact fieldsLegal_complete (fieldsLegal_of_cfgValid rfl rfl rfl hs)
  | cleared hi ht => rw [ht]; exact fieldsLegal_raise .config (fieldsLegal_of_cfgValid rfl rfl rfl hs)
  | failed e hi ht => rw [ht]; exact fieldsLegal_raise e hs
  | completed u hi ht hw => rw [ht]; exact fieldsLegal_complete (fieldsLegal_of_workOnly hw hs)

/-- Settles O55, effect by effect. -/
theorem fieldsStayLegal : Obligations.FieldsStayLegal := by
  intro s t hs h
  have hw (rest : List HostAction) : FieldsLegal (s.withScript rest) := hs
  cases stepEffect_of_step h with
  | command c rest i hs' hd he => exact fieldsLegal_of_commandEnd he (hw rest)
  | illegal c rest hs' ht => rw [ht]; exact fieldsLegal_raise .illegal (hw rest)
  | errlogWrite v rest hs' ht =>
    obtain ⟨h1, h2, h3, h4⟩ := hs
    rw [ht]; exact ⟨h1, h2, h3, errlogAfterWrite_reserved v h4⟩
  | modulusWrite v rest hs' ht => rw [ht]; exact fieldsLegal_of_cfgValid rfl rfl rfl hs
  | dimWrite v rest hs' ht => rw [ht]; exact fieldsLegal_of_cfgValid rfl rfl rfl hs
  | reset rest hs' ht => rw [ht]; exact fieldsLegal_resetEvent _
  | kept hs' hk hr => exact fieldsLegal_congr hk.status hr hk.errlog hs

/-- Settles O58: the reset state is its own reset event, after which both invariants hold. -/
theorem resetMeetsTheInvariants : Obligations.ResetMeetsTheInvariants :=
  ⟨layoutInv_resetEvent State.reset, fieldsLegal_resetEvent State.reset, rfl, rfl, rfl, rfl⟩

end Sys2Proof.Proofs
end

section
/-! PROOFS. What every step can do to the parameters, RESULT, CFG_VALID and ERRLOG. -/

namespace Sys2Proof.Proofs

open Sys2Proof.Machine Sys2Proof.Safety Sys2Proof.Laws

theorem params_of_commandEnd {i : Instr} {s t : State} (h : CommandEnd i s t) : t.params = s.params := by
  cases h with
  | installed l hi hl ht => rw [ht]; rfl
  | cleared hi ht => rw [ht]; rfl
  | failed e hi ht => rw [ht]; rfl
  | completed u hi ht hw => rw [ht]; exact (sameConfig_of_workOnly hw).params

/-- Settles O57, effect by effect. -/
theorem parametersNeverChange : Obligations.ParametersNeverChange := by
  intro s t h
  cases stepEffect_of_step h with
  | command c rest i hs hd he => exact (params_of_commandEnd he).trans (withScript_params s rest)
  | kept hs hk hr => exact hk.params
  | illegal c rest hs ht => rw [ht]; rfl
  | errlogWrite v rest hs ht => rw [ht]; rfl
  | modulusWrite v rest hs ht => rw [ht]; rfl
  | dimWrite v rest hs ht => rw [ht]; rfl
  | reset rest hs ht => rw [ht]; rfl

/-- A command changes RESULT only where it is a comparison that completes (R17). -/
theorem result_of_commandEnd {i : Instr} {s t : State} (h : CommandEnd i s t) :
    t.result = s.result ∨ (i = .cmpeq ∨ ∃ q, i = .cmpeqq q) ∧ t.status.extractLsb' 0 4 = 0 ∧
      (t.result = 0 ∨ t.result = 1 ∨ (t.result = 2 ∧ i ≠ .cmpeq)) := by
  cases h with
  | installed l hi hl ht => rw [ht]; exact .inl rfl
  | cleared hi ht => rw [ht]; exact .inl rfl
  | failed e hi ht => rw [ht]; exact .inl rfl
  | completed u hi ht hw =>
    rw [ht]
    rcases result_of_workOnly hw with hr | ⟨hc, hr⟩
    · exact .inl hr
    · exact .inr ⟨hc, statusWithErr_err u.status 0, hr⟩

/-- Settles O52: of the seven effects only a command and reset reach RESULT. -/
theorem resultChangesOnlyByCompare : Obligations.ResultChangesOnlyByCompare := by
  intro s t h hne
  cases stepEffect_of_step h with
  | command c rest i hs hd he =>
    rcases result_of_commandEnd he with hr | ⟨hi, hok, hr⟩
    · exact absurd hr hne
    · exact .inl ⟨c, rest, i, hs, hd, hi, hok, hr⟩
  | reset rest hs ht => exact .inr ⟨rest, hs⟩
  | kept hs hk hr => exact absurd hr hne
  | illegal c rest hs ht => rw [ht] at hne; exact absurd rfl hne
  | errlogWrite v rest hs ht => rw [ht] at hne; exact absurd rfl hne
  | modulusWrite v rest hs ht => rw [ht] at hne; exact absurd rfl hne
  | dimWrite v rest hs ht => rw [ht] at hne; exact absurd rfl hne

/-- A command changes CFG_VALID only where it is LAYOUT, which sets it exactly when it completes (R16, R70). -/
theorem cfgValid_of_commandEnd {i : Instr} {s t : State} (h : CommandEnd i s t) :
    t.status.getLsbD 8 = s.status.getLsbD 8 ∨
      (i = .layout ∧ t.status.getLsbD 8 = true ∧ t.status.extractLsb' 0 4 = 0) ∨
      (i = .layout ∧ t.status.getLsbD 8 = false ∧ t.status.extractLsb' 0 4 = 1) := by
  cases h with
  | installed l hi hl ht =>
    refine .inr (.inl ⟨hi, ?_, ?_⟩) <;> rw [ht]
    · exact (statusWithErr_valid _ _).trans (statusWithCfgValid_valid _ _)
    · exact statusWithErr_err _ 0
  | cleared hi ht =>
    refine .inr (.inr ⟨hi, ?_, ?_⟩) <;> rw [ht]
    · exact (statusWithErr_valid _ _).trans (statusWithCfgValid_valid _ _)
    · exact statusWithErr_err _ 1
  | failed e hi ht => rw [ht]; exact .inl (statusWithErr_valid _ _)
  | completed u hi ht hw =>
    rw [ht, complete_status, (sameConfig_of_workOnly hw).status]
    exact .inl (statusWithErr_valid _ _)

/-- What a step can do to CFG_VALID: keep it, set it by a LAYOUT that completes, or clear it in one of the ways of
R16. -/
theorem cfgValid_of_step {s t : State} (h : step s = .next t) :
    t.status.getLsbD 8 = s.status.getLsbD 8 ∨
      (t.status.getLsbD 8 = true ∧
        ∃ c rest, s.script = .write 0 c :: rest ∧ decode c = .ok .layout ∧ t.status.extractLsb' 0 4 = 0) ∨
      (t.status.getLsbD 8 = false ∧
        ((∃ c rest, s.script = .write 0 c :: rest ∧ decode c = .ok .layout ∧ t.status.extractLsb' 0 4 = 1) ∨
          (∃ num v rest, s.script = .write num v :: rest ∧ (num = 4 ∨ num = 5)) ∨
          ∃ rest, s.script = .reset :: rest)) := by
  cases stepEffect_of_step h with
  | command c rest i hs hd he =>
    rcases cfgValid_of_commandEnd he with hv | ⟨rfl, hv, herr⟩ | ⟨rfl, hv, herr⟩
    · exact .inl hv
    · exact .inr (.inl ⟨hv, c, rest, hs, hd, herr⟩)
    · exact .inr (.inr ⟨hv, .inl ⟨c, rest, hs, hd, herr⟩⟩)
  | illegal c rest hs ht => rw [ht]; exact .inl (statusWithErr_valid _ _)
  | errlogWrite v rest hs ht => rw [ht]; exact .inl rfl
  | modulusWrite v rest hs ht =>
    rw [ht]
    exact .inr (.inr ⟨statusWithCfgValid_valid _ _, .inr (.inl ⟨4, v, rest, hs, .inl rfl⟩)⟩)
  | dimWrite v rest hs ht =>
    rw [ht]
    exact .inr (.inr ⟨statusWithCfgValid_valid _ _, .inr (.inl ⟨5, v, rest, hs, .inr rfl⟩)⟩)
  | reset rest hs ht =>
    rw [ht, resetEvent_status]
    exact .inr (.inr ⟨BitVec.getLsbD_zero, .inr (.inr ⟨rest, hs⟩)⟩)
  | kept hs hk hr => rw [hk.status]; exact .inl rfl

/-- Settles O53, from the three things a step can do to CFG_VALID. -/
theorem cfgValidChangesOnlyByLayoutAndWrites : Obligations.CfgValidChangesOnlyByLayoutAndWrites := by
  intro s t h
  rcases cfgValid_of_step h with hv | ⟨hv, hset⟩ | ⟨hv, hclear⟩
  · rw [hv]
    exact ⟨fun h0 h1 => absurd (h0.symm.trans h1) Bool.false_ne_true,
      fun h1 h0 => absurd (h0.symm.trans h1) Bool.false_ne_true⟩
  · exact ⟨fun _ _ => hset, fun _ h0 => absurd (h0.symm.trans hv) Bool.false_ne_true⟩
  · exact ⟨fun _ h1 => absurd (hv.symm.trans h1) Bool.false_ne_true, fun _ _ => hclear⟩

/-- A write to CMD reports how the command ended, ERR_ILLEGAL for a word that is none (R113, R114). -/
theorem reports_of_write_cmd {s t : State} {c : Word} {rest : List HostAction} (hs : s.script = .write 0 c :: rest)
    (h : step s = .next t) : Reports s t := by
  cases stepEffect_of_step h with
  | command c' rest' i hs' hd he => exact (reports_of_commandEnd he).of_withScript
  | illegal c' rest' hs' ht => rw [ht]; exact reports_raise .illegal rfl
  | kept hs' hk hr => exact absurd hs (hs' c rest)
  | errlogWrite v rest' hs' ht => rw [hs] at hs'; cases hs'
  | modulusWrite v rest' hs' ht => rw [hs] at hs'; cases hs'
  | dimWrite v rest' hs' ht => rw [hs] at hs'; cases hs'
  | reset rest' hs' ht => rw [hs] at hs'; cases hs'

/-- What a step can do to ERRLOG: report a command, clear the bits that the host writes, clear all by reset, or keep it
(R18). -/
theorem errlog_of_step {s t : State} (h : step s = .next t) :
    ((∃ c rest, s.script = .write 0 c :: rest) ∧ Reports s t) ∨
      (∃ v rest, s.script = .write 3 v :: rest ∧ t.errlog = errlogAfterWrite s.errlog v) ∨
      ((∃ rest, s.script = .reset :: rest) ∧ t.errlog = 0) ∨ t.errlog = s.errlog := by
  cases stepEffect_of_step h with
  | command c rest i hs hd he => exact .inl ⟨⟨c, rest, hs⟩, reports_of_write_cmd hs h⟩
  | illegal c rest hs ht => exact .inl ⟨⟨c, rest, hs⟩, reports_of_write_cmd hs h⟩
  | errlogWrite v rest hs ht => rw [ht]; exact .inr (.inl ⟨v, rest, hs, rfl⟩)
  | modulusWrite v rest hs ht => rw [ht]; exact .inr (.inr (.inr rfl))
  | dimWrite v rest hs ht => rw [ht]; exact .inr (.inr (.inr rfl))
  | reset rest hs ht => rw [ht]; exact .inr (.inr (.inl ⟨⟨rest, hs⟩, rfl⟩))
  | kept hs hk hr => exact .inr (.inr (.inr hk.errlog))

/-- A bit of ERRLOG is lost only to a write with that bit set or to reset (R18). -/
theorem errlog_bit_lost {s t : State} {k : Nat} (h : step s = .next t) (hs : s.errlog.getLsbD k = true)
    (ht : t.errlog.getLsbD k = false) :
    (∃ v rest, s.script = .write 3 v :: rest ∧ v.getLsbD k = true ∧ 1 ≤ k ∧ k ≤ 6) ∨
      ∃ rest, s.script = .reset :: rest := by
  rcases errlog_of_step h with ⟨-, hr⟩ | ⟨v, rest, hv, he⟩ | ⟨hreset, -⟩ | he
  · rw [hr.bit_kept hs] at ht; cases ht
  · rw [he, errlogAfterWrite_getLsbD, hs] at ht
    exact .inl ⟨v, rest, hv, by simpa using ht⟩
  · exact .inr hreset
  · rw [he, hs] at ht; cases ht

/-- A bit of ERRLOG is gained only by a write to CMD that ends with that ERR (R18). -/
theorem errlog_bit_gained {s t : State} {k : Nat} (h : step s = .next t) (hs : s.errlog.getLsbD k = false)
    (ht : t.errlog.getLsbD k = true) :
    (∃ c rest, s.script = .write 0 c :: rest) ∧ (t.status.extractLsb' 0 4).toNat = k := by
  rcases errlog_of_step h with ⟨hc, hr⟩ | ⟨v, rest, -, he⟩ | ⟨-, he⟩ | he
  · exact ⟨hc, hr.err_of_bit_gained hs ht⟩
  · rw [he, errlogAfterWrite_getLsbD, hs] at ht; cases ht
  · simp [he] at ht
  · rw [he, hs] at ht; cases ht

/-- Settles O12: how a bit is lost, how it is gained, and that a reported error leaves it set. -/
theorem errlogBitsAreSticky : Obligations.ErrlogBitsAreSticky := fun _ _ _ h =>
  ⟨errlog_bit_lost h, errlog_bit_gained h, fun _ _ hs hk herr => (reports_of_write_cmd hs h).bit_of_err hk herr⟩

/-- Settles O13, by the two reports of a command. -/
theorem errlogTellsWhetherACommandFailed : Obligations.ErrlogTellsWhetherACommandFailed := fun _ _ _ hs h =>
  (reports_of_commandEnd (commandEnd_of_exec h)).noFailureLogged_iff_err hs

end Sys2Proof.Proofs
end

section
/-! PROOFS. The statements about single actions of the host. -/

namespace Sys2Proof.Proofs

open Sys2Proof.Machine Sys2Proof.Safety Sys2Proof.Laws

/-- Settles O9: the two writes, the failing check for a layout, and O53 for what sets CFG_VALID. -/
theorem writeOfModulusOrDimInvalidates : Obligations.WriteOfModulusOrDimInvalidates := by
  refine ⟨fun s v rest => ⟨fun hs => ?_, fun hs => ?_⟩, fun i s hi h => ?_, fun s t h => ?_⟩
  · rw [step_of_write (r := .modulus) hs rfl (by decide), writeReg, clearLayout_eq]
    rfl
  · rw [step_of_write (r := .dim) hs rfl (by decide), writeReg, clearLayout_eq]
    rfl
  · exact exec_of_prologue_some hi (prologue_of_not_valid h)
  · exact (cfgValidChangesOnlyByLayoutAndWrites s t h).1

/-- Settles O5. -/
theorem stepRunsDecodedCommand : Obligations.StepRunsDecodedCommand :=
  ⟨fun _ _ _ _ hs hd => step_of_command hs hd, fun _ => rfl⟩

/-- Settles O7: each of the eighteen numbers, and the reserved ones past the end of the list. -/
theorem hostReadReturnsRegister : Obligations.HostReadReturnsRegister := by
  intro s num rest hs
  rw [step_of_script hs, hostAction]
  by_cases h : num < 18
  · interval_cases num <;> rfl
  · rw [List.getD_eq_default _ _ (Nat.not_lt.1 h), hostReadReg, regOfNum_of_ge (Nat.not_lt.1 h)]
    rfl

/-- Settles O8, register by register. -/
theorem hostWriteStoresOperandRegister : Obligations.HostWriteStoresOperandRegister := fun _ _ _ =>
  ⟨fun hs => step_of_write (r := .aBase) hs rfl (by decide), fun hs => step_of_write (r := .aLen) hs rfl (by decide),
    fun hs => step_of_write (r := .bBase) hs rfl (by decide), fun hs => step_of_write (r := .bLen) hs rfl (by decide),
    fun hs => step_of_write (r := .laneIdx) hs rfl (by decide),
    fun hs => step_of_write (r := .laneData) hs rfl (by decide)⟩

/-- A read-only register ignores the host's write (R31 b). -/
theorem writeReg_of_readOnly {r : Reg} (v : Word) (s : State)
    (h : regNum r = 1 ∨ regNum r = 2 ∨ (6 ≤ regNum r ∧ regNum r ≤ 11)) : r ≠ .cmd ∧ writeReg r v s = s := by
  cases r with
  | status | result | laneWidth | lanePitch | lanesPerWord | valueMask | guardMask | wordCount =>
    exact ⟨by decide, rfl⟩
  | _ => exact absurd h (by decide)

/-- Settles O10: a number either names a register, a read-only one here, or is reserved. -/
theorem readOnlyRegistersIgnoreWrites : Obligations.ReadOnlyRegistersIgnoreWrites := by
  intro s num v rest hs hnum
  cases hr : regOfNum num with
  | none => exact step_of_reserved_write hs hr
  | some r =>
    obtain rfl := regOfNum_eq_some hr
    have hlt := regNum_lt r
    obtain ⟨hc, hw⟩ := writeReg_of_readOnly v (s.withScript rest) (r := r) (by omega)
    rw [step_of_write hs hr hc, hw]
    rfl

/-- Settles O11. -/
theorem errlogIsWriteOneToClear : Obligations.ErrlogIsWriteOneToClear := fun s v _ hs =>
  ⟨errlogAfterWrite s.errlog v, step_of_write (r := .errlog) hs rfl (by decide),
    fun k _ => errlogAfterWrite_getLsbD s.errlog v k⟩

/-- Settles O14: the reset state is its own reset event. -/
theorem resetClearsEveryRegister : Obligations.ResetClearsEveryRegister :=
  ⟨fun s rest hs => ⟨resetEvent (s.withScript rest), step_of_script hs, fun num => hostReadReg_resetEvent num _,
      rfl, rfl, rfl, rfl⟩,
    fun num => hostReadReg_resetEvent num State.reset, rfl, rfl, rfl⟩

/-- Settles O16, by the read-after-write laws of the memory. -/
theorem hostStoresAndLoadsWords : Obligations.HostStoresAndLoadsWords := by
  intro s a v rest hf
  have hfw : accessFault (s.withScript rest).params a = none := hf
  refine ⟨fun hs => ⟨s.mem.writeWord a v, ?_, readWord_writeWord_same _ _ _, fun j hj => ?_, fun b hb => ?_⟩,
    fun hs => ⟨s.mem.readWord a, ?_, fun j hj => readWord_byte _ _ _ hj⟩⟩
  · rw [step_of_script hs, hostAction, hostStore, hfw]
    rfl
  · rw [← readWord_byte _ _ _ hj, readWord_writeWord_same]
  · exact readByte_writeWord_other _ _ _ _ hb
  · rw [step_of_script hs, hostAction, hostLoad, hfw]
    rfl

/-- Settles O18: each of the four accesses is one to word a, whose fault is named by where a lies. -/
theorem hostAccessOutsideStorageFaults : Obligations.HostAccessOutsideStorageFaults := by
  intro s a j v b rest hj hx
  have hbyte : (8 * a + j) / 8 = a := by omega
  have hstep (f : Fault) (hf : accessFault s.params a = some f) : step s = .fault f := by
    rcases hx with hs | hs | hs | hs <;> rw [step_of_script hs]
    · exact hostAction_of_accessFault (a := a) rfl hf
    · exact hostAction_of_accessFault (a := a) rfl hf
    · exact hostAction_of_accessFault hbyte hf
    · exact hostAction_of_accessFault hbyte hf
  exact ⟨fun h => hstep _ (accessFault_of_outside h), fun h hh => hstep _ (accessFault_of_hole h hh)⟩

end Sys2Proof.Proofs
end

section
/-! PROOFS. When a command answers, said once: the list of its accesses decides it (R46, R54), the first access that is
not to storage giving the fault. -/

namespace Sys2Proof.Proofs

open Sys2Proof.Machine Sys2Proof.Safety Sys2Proof.Laws

/-- The fault of the first access of a list that is not to storage, if there is one (R42, R54). -/
def firstFault (p : Params) (xs : List Access) : Option Fault := xs.findSome? fun x => accessFault p (accessAddr x)

theorem firstFault_append (p : Params) (xs ys : List Access) :
    firstFault p (xs ++ ys) = (firstFault p xs).or (firstFault p ys) := List.findSome?_append

theorem firstFault_singleton (p : Params) (x : Access) : firstFault p [x] = accessFault p (accessAddr x) :=
  List.findSome?_singleton

/-- A command's accesses are all to storage exactly when none of them has a fault. -/
theorem portBacks_iff (i : Instr) (s : State) : PortBacks i s ↔ firstFault s.params (accesses i s) = none := by
  simp only [firstFault, List.findSome?_eq_none_iff, accessFault_eq_none]

/-- An outcome that the accesses xs decide: the first fault among them, or a next value with the property. -/
inductive FollowsAccesses {α : Type} (p : Params) (good : α → Prop) (xs : List Access) :
    Host.Outcome α Fault Refusal → Prop
  | stops (f : Fault) (hf : firstFault p xs = some f) : FollowsAccesses p good xs (.fault f)
  | answers (x : α) (hf : firstFault p xs = none) (hx : good x) : FollowsAccesses p good xs (.next x)

section followsAccesses

variable {α β : Type} {p : Params} {good : α → Prop} {good' : β → Prop} {xs ys : List Access}
  {o : Host.Outcome α Fault Refusal}

/-- A sequence makes the accesses of both parts. -/
theorem FollowsAccesses.seq {k : α → Host.Outcome β Fault Refusal} (ho : FollowsAccesses p good xs o)
    (hk : ∀ x, good x → FollowsAccesses p good' ys (k x)) : FollowsAccesses p good' (xs ++ ys) (andThen o k) := by
  cases ho with
  | stops f hf => exact .stops f (by rw [firstFault_append, hf, Option.some_or])
  | answers x hf hx =>
    have hxk := hk x hx
    rw [andThen_next]
    generalize k x = o' at hxk
    cases hxk with
    | stops f hf' => exact .stops f (by rw [firstFault_append, hf, Option.none_or, hf'])
    | answers y hf' hy => exact .answers y (by rw [firstFault_append, hf, Option.none_or, hf']) hy

/-- A sequence whose second part makes no access and always answers. -/
theorem FollowsAccesses.map {k : α → β} (ho : FollowsAccesses p good xs o) (hk : ∀ x, good x → good' (k x)) :
    FollowsAccesses p good' xs (andThen o fun x => .next (k x)) := by
  cases ho with
  | stops f hf => exact .stops f hf
  | answers x hf hx => exact .answers (k x) hf (hk x hx)

/-- A loop makes the accesses of its passes in ascending order. -/
theorem forWords_follows {body : Nat → α → Host.Outcome α Fault Refusal} {acc : Nat → List Access}
    (hb : ∀ i x, good x → FollowsAccesses p good (acc i) (body i x)) :
    ∀ (count lo : Nat) (x : α), good x →
      FollowsAccesses p good ((List.range' lo count).flatMap acc) (forWords body count lo x) := by
  intro count
  induction count with
  | zero => exact fun lo x hx => .answers x rfl hx
  | succ n ih =>
    intro lo x hx
    rw [List.range'_succ, List.flatMap_cons]
    exact (hb lo x hx).seq (ih (lo + 1))

theorem FollowsAccesses.eq_fault_iff (h : FollowsAccesses p good xs o) (f : Fault) :
    o = .fault f ↔ firstFault p xs = some f := by
  cases h with
  | stops g hf => simp [hf]
  | answers x hf hx => simp [hf]

theorem FollowsAccesses.eq_next_iff (h : FollowsAccesses p good xs o) :
    (∃ x, o = .next x) ↔ firstFault p xs = none := by
  cases h with
  | stops g hf => simp [hf]
  | answers x hf hx => simp [hf]

theorem FollowsAccesses.ne_refused (h : FollowsAccesses p good xs o) (r : Refusal) : o ≠ .refused r := by
  cases h <;> nofun

end followsAccesses

/-! The accesses of the shared operations. -/

section operations

variable {p : Params} {s : State}

/-- The parameters that a state is to keep. -/
def HasParams (p : Params) (s : State) : Prop := s.params = p

theorem memRead_follows (a : Nat) (hs : HasParams p s) :
    FollowsAccesses p (fun r => HasParams p r.2) [.read a] (memRead a s) := by
  subst hs
  cases hf : accessFault s.params a with
  | none => rw [memRead_of_backed hf]; exact .answers _ (by rw [firstFault_singleton]; exact hf) rfl
  | some f => rw [memRead, hf]; exact .stops f (by rw [firstFault_singleton]; exact hf)

theorem memWrite_follows (a : Nat) (v : Word) (hs : HasParams p s) :
    FollowsAccesses p (HasParams p) [.write a] (memWrite a v s) := by
  subst hs
  cases hf : accessFault s.params a with
  | none =>
    rw [memWrite_of_backed hf]
    exact .answers _ (by rw [firstFault_singleton]; exact hf) (by rw [HasParams, logAccess_params, withMem_params])
  | some f => rw [memWrite, hf]; exact .stops f (by rw [firstFault_singleton]; exact hf)

theorem copyBuffer_follows (s : State) :
    FollowsAccesses s.params (HasParams s.params) (accesses .copy s) (copyBuffer s) := by
  rw [accesses, eachWord, List.range_eq_range']
  exact forWords_follows (fun i _ ht => (memRead_follows _ ht).seq fun _ hr => memWrite_follows _ _ hr) _ _ _ rfl

theorem mapBufferA_follows (f : Word → Word) (factor : Int) (s : State) :
    FollowsAccesses s.params (HasParams s.params) (accesses (.smul factor) s) (mapBufferA f s) := by
  rw [accesses, eachWord, List.range_eq_range']
  exact forWords_follows (fun i _ ht => (memRead_follows _ ht).seq fun _ hr => memWrite_follows _ _ hr) _ _ _ rfl

theorem mapBuffersAB_follows (f : Word → Word → Word) (s : State) :
    FollowsAccesses s.params (HasParams s.params) (accesses .add s) (mapBuffersAB f s) := by
  rw [accesses, eachWord, List.range_eq_range']
  exact forWords_follows (fun i _ ht => (memRead_follows _ ht).seq fun _ hra =>
    (memRead_follows _ hra).seq fun _ hrb => memWrite_follows _ _ hrb) _ _ _ rfl

theorem compareBuffers_follows (differ : Word → Word → Word) (s : State) :
    FollowsAccesses s.params (HasParams s.params) (compareAccesses s) (compareBuffers differ s) := by
  rw [compareAccesses, eachWord, List.range_eq_range']
  refine FollowsAccesses.map (good := fun x => HasParams s.params x.2) ?_ fun _ hx => hx
  refine forWords_follows (fun i _ ht => (memRead_follows _ ht).seq fun _ hra => ?_) _ _ _ rfl
  exact (memRead_follows _ hra).map fun _ hrb => hrb

theorem lsetWork_follows (s : State) :
    FollowsAccesses s.params (HasParams s.params) (accesses .lset s)
      (andThen (memRead (laneAddr s) s) fun r =>
        memWrite (laneAddr s) (insertLane (activeLayout s) r.1 s.laneData (laneSlot s)) r.2) :=
  (memRead_follows (laneAddr s) rfl).seq fun _ hr => memWrite_follows (laneAddr s) _ hr

/-- Past its checks a command is its work, whose accesses are the command's. -/
theorem withPrologue_follows {useA useB useIdx : Bool} {xs : List Access}
    {work : State → Host.Outcome State Fault Refusal} (hp : prologue useA useB useIdx s = none)
    (hw : FollowsAccesses s.params (HasParams s.params) xs (work s)) :
    FollowsAccesses s.params (HasParams s.params) xs (withPrologue useA useB useIdx s work) := by
  rw [withPrologue_of_none hp]
  exact hw.map fun _ hu => hu

end operations

/-- The two ways in which R94 says that q does not divide a modulus other than q. -/
theorem zero_or_mod_ne_zero_iff {p q : Nat} (hq : q ≠ p) : (q = 0 ∨ p % q ≠ 0) ↔ ¬ q ∣ p := by
  rw [Nat.dvd_iff_mod_eq_zero, or_iff_right_of_imp]
  rintro rfl
  rw [Nat.mod_zero]
  exact hq.symm

/-- The work of CMPEQQ, case by case of R94: cases (b) and (c) make no access (R46). -/
theorem cmpeqqWork_follows (q : Nat) (s : State) :
    FollowsAccesses s.params (HasParams s.params) (accesses (.cmpeqq q) s)
      (if q = s.modulus.toNat then compareBuffers (neqWord (activeLayout s)) s
        else if q = 1 then .next (setResult .equal s)
        else if q = 0 ∨ s.modulus.toNat % q ≠ 0 then .next (setResult .notDivisible s)
        else compareBuffers (neqWordScaled (activeLayout s) (s.modulus.toNat / q)) s) := by
  rw [accesses]
  by_cases hq : q = s.modulus.toNat
  · rw [if_neg fun h => h.1 hq, if_pos hq]
    exact compareBuffers_follows _ s
  rw [if_neg hq]
  by_cases h1 : q = 1
  · rw [if_pos ⟨hq, .inl h1⟩, if_pos h1]
    exact .answers _ rfl rfl
  rw [if_neg h1]
  by_cases hd : q ∣ s.modulus.toNat
  · rw [if_neg fun h => h.2.elim h1 (absurd hd), if_neg fun h => (zero_or_mod_ne_zero_iff hq).1 h hd]
    exact compareBuffers_follows _ s
  · rw [if_pos ⟨hq, .inr hd⟩, if_pos ((zero_or_mod_ne_zero_iff hq).2 hd)]
    exact .answers _ rfl rfl

/-- A command whose prologue passes stops at the first of its accesses that is not to storage, or answers (R46, R54). -/
theorem exec_follows {i : Instr} {s : State} (hi : i ≠ .layout)
    (hp : prologue (usesA i) (usesB i) (usesIdx i) s = none) :
    FollowsAccesses s.params (HasParams s.params) (accesses i s) (exec i s) := by
  cases i with
  | layout => exact absurd rfl hi
  | copy => rw [exec_copy]; exact withPrologue_follows hp (copyBuffer_follows s)
  | cmpeq => rw [exec_cmpeq]; exact withPrologue_follows hp (compareBuffers_follows _ s)
  | cmpeqq q => rw [exec_cmpeqq]; exact withPrologue_follows hp (cmpeqqWork_follows q s)
  | add => rw [exec_add]; exact withPrologue_follows hp (mapBuffersAB_follows _ s)
  | smul factor => rw [exec_smul]; exact withPrologue_follows hp (mapBufferA_follows _ factor s)
  | lget => rw [exec_lget]; exact withPrologue_follows hp ((memRead_follows _ rfl).map fun _ hr => hr)
  | lset => rw [exec_lset]; exact withPrologue_follows hp (lsetWork_follows s)

/-- LAYOUT makes no access and always answers (R70). -/
theorem exec_layout_answers (s : State) : ∃ t, exec .layout s = .next t := by
  rw [exec_layout]
  cases laneWidthOf s.modulus.toNat with
  | none => exact ⟨_, rfl⟩
  | some l => exact ⟨_, rfl⟩

/-- No command is refused. -/
theorem exec_ne_refused (i : Instr) (s : State) (r : Refusal) : exec i s ≠ .refused r := by
  by_cases hi : i = .layout
  · subst hi
    obtain ⟨t, ht⟩ := exec_layout_answers s
    rw [ht]
    nofun
  cases hp : prologue (usesA i) (usesB i) (usesIdx i) s with
  | none => exact (exec_follows hi hp).ne_refused r
  | some e =>
    rw [exec_of_prologue_some hi hp]
    nofun

/-- Settles O24: LAYOUT answers and has no access, and any other command follows its accesses. -/
theorem commandsFaultExactlyOutsideStorage : Obligations.CommandsFaultExactlyOutsideStorage := by
  refine ⟨fun i s hc => ?_, exec_ne_refused⟩
  by_cases hi : i = .layout
  · subst hi
    obtain ⟨t, ht⟩ := exec_layout_answers s
    refine iff_of_false (fun ⟨f, hf⟩ => ?_) (not_not_intro (List.forall_mem_nil _))
    rw [ht] at hf
    cases hf
  · have hf := exec_follows hi ((prologue_eq_none_iff_checksPass i s hi).2 hc)
    simp only [portBacks_iff, hf.eq_fault_iff, Option.ne_none_iff_exists', ← ne_eq]

end Sys2Proof.Proofs
end

section
/-! PROOFS. The accesses that a command makes, and that the contents of memory reach neither them nor its reports. -/

namespace Sys2Proof.Proofs

open Sys2Proof.Machine Sys2Proof.Safety Sys2Proof.Laws

/-- An error leaves a code other than 0 in ERR (R111, R113). -/
theorem raise_err_ne_zero (e : Err) (s : State) : (raise e s).status.extractLsb' 0 4 ≠ 0 := by
  rw [raise_status, statusWithErr_err]
  cases e <;> decide

/-- LAYOUT leaves the port's history alone (R46). -/
theorem port_of_layout {s t : State} (h : exec .layout s = .next t) : t.port = s.port := by
  rcases exec_layout_cases h with ⟨-, rfl⟩ | ⟨l, -, rfl⟩ <;> rfl

/-- What a command other than LAYOUT observably leaves once its prologue passes: its accesses, ERR = 0 and ERRLOG as it
was (R46, R112). -/
theorem report_of_prologue_none {i : Instr} {s t : State} (hi : i ≠ .layout)
    (hp : prologue (usesA i) (usesB i) (usesIdx i) s = none) (h : exec i s = .next t) :
    t.port = s.port ++ accesses i s ∧ t.status = statusWithErr s.status 0 ∧ t.errlog = s.errlog := by
  rcases exec_cases h hi with ⟨e, he, -⟩ | ⟨-, u, rfl, hport, hw⟩
  · rw [hp] at he; cases he
  · have hk := sameConfig_of_workOnly hw
    exact ⟨hport, congrArg (statusWithErr · 0) hk.status, hk.errlog⟩

/-- Settles O50, by the two endings of a command. -/
theorem commandsMakeTheListedAccesses : Obligations.CommandsMakeTheListedAccesses := by
  intro i s t h
  by_cases hi : i = .layout
  · subst hi
    rw [port_of_layout h, accesses, ite_self, List.append_nil]
  · rcases exec_cases h hi with ⟨e, -, rfl⟩ | ⟨-, u, rfl, hport, -⟩
    · rw [if_neg (raise_err_ne_zero e s), raise_port, List.append_nil]
    · have hok : (complete u).status.extractLsb' 0 4 = 0 := statusWithErr_err u.status 0
      rw [if_pos hok, complete_port, hport]

/-- The outcome of LAYOUT shows nothing of the memory (R142). -/
theorem exec_layout_withMem {s t : State} (m : Memory) (h : exec .layout s = .next t) :
    exec .layout (s.withMem m) = .next (t.withMem m) := by
  rcases exec_layout_cases h with ⟨hl, rfl⟩ | ⟨l, hl, rfl⟩ <;> rw [exec_layout, withMem_modulus, hl] <;> rfl

/-- Settles O51: neither the prologue nor the list of accesses looks at the memory, and they decide the outcome. -/
theorem accessesAreDataIndependent : Obligations.AccessesAreDataIndependent := by
  intro i s m
  have hm : { s with mem := m } = s.withMem m := rfl
  rw [hm]
  by_cases hi : i = .layout
  · subst hi
    obtain ⟨t, ht⟩ := exec_layout_answers s
    rw [ht, exec_layout_withMem m ht]
    refine ⟨fun t' h => ⟨_, rfl, ?_⟩, fun f hf => by cases hf⟩
    cases h
    exact ⟨rfl, rfl, rfl⟩
  cases hp : prologue (usesA i) (usesB i) (usesIdx i) s with
  | some e =>
    have hpm : prologue (usesA i) (usesB i) (usesIdx i) (s.withMem m) = some e := hp
    rw [exec_of_prologue_some hi hp, exec_of_prologue_some hi hpm]
    refine ⟨fun t h => ⟨_, rfl, ?_⟩, fun f hf => by cases hf⟩
    cases h
    exact ⟨rfl, rfl, rfl⟩
  | none =>
    have hpm : prologue (usesA i) (usesB i) (usesIdx i) (s.withMem m) = none := hp
    have hxs : accesses i (s.withMem m) = accesses i s := by cases i <;> rfl
    have hs := exec_follows hi hp
    have hsm := exec_follows hi hpm
    rw [hxs, withMem_params] at hsm
    refine ⟨fun t h => ?_, fun f hf => (hsm.eq_fault_iff f).2 ((hs.eq_fault_iff f).1 hf)⟩
    obtain ⟨u, hu⟩ := hsm.eq_next_iff.2 (hs.eq_next_iff.1 ⟨t, h⟩)
    obtain ⟨hport, hstatus, herrlog⟩ := report_of_prologue_none hi hp h
    obtain ⟨hportm, hstatusm, herrlogm⟩ := report_of_prologue_none hi hpm hu
    rw [hxs] at hportm
    exact ⟨u, hu, hportm.trans hport.symm, hstatusm.trans hstatus.symm, herrlogm.trans herrlog.symm⟩

end Sys2Proof.Proofs
end

section
/-! PROOFS. The memory that a command leaves: the old one, or the old one with words rewritten in ascending order. -/

namespace Sys2Proof.Proofs

open Sys2Proof.Machine Sys2Proof.Safety Sys2Proof.Laws

theorem mem_of_copyBuffer {s t : State} (h : copyBuffer s = .next t) :
    t.mem = rewriteWords (fun i m => m.readWord (s.aBase.toNat + i)) s.bBase.toNat s.wordCount.toNat s.mem :=
  (copyBuffer_computes h).1

theorem mem_of_mapBufferA {f : Word → Word} {s t : State} (h : mapBufferA f s = .next t) :
    t.mem = rewriteWords (fun i m => f (m.readWord (s.aBase.toNat + i))) s.aBase.toNat s.wordCount.toNat s.mem :=
  (mapBufferA_computes h).1

theorem mem_of_mapBuffersAB {f : Word → Word → Word} {s t : State} (h : mapBuffersAB f s = .next t) :
    t.mem = rewriteWords (fun i m => f (m.readWord (s.aBase.toNat + i)) (m.readWord (s.bBase.toNat + i)))
      s.aBase.toNat s.wordCount.toNat s.mem :=
  (mapBuffersAB_computes h).1

/-- Past its checks a command that answers has done its work. -/
theorem withPrologue_completes {useA useB useIdx : Bool} {s t : State}
    {work : State → Host.Outcome State Fault Refusal} (hp : prologue useA useB useIdx s = none)
    (h : withPrologue useA useB useIdx s work = .next t) : ∃ u, work s = .next u ∧ t = complete u := by
  rcases withPrologue_eq_next.1 h with ⟨e, he, -⟩ | ⟨-, hu⟩
  · rw [hp] at he; cases he
  · exact hu

/-! COPY one word upward (R49). -/

/-- Copied one word upward, each word is word a by the time it is read. -/
theorem readWord_copiedUpward (m : Memory) (a i : Nat) :
    (rewriteWords (fun k m => m.readWord (a + k)) (a + 1) i m).readWord (a + i) = m.readWord a := by
  induction i with
  | zero => rfl
  | succ i ih =>
    have haddr : a + (i + 1) = a + 1 + i := by omega
    rw [haddr, readWord_rewriteWords _ _ _ _ _ (Nat.lt_succ_self i), ih]

/-- Settles O29: word i of B is word i of A as it was read, which is word 0 of A. -/
theorem copySmearsWhenBIsOneAboveA : Obligations.CopySmearsWhenBIsOneAboveA := by
  intro s hc hb hadj
  have hp := (prologue_eq_none_iff_checksPass .copy s (by decide)).2 hc
  obtain ⟨t, ht⟩ := (exec_follows (by decide) hp).eq_next_iff.2 ((portBacks_iff .copy s).1 hb)
  obtain ⟨u, hu, rfl⟩ := withPrologue_completes hp ht
  refine ⟨_, ht, fun i hi => ?_⟩
  rw [complete_mem, mem_of_copyBuffer hu, readWord_rewriteWords _ _ _ _ _ hi, hadj]
  exact readWord_copiedUpward s.mem s.aBase.toNat i

/-! The canonical form. -/

/-- The second state's memory is the first's with words rewritten in ascending order. -/
def RewritesWords (s t : State) : Prop := ∃ g base count, t.mem = rewriteWords g base count s.mem

theorem RewritesWords.of_eq {s t : State} (h : t.mem = s.mem) : RewritesWords s t := ⟨fun _ _ => 0, 0, 0, h⟩

/-- A command that ends in an error rewrites nothing, and one that completes what its work does. -/
theorem rewritesWords_of_withPrologue {useA useB useIdx : Bool} {s t : State}
    {work : State → Host.Outcome State Fault Refusal} (h : withPrologue useA useB useIdx s work = .next t)
    (hw : ∀ u, work s = .next u → RewritesWords s u) : RewritesWords s t := by
  rcases withPrologue_eq_next.1 h with ⟨e, -, rfl⟩ | ⟨-, u, hu, rfl⟩
  · exact .of_eq rfl
  · exact hw u hu

/-- The commands that make no memory access or only read (R46, R61). -/
def storesNothing : Instr → Bool
  | .layout => true
  | .copy => false
  | .cmpeq => true
  | .cmpeqq _ => true
  | .add => false
  | .smul _ => false
  | .lget => true
  | .lset => false

theorem mem_of_commandEnd {i : Instr} {s t : State} (h : CommandEnd i s t) (hi : storesNothing i = true) :
    t.mem = s.mem := by
  cases h with
  | installed l _ _ ht => rw [ht]; rfl
  | cleared _ ht => rw [ht]; rfl
  | failed e _ ht => rw [ht]; rfl
  | completed u _ ht hw =>
    rw [ht, complete_mem]
    rcases hw with ⟨-, rfl | rfl | ⟨f, rfl⟩ | rfl⟩ | ⟨hu, -, -⟩ | ⟨hu, -⟩
    · cases hi
    · cases hi
    · cases hi
    · cases hi
    · rw [hu]
    · rw [hu]

/-- LSET rewrites the one word that holds the lane (R84). -/
theorem rewritesWords_lset {s t : State} (h : exec .lset s = .next t) : RewritesWords s t := by
  rw [exec_lset] at h
  refine rewritesWords_of_withPrologue h fun u hu => ?_
  obtain ⟨r, hr, hu⟩ := andThen_eq_next.1 hu
  obtain ⟨-, rfl⟩ := memRead_eq_next.1 hr
  obtain ⟨-, rfl⟩ := memWrite_eq_next.1 hu
  exact ⟨fun _ m => insertLane (activeLayout s) (m.readWord (laneAddr s)) s.laneData (laneSlot s), laneAddr s, 1, by
    simp [rewriteWords]⟩

/-- What a command does to the memory. -/
theorem rewritesWords_of_exec {i : Instr} {s t : State} (h : exec i s = .next t) : RewritesWords s t := by
  cases i with
  | layout | cmpeq | cmpeqq | lget => exact .of_eq (mem_of_commandEnd (commandEnd_of_exec h) rfl)
  | copy => rw [exec_copy] at h; exact rewritesWords_of_withPrologue h fun _ hu => ⟨_, _, _, mem_of_copyBuffer hu⟩
  | add => rw [exec_add] at h; exact rewritesWords_of_withPrologue h fun _ hu => ⟨_, _, _, mem_of_mapBuffersAB hu⟩
  | smul f => rw [exec_smul] at h; exact rewritesWords_of_withPrologue h fun _ hu => ⟨_, _, _, mem_of_mapBufferA hu⟩
  | lset => exact rewritesWords_lset h

theorem wf_rewriteWords (g : Nat → Memory → Word) (base count : Nat) {m : Memory} (hm : m.wf = true) :
    (rewriteWords g base count m).wf = true := by
  induction count with
  | zero => exact hm
  | succ n ih => rw [rewriteWords_succ]; exact wf_writeWord _ _ _ ih

/-- Every command keeps the canonical form. -/
theorem wf_of_exec {i : Instr} {s t : State} (h : exec i s = .next t) (hs : s.mem.wf = true) : t.mem.wf = true := by
  obtain ⟨g, base, count, hm⟩ := rewritesWords_of_exec h
  rw [hm]
  exact wf_rewriteWords g base count hs

/-- Every action of the host keeps the canonical form. -/
theorem wf_of_hostAction {x : HostAction} {s t : State} (h : hostAction x s = .next t) (hs : s.mem.wf = true) :
    t.mem.wf = true := by
  rcases hostAction_eq_next h with ⟨c, i, -, -, he⟩ | ⟨c, e, -, -, rfl⟩ | ⟨num, r, v, -, -, -, rfl⟩ |
    ⟨num, v, -, -, rfl⟩ | ⟨num, -, rfl⟩ | ⟨a, v, -, -, rfl⟩ | ⟨a, -, -, rfl⟩ | ⟨a, v, -, -, rfl⟩ |
    ⟨a, -, -, rfl⟩ | ⟨-, rfl⟩
  · exact wf_of_exec he hs
  · exact hs
  · obtain ⟨-, hmem, -⟩ := writeReg_keeps r v s
    rw [hmem]; exact hs
  · exact hs
  · exact hs
  · rw [withMem_mem]; exact wf_writeWord s.mem a v hs
  · exact hs
  · rw [withMem_mem]; exact wf_writeByte s.mem a v hs
  · exact hs
  · exact hs

/-- Settles O56: an idle step changes nothing, and any other is one action of the host. -/
theorem memoryStaysCanonical : Obligations.MemoryStaysCanonical := by
  intro s t hs h
  rcases step_cases h with ⟨-, rfl⟩ | ⟨x, rest, -, hx⟩
  · exact hs
  · exact wf_of_hostAction hx hs

end Sys2Proof.Proofs
end

section
/-! PROOFS. The host's own accesses to one byte. -/

namespace Sys2Proof.Proofs

open Sys2Proof.Machine Sys2Proof.Safety Sys2Proof.Laws

/-- Settles O17, by the read-after-write laws of the memory. -/
theorem hostStoresAndLoadsBytes : Obligations.HostStoresAndLoadsBytes := by
  intro s a j v rest hj hf
  have hword : (8 * a + j) / 8 = a := by omega
  have hfw : accessFault (s.withScript rest).params ((8 * a + j) / 8) = none := by rw [hword]; exact hf
  refine ⟨fun hs => ⟨s.mem.writeByte (8 * a + j) v, ?_, ?_, fun b hb => readByte_writeByte_other _ _ _ _ hb⟩,
    fun hs => ⟨(s.mem.readByte (8 * a + j)).setWidth 64, ?_, by rw [readWord_byte _ _ _ hj]⟩⟩
  · rw [step_of_script hs, hostAction, hostStoreByte, hfw]
    rfl
  · rw [readWord_byte _ _ _ hj, readByte_writeByte_same]
  · rw [step_of_script hs, hostAction, hostLoadByte, hfw]
    rfl

end Sys2Proof.Proofs
end

section
/-! PROOFS. The command word: put together from its three fields, and what the decoder makes of them. `DecodeEnd` says
once what the decoder can answer; the statements about decoding take it apart. -/

namespace Sys2Proof.Proofs

open Sys2Proof.Laws

/-! The fields of a word. -/

/-- A word is its three fields, one above the other (R55). -/
theorem append_fields (c : Word) : immField c ++ zeroBits c ++ opcodeField c = c := by
  apply BitVec.eq_of_getLsbD_eq
  intro b hb
  simp only [immField, zeroBits, opcodeField, BitVec.getLsbD_append, BitVec.getLsbD_extractLsb']
  split
  · next h8 => simp [h8]
  split
  · next h8 h24 =>
    have hpos : 8 + (b - 8) = b := by omega
    simp [h24, hpos]
  · next h8 h24 =>
    have hpos : 32 + (b - 8 - 24) = b := by omega
    have h32 : b - 8 - 24 < 32 := by omega
    simp [h32, hpos]

/-- The fields of the encoded word, for every command (R58). -/
theorem encode_fields (i : Instr) : EncodeFields.Statement i := fields_of_append _ _

/-- The word with the fields of a command is the one that the encoder gives (R58). -/
theorem encode_of_fields {c : Word} {i : Instr} (hop : opcodeField c = opcode i) (hz : zeroBits c = 0)
    (himm : immField c = immediate i) : encode i = c := by
  rw [encode, ← hop, ← himm, ← hz, append_fields]

/-- Every command's OPCODE is in 1 to 8 (R58). -/
theorem opcode_range (i : Instr) : 1 ≤ (opcode i).toNat ∧ (opcode i).toNat ≤ 8 := by
  cases i <;> simp [opcode]

/-- Only the commands of OPCODE 4 and 6 have an immediate (R57). -/
theorem immediate_eq_zero (i : Instr) : (opcode i).toNat = 4 ∨ (opcode i).toNat = 6 ∨ immediate i = 0 := by
  cases i with
  | cmpeqq q => exact .inl rfl
  | smul factor => exact .inr (.inl rfl)
  | _ => exact .inr (.inr rfl)

/-! From the fields to the command. -/

theorem decodeBare_of_zero {c : Word} (i : Instr) (h : immField c = 0) : decodeBare c i = .ok i := if_pos h

/-- IMM32 holds every q of CMPEQQ (R57). -/
theorem toNat_immediate {q : Nat} (h : (Instr.cmpeqq q).wellFormed = true) : (immediate (.cmpeqq q)).toNat = q :=
  Nat.mod_eq_of_lt (of_decide_eq_true h)

/-- IMM32 holds every factor of SMUL (R57). -/
theorem toInt_immediate {factor : Int} (h : (Instr.smul factor).wellFormed = true) :
    (immediate (.smul factor)).toInt = factor := by
  simp only [Instr.wellFormed, Bool.and_eq_true, decide_eq_true_eq] at h
  obtain ⟨hlo, hhi⟩ := h
  exact BitVec.toInt_ofInt_eq_self (by decide) hlo hhi

/-- A word with the fields of a well-formed command decodes to it (R56, R58). -/
theorem decode_of_fields {c : Word} {i : Instr} (hw : i.wellFormed = true) (hop : opcodeField c = opcode i)
    (hz : zeroBits c = 0) (himm : immField c = immediate i) : decode c = .ok i := by
  rw [decode, if_pos hz, hop]
  cases i with
  | cmpeqq q => exact congrArg (fun n => Except.ok (Instr.cmpeqq n)) (by rw [himm, toNat_immediate hw])
  | smul factor => exact congrArg (fun n => Except.ok (Instr.smul n)) (by rw [himm, toInt_immediate hw])
  | _ => exact decodeBare_of_zero _ himm

/-! From the word to the answer. -/

/-- The answers of the decoder: a rejection by the first check that fails, or the well-formed command whose fields the
word has (R56, R59). -/
inductive DecodeEnd (c : Word) : Except DecodeError Instr → Prop
  | zeroField (hz : zeroBits c ≠ 0) : DecodeEnd c (.error .zeroField)
  | reservedOpcode (hz : zeroBits c = 0) (hop : ¬ (1 ≤ (opcodeField c).toNat ∧ (opcodeField c).toNat ≤ 8)) :
      DecodeEnd c (.error .reservedOpcode)
  | immediate (hz : zeroBits c = 0) (hop : 1 ≤ (opcodeField c).toNat ∧ (opcodeField c).toNat ≤ 8)
      (h4 : (opcodeField c).toNat ≠ 4) (h6 : (opcodeField c).toNat ≠ 6) (himm : immField c ≠ 0) :
      DecodeEnd c (.error .immediate)
  | command (i : Instr) (hw : i.wellFormed = true) (hop : opcodeField c = opcode i) (hz : zeroBits c = 0)
      (himm : immField c = immediate i) : DecodeEnd c (.ok i)

/-- A command without an immediate has one more check (R59 c). -/
theorem decodeEnd_decodeBare {c : Word} {i : Instr} (hw : i.wellFormed = true) (hz : zeroBits c = 0)
    (hop : opcodeField c = opcode i) (h4 : (opcode i).toNat ≠ 4) (h6 : (opcode i).toNat ≠ 6) :
    DecodeEnd c (decodeBare c i) := by
  unfold decodeBare
  split
  · next himm =>
    have h0 : immediate i = 0 := ((immediate_eq_zero i).resolve_left h4).resolve_left h6
    exact .command i hw hop hz (himm.trans h0.symm)
  · next himm =>
    rw [← hop] at h4 h6
    exact .immediate hz (by rw [hop]; exact opcode_range i) h4 h6 himm

/-- The q that CMPEQQ reads from IMM32 is well-formed, and IMM32 is its immediate (R57). -/
theorem decodeEnd_cmpeqq {c : Word} (hz : zeroBits c = 0) (hop : opcodeField c = 4) :
    DecodeEnd c (.ok (.cmpeqq (immField c).toNat)) := by
  refine .command _ (decide_eq_true (immField c).isLt) hop hz ?_
  rw [immediate, BitVec.ofNat_toNat, BitVec.setWidth_eq]

/-- The factor that SMUL reads from IMM32 is well-formed, and IMM32 is its immediate (R57). -/
theorem decodeEnd_smul {c : Word} (hz : zeroBits c = 0) (hop : opcodeField c = 6) :
    DecodeEnd c (.ok (.smul (immField c).toInt)) := by
  have hlo : -2 ^ 31 ≤ (immField c).toInt := BitVec.le_toInt (immField c)
  have hhi : (immField c).toInt < 2 ^ 31 := BitVec.toInt_lt
  refine .command _ ?_ hop hz ?_
  · simp only [Instr.wellFormed, Bool.and_eq_true, decide_eq_true_eq]
    exact ⟨hlo, hhi⟩
  · rw [immediate, BitVec.ofInt_toInt]

/-- The decoder gives one of the answers, opcode by opcode (R56). -/
theorem decodeEnd_decode (c : Word) : DecodeEnd c (decode c) := by
  have hfield {n : Nat} (h : (opcodeField c).toNat = n) : opcodeField c = BitVec.ofNat 8 n := by
    rw [← h, BitVec.ofNat_toNat, BitVec.setWidth_eq]
  unfold decode
  split
  · next hz =>
    split
    case h_4 hop => exact decodeEnd_cmpeqq hz (hfield hop)
    case h_6 hop => exact decodeEnd_smul hz (hfield hop)
    case h_9 => exact .reservedOpcode hz (by simp only [imp_false] at *; omega)
    all_goals next hop => exact decodeEnd_decodeBare rfl hz (hfield hop) (by decide) (by decide)
  · next hz => exact .zeroField hz

/-- The commands of the decoder are those of the encoder (R56, R58). -/
theorem decode_eq_ok_iff (c : Word) (i : Instr) : decode c = .ok i ↔ i.wellFormed = true ∧ encode i = c := by
  constructor
  · intro h
    have hend := decodeEnd_decode c
    rw [h] at hend
    cases hend with
    | command _ hw hop hz himm => exact ⟨hw, encode_of_fields hop hz himm⟩
  · rintro ⟨hw, rfl⟩
    obtain ⟨hop, hz, himm⟩ := encode_fields i
    exact decode_of_fields hw hop hz himm

/-- Settles O1. -/
theorem decodeOfEncode : Obligations.DecodeOfEncode := fun i hw => (decode_eq_ok_iff (encode i) i).2 ⟨hw, rfl⟩

/-- Settles O2. -/
theorem encodeOfDecode : Obligations.EncodeOfDecode := fun c i h => (decode_eq_ok_iff c i).1 h

/-- Settles O3: each answer meets the condition of one of the four clauses and breaks those of the other three. -/
theorem legalCommandWordsExactly : Obligations.LegalCommandWordsExactly := by
  intro c op zero imm
  have hend := decodeEnd_decode c
  generalize decode c = answer at hend ⊢
  cases hend with
  | zeroField hz =>
    exact ⟨iff_of_false nofun fun h => hz h.1, iff_of_true rfl hz, iff_of_false nofun fun h => hz h.1,
      iff_of_false nofun fun h => hz h.1⟩
  | reservedOpcode hz hop =>
    exact ⟨iff_of_false nofun fun h => hop h.2.1, iff_of_false nofun fun h => h hz, iff_of_true rfl ⟨hz, hop⟩,
      iff_of_false nofun fun h => hop h.2.1⟩
  | immediate hz hop h4 h6 himm =>
    exact ⟨iff_of_false nofun fun ⟨_, _, h⟩ => h.elim h4 fun h => h.elim h6 himm, iff_of_false nofun fun h => h hz,
      iff_of_false nofun fun h => h.2 hop, iff_of_true rfl ⟨hz, hop, h4, h6, himm⟩⟩
  | command i hw hop hz himm =>
    have hrange := opcode_range i
    have hbare := immediate_eq_zero i
    rw [← hop] at hrange hbare
    rw [← himm] at hbare
    exact ⟨iff_of_true ⟨i, rfl⟩ ⟨hz, hrange, hbare⟩, iff_of_false nofun fun h => h hz,
      iff_of_false nofun fun h => h.2 hrange,
      iff_of_false nofun fun ⟨_, _, h4, h6, himm'⟩ => hbare.elim h4 fun h => h.elim h6 himm'⟩

/-- Settles O4: each word is the encoder's for its command. -/
theorem sampleWordsDecode : Obligations.SampleWordsDecode := by
  simp only [Obligations.SampleWordsDecode, decode_eq_ok_iff]
  decide

end Sys2Proof.Proofs
end

section
/-! PROOFS. What a command leaves unchanged: the registers that no command writes, LANE_DATA, and the memory outside the
words that the command stores to (R61). -/

namespace Sys2Proof.Proofs

open Sys2Proof.Machine Sys2Proof.Safety Sys2Proof.Laws

/-! Registers. -/

/-- The registers that only the host writes, the parameters and the host's side are the same in both states. -/
def SameOperands (s t : State) : Prop :=
  t.modulus = s.modulus ∧ t.dim = s.dim ∧ t.aBase = s.aBase ∧ t.aLen = s.aLen ∧ t.bBase = s.bBase ∧
    t.bLen = s.bLen ∧ t.laneIdx = s.laneIdx ∧ t.params = s.params ∧ t.script = s.script ∧ t.replies = s.replies

theorem SameOperands.refl (s : State) : SameOperands s s := ⟨rfl, rfl, rfl, rfl, rfl, rfl, rfl, rfl, rfl, rfl⟩

theorem sameOperands_of_workOnly {i : Instr} {s u : State} (h : WorkOnly i s u) : SameOperands s u := by
  rcases h with ⟨h, -⟩ | ⟨h, -, -⟩ | ⟨h, -⟩
  · unfold OnlyMemAndPort at h
    rw [h]; exact .refl s
  all_goals rw [h]; exact .refl s

/-- No command writes an operand register (R61). -/
theorem sameOperands_of_commandEnd {i : Instr} {s t : State} (h : CommandEnd i s t) : SameOperands s t := by
  cases h with
  | installed l _ _ ht => rw [ht]; exact .refl s
  | cleared _ ht => rw [ht]; exact .refl s
  | failed e _ ht => rw [ht]; exact .refl s
  | completed u _ ht hw =>
    have hk := sameOperands_of_workOnly hw
    rw [ht]; exact hk

/-- A command other than LAYOUT keeps registers 6 to 11 (R61). -/
theorem layoutRegisters_of_commandEnd {i : Instr} {s t : State} (h : CommandEnd i s t) (hi : i ≠ .layout) :
    t.laneWidth = s.laneWidth ∧ t.lanePitch = s.lanePitch ∧ t.lanesPerWord = s.lanesPerWord ∧
      t.valueMask = s.valueMask ∧ t.guardMask = s.guardMask ∧ t.wordCount = s.wordCount := by
  cases h with
  | installed _ hl _ _ => exact absurd hl hi
  | cleared hl _ => exact absurd hl hi
  | failed e _ ht => rw [ht]; exact ⟨rfl, rfl, rfl, rfl, rfl, rfl⟩
  | completed u _ ht hw =>
    have hk := sameConfig_of_workOnly hw
    rw [ht]; exact ⟨hk.laneWidth, hk.lanePitch, hk.lanesPerWord, hk.valueMask, hk.guardMask, hk.wordCount⟩

/-- A command other than LGET keeps LANE_DATA (R61, R83). -/
theorem laneData_of_commandEnd {i : Instr} {s t : State} (h : CommandEnd i s t) (hi : i ≠ .lget) :
    t.laneData = s.laneData := by
  cases h with
  | installed l _ _ ht => rw [ht]; rfl
  | cleared _ ht => rw [ht]; rfl
  | failed e _ ht => rw [ht]; rfl
  | completed u _ ht hw =>
    rw [ht, complete_laneData]
    rcases hw with ⟨hu, -⟩ | ⟨hu, -, -⟩ | ⟨-, hl⟩
    · unfold OnlyMemAndPort at hu; rw [hu]
    · rw [hu]
    · exact absurd hl hi

/-- A command keeps the bits of STATUS other than ERR and CFG_VALID (R16). -/
theorem status_getLsbD_of_commandEnd {i : Instr} {s t : State} (h : CommandEnd i s t) {b : Nat} (h4 : 4 ≤ b)
    (h8 : b ≠ 8) : t.status.getLsbD b = s.status.getLsbD b := by
  cases h with
  | installed l _ _ ht => rw [ht]; exact (statusWithErr_getLsbD _ _ b h4).trans (statusWithCfgValid_getLsbD _ _ b h8)
  | cleared _ ht => rw [ht]; exact (statusWithErr_getLsbD _ _ b h4).trans (statusWithCfgValid_getLsbD _ _ b h8)
  | failed e _ ht => rw [ht]; exact statusWithErr_getLsbD _ _ b h4
  | completed u _ ht hw =>
    rw [ht, ← (sameConfig_of_workOnly hw).status]; exact statusWithErr_getLsbD _ _ b h4

/-- Settles O48, register by register. -/
theorem commandsWriteOnlyTheirRegisters : Obligations.CommandsWriteOnlyTheirRegisters := by
  intro i s t h
  have hend := commandEnd_of_exec h
  refine ⟨sameOperands_of_commandEnd hend, fun hi => ?_, fun hc hq => ?_, laneData_of_commandEnd hend,
    fun b h4 h8 => status_getLsbD_of_commandEnd hend h4 h8⟩
  · obtain ⟨h6, h7, h8, h9, h10, h11⟩ := layoutRegisters_of_commandEnd hend hi
    refine ⟨h6, h7, h8, h9, h10, h11, ?_⟩
    rcases cfgValid_of_commandEnd hend with hv | ⟨hl, -⟩ | ⟨hl, -⟩
    · exact hv
    · exact absurd hl hi
    · exact absurd hl hi
  · rcases result_of_commandEnd hend with hr | ⟨hi | ⟨q, hi⟩, -⟩
    · exact hr
    · exact absurd hi hc
    · exact absurd hi (hq q)

/-! Memory. -/

/-- The second state's memory is the first's outside the bytes of `stored`. -/
def KeepsBytesOutside (stored : Nat → Prop) (s t : State) : Prop :=
  ∀ b, ¬ stored b → t.mem.readByte b = s.mem.readByte b

theorem KeepsBytesOutside.of_eq {stored : Nat → Prop} {s t : State} (h : t.mem = s.mem) :
    KeepsBytesOutside stored s t := fun b _ => congrArg (Memory.readByte · b) h

/-- A loop that rewrites the words of a buffer keeps every byte outside the buffer (R46). -/
theorem KeepsBytesOutside.of_rewriteWords {g : Nat → Memory → Word} {base count : Nat} {s t : State}
    (h : t.mem = rewriteWords g base count s.mem) :
    KeepsBytesOutside (fun b => ∃ k, k < count ∧ b / 8 = base + k) s t := fun b hb => by
  rw [h, readByte_rewriteWords g base count s.mem b fun k hk heq => hb ⟨k, hk, heq⟩]

/-- A command that ends in an error keeps every byte, and one that completes those that its work keeps. -/
theorem keepsBytesOutside_of_withPrologue {stored : Nat → Prop} {useA useB useIdx : Bool} {s t : State}
    {work : State → Host.Outcome State Fault Refusal} (h : withPrologue useA useB useIdx s work = .next t)
    (hw : ∀ u, work s = .next u → KeepsBytesOutside stored s u) : KeepsBytesOutside stored s t := by
  rcases withPrologue_eq_next.1 h with ⟨e, -, rfl⟩ | ⟨-, u, hu, rfl⟩
  · exact .of_eq rfl
  · exact hw u hu

/-- LSET keeps every byte outside the word that holds the lane (R84). -/
theorem keepsBytesOutside_lset {s t : State} (h : exec .lset s = .next t) :
    KeepsBytesOutside (StoresTo .lset s) s t := by
  rw [exec_lset] at h
  refine keepsBytesOutside_of_withPrologue h fun u hu => ?_
  obtain ⟨r, hr, hu⟩ := andThen_eq_next.1 hu
  obtain ⟨-, rfl⟩ := memRead_eq_next.1 hr
  obtain ⟨-, rfl⟩ := memWrite_eq_next.1 hu
  intro b hb
  have hword : b / 8 ≠ laneAddr s := hb
  rw [logAccess_mem, withMem_mem, readByte_writeWord_other _ _ _ b hword, logAccess_mem]

/-- Every command keeps the bytes that it does not store to (R61). -/
theorem keepsBytesOutside_of_exec {i : Instr} {s t : State} (h : exec i s = .next t) :
    KeepsBytesOutside (StoresTo i s) s t := by
  cases i with
  | layout | cmpeq | cmpeqq | lget => exact .of_eq (mem_of_commandEnd (commandEnd_of_exec h) rfl)
  | copy =>
    rw [exec_copy] at h
    exact keepsBytesOutside_of_withPrologue h fun _ hu => .of_rewriteWords (mem_of_copyBuffer hu)
  | add =>
    rw [exec_add] at h
    exact keepsBytesOutside_of_withPrologue h fun _ hu => .of_rewriteWords (mem_of_mapBuffersAB hu)
  | smul f =>
    rw [exec_smul] at h
    exact keepsBytesOutside_of_withPrologue h fun _ hu => .of_rewriteWords (mem_of_mapBufferA hu)
  | lset => exact keepsBytesOutside_lset h

/-- A command that reports an error has stored nothing (R110). -/
theorem mem_of_commandEnd_of_err {i : Instr} {s t : State} (h : CommandEnd i s t)
    (herr : t.status.extractLsb' 0 4 ≠ 0) : t.mem = s.mem := by
  cases h with
  | installed l _ _ ht => rw [ht] at herr; exact absurd (statusWithErr_err _ 0) herr
  | cleared _ ht => rw [ht]; rfl
  | failed e _ ht => rw [ht]; rfl
  | completed u _ ht _ => rw [ht] at herr; exact absurd (statusWithErr_err _ 0) herr

/-- Settles O49. -/
theorem commandsStoreOnlyToTheirBuffers : Obligations.CommandsStoreOnlyToTheirBuffers := fun _ _ _ h =>
  ⟨keepsBytesOutside_of_exec h, mem_of_commandEnd_of_err (commandEnd_of_exec h)⟩

end Sys2Proof.Proofs
end

section
/-! PROOFS. The lines of a host script, taken one a step. -/

namespace Sys2Proof.Proofs

open Sys2Proof.Machine Sys2Proof.Safety Sys2Proof.Laws

/-- A register write that runs no command leaves the actions that were to come after it. -/
theorem writeReg_withScript_script (r : Reg) (v : Word) (s : State) (rest : List HostAction) :
    (writeReg r v (s.withScript rest)).script = rest := by
  obtain ⟨-, -, -, hscript, -⟩ := writeReg_keeps r v (s.withScript rest)
  exact hscript

/-- Two register writes in a row take two steps (R31, R63). -/
theorem steps_of_two_writes {s : State} {n n' : Nat} {r r' : Reg} {v v' : Word} {rest : List HostAction}
    (hs : s.script = .write n v :: .write n' v' :: rest) (hr : regOfNum n = some r) (hc : r ≠ .cmd)
    (hr' : regOfNum n' = some r') (hc' : r' ≠ .cmd) :
    ∃ t, step s = .next t ∧
      step t = .next (writeReg r' v' ((writeReg r v (s.withScript (.write n' v' :: rest))).withScript rest)) :=
  ⟨_, step_of_write hs hr hc, step_of_write (writeReg_withScript_script r v s _) hr' hc'⟩

/-- Settles O19: a command line by O1 and O5, each pseudo-command by its two register writes. -/
theorem scriptLinesRunTheirCommands : Obligations.ScriptLinesRunTheirCommands := by
  intro s rest
  refine ⟨fun i hw hs => step_of_command hs (decodeOfEncode i hw), fun p d hs => ?_,
    fun base len hs => steps_of_two_writes hs rfl (by decide) rfl (by decide),
    fun base len hs => steps_of_two_writes hs rfl (by decide) rfl (by decide)⟩
  obtain ⟨t, ht, hu⟩ := steps_of_two_writes hs rfl (by decide) rfl (by decide)
  exact ⟨t, _, ht, hu, rfl, rfl,
    step_of_command (writeReg_withScript_script .dim d _ _) (decodeOfEncode .layout rfl)⟩

end Sys2Proof.Proofs
end

section
/-! PROOFS. The layout of an accepted lane width: its pitch, its masks by slot and offset, the word count, and that
LAYOUT installs it (R70, R72, R75). -/

namespace Sys2Proof.Proofs

open Sys2Proof.Machine Sys2Proof.Safety Sys2Proof.Laws

/-! The pitch and the number of lanes in a word. -/

theorem lanePitchOf_mem (l : Nat) : lanePitchOf l ∈ [2, 4, 8, 16, 32] := by
  unfold lanePitchOf
  split_ifs <;> decide

/-- No listed pitch that holds the lane is smaller (R72). -/
theorem lanePitchOf_least (l : Nat) : ∀ r ∈ [2, 4, 8, 16, 32], l ≤ r → lanePitchOf l ≤ r := by
  intro r hr hfit
  simp only [List.mem_cons, List.not_mem_nil, or_false] at hr
  unfold lanePitchOf
  split_ifs <;> omega

/-- Every listed pitch divides a word into an even number of slots (R73 a). -/
theorem slots_of_pitch : ∀ s ∈ [2, 4, 8, 16, 32], 64 / s * s = 64 ∧ 64 / s % 2 = 0 ∧ 2 ≤ 64 / s := by decide

/-! A bit by its slot `b / s` and its offset `b % s`. The slots of a plane are the even ones. -/

section slots

variable {s b : Nat}

theorem mod_two_mul_of_even (h : b / s % 2 = 0) : b % (2 * s) = b % s := by
  rw [Nat.mul_comm, Nat.mod_mul, h, Nat.mul_zero, Nat.add_zero]

theorem mod_two_mul_of_odd (h : b / s % 2 = 1) : b % (2 * s) = b % s + s := by
  rw [Nat.mul_comm, Nat.mod_mul, h, Nat.mul_one]

/-- A bit at or past the pitch is one slot further than the bit one pitch below. -/
theorem div_eq_succ_of_le (hs : 0 < s) (h : s ≤ b) : b / s = (b - s) / s + 1 := Nat.div_eq_sub_div hs h

end slots

section masks

variable {l b : Nat}

/-- PM has the low l bits of every even slot (R72). -/
theorem planeMaskOf_slot (h32 : l ≤ 32) (h2 : 2 ≤ l) (hb : b < 64) :
    (planeMaskOf l (lanePitchOf l)).getLsbD b = decide (b / lanePitchOf l % 2 = 0 ∧ b % lanePitchOf l < l) := by
  obtain ⟨hfit, -, -⟩ := lanePitchOf_fits l h32 h2
  rw [planeMaskOf_getLsbD l h32 h2 b hb, decide_eq_decide]
  rcases Nat.mod_two_eq_zero_or_one (b / lanePitchOf l) with he | ho
  · simp only [mod_two_mul_of_even he, he, true_and]
  · rw [mod_two_mul_of_odd ho, ho]
    omega

/-- PM moved up one pitch has the low l bits of every odd slot: the plane of the odd lanes (R73). -/
theorem planeMaskOf_shift_slot (h32 : l ≤ 32) (h2 : 2 ≤ l) (hb : b < 64) :
    (planeMaskOf l (lanePitchOf l) <<< lanePitchOf l).getLsbD b =
      decide (b / lanePitchOf l % 2 = 1 ∧ b % lanePitchOf l < l) := by
  obtain ⟨hfit, -, -⟩ := lanePitchOf_fits l h32 h2
  rw [BitVec.getLsbD_shiftLeft, decide_eq_true hb, Bool.true_and]
  by_cases hlow : b < lanePitchOf l
  · simp [hlow, Nat.div_eq_of_lt hlow]
  · have hge : lanePitchOf l ≤ b := Nat.not_lt.1 hlow
    rw [planeMaskOf_slot h32 h2 (by omega), div_eq_succ_of_le (by omega) hge, ← Nat.mod_eq_sub_mod hge,
      decide_eq_false hlow, Bool.not_false, Bool.true_and, decide_eq_decide]
    omega

end masks

section layout

variable {l : Nat} (h32 : l ≤ 32) (h2 : 2 ≤ l)
include h32 h2

/-- The two planes make up the value mask (R73). -/
theorem valueMaskOf_eq_planes : valueMaskOf l (lanePitchOf l) =
    planeMaskOf l (lanePitchOf l) ||| (planeMaskOf l (lanePitchOf l) <<< lanePitchOf l) := by
  apply BitVec.eq_of_getLsbD_eq
  intro b hb
  rw [BitVec.getLsbD_or, valueMaskOf_getLsbD l h32 h2 b hb, planeMaskOf_slot h32 h2 hb,
    planeMaskOf_shift_slot h32 h2 hb, ← Bool.decide_or, decide_eq_decide]
  omega

/-- The planes share no bit: a slot is not both even and odd (R73). -/
theorem planes_disjoint :
    planeMaskOf l (lanePitchOf l) &&& (planeMaskOf l (lanePitchOf l) <<< lanePitchOf l) = 0 := by
  rw [and_mask_eq_zero_iff]
  intro b hb hodd
  rw [planeMaskOf_shift_slot h32 h2 hb, decide_eq_true_eq] at hodd
  rw [planeMaskOf_slot h32 h2 hb, decide_eq_false_iff_not]
  omega

/-- The guard bit stands above the lane of its plane slot (R73). -/
theorem guardMaskOf_and_planeMaskOf : guardMaskOf l (lanePitchOf l) &&& planeMaskOf l (lanePitchOf l) = 0 := by
  rw [and_mask_eq_zero_iff]
  intro b hb hplane
  rw [planeMaskOf_getLsbD l h32 h2 b hb, decide_eq_true_eq] at hplane
  rw [guardMaskOf_getLsbD l h32 h2 b hb, decide_eq_false_iff_not]
  omega

/-- CM has no bit outside VM (R73). -/
theorem checkMaskOf_in_valueMaskOf : checkMaskOf l (lanePitchOf l) &&& ~~~valueMaskOf l (lanePitchOf l) = 0 := by
  rw [and_mask_eq_zero_iff]
  intro b hb hpad
  rw [BitVec.getLsbD_not, decide_eq_true hb, Bool.true_and, valueMaskOf_getLsbD l h32 h2 b hb, Bool.not_eq_true',
    decide_eq_false_iff_not] at hpad
  rw [checkMaskOf_getLsbD l h32 h2 b hb, decide_eq_false_iff_not]
  omega

/-- The registers of an installed layout read as that layout: nothing is cut off by their 64 bits (R32, R70). -/
theorem activeLayout_installLayout (s : State) :
    activeLayout (complete (installLayout (deriveLayout l) s)) = deriveLayout l := by
  obtain ⟨-, hpitch, -⟩ := lanePitchOf_fits l h32 h2
  have hslots : 64 / lanePitchOf l ≤ 64 := Nat.div_le_self _ _
  have hl : (BitVec.ofNat 64 l).toNat = l := Nat.mod_eq_of_lt (by omega)
  have hs : (BitVec.ofNat 64 (lanePitchOf l)).toNat = lanePitchOf l := Nat.mod_eq_of_lt (by omega)
  have hn : (BitVec.ofNat 64 (64 / lanePitchOf l)).toNat = 64 / lanePitchOf l := Nat.mod_eq_of_lt (by omega)
  simp only [activeLayout, deriveLayout, complete_laneWidth, complete_lanePitch, complete_lanesPerWord,
    complete_valueMask, complete_guardMask, installLayout_laneWidth, installLayout_lanePitch,
    installLayout_lanesPerWord, installLayout_valueMask, installLayout_guardMask, hl, hs, hn]

end layout

/-- Settles O59. -/
theorem derivedLayoutsFit : Obligations.DerivedLayoutsFit := by
  intro l h32 h2 L
  obtain ⟨hfit, -, -⟩ := lanePitchOf_fits l h32 h2
  obtain ⟨hword, heven, htwo⟩ := slots_of_pitch _ (lanePitchOf_mem l)
  exact ⟨rfl, hfit, hword, heven, htwo, valueMaskOf_eq_planes h32 h2, planes_disjoint h32 h2,
    guardMaskOf_and_planeMaskOf h32 h2, checkMaskOf_in_valueMaskOf h32 h2⟩

/-! What LAYOUT does with an accepted modulus. -/

/-- The word count is the least one whose lanes hold DIM (R75). -/
theorem wordCountOf_least (d : Nat) {n : Nat} (hn : 1 ≤ n) :
    d ≤ n * wordCountOf d n ∧ n * wordCountOf d n < d + n := by
  have hsplit := Nat.div_add_mod (d + (n - 1)) n
  have hrest := Nat.mod_lt (d + (n - 1)) hn
  unfold wordCountOf
  omega

/-- STATUS after LAYOUT has installed a layout, as two masks (R16, R70). -/
theorem okStatus_statusWithCfgValid_true (w : Word) :
    statusWithCfgValid w true &&& ~~~0xF#64 = (w &&& ~~~0xF#64) ||| 0x100#64 := by
  have hmask : ∀ c, c < 64 → (0x100#64).getLsbD c = true → (~~~0xF#64).getLsbD c = true := by decide
  apply BitVec.eq_of_getLsbD_eq
  intro b hb
  simp only [statusWithCfgValid, if_true, BitVec.getLsbD_and, BitVec.getLsbD_or, BitVec.getLsbD_not (x := 0x100#64),
    decide_eq_true hb, Bool.true_and]
  cases hcfg : (0x100#64).getLsbD b with
  | false => simp only [Bool.not_false, Bool.and_true, Bool.or_false]
  | true => simp only [hmask b hb hcfg, Bool.or_true, Bool.and_true]

/-- LAYOUT of an accepted modulus installs the layout of its lane width (R70). -/
theorem exec_layout_of_accepted {s : State} {l : Nat} (h32 : l ≤ 32) (h2 : 2 ≤ l)
    (hp : s.modulus.toNat = 2 ^ l - 1) :
    exec .layout s = .next (complete (installLayout (deriveLayout l) s)) := by
  rw [exec_layout, hp, laneWidthOf_mersenne l h32 h2]

/-- Settles O25: the installed layout is that of `deriveLayout`, field by field. -/
theorem layoutInstallsDerivedLayout : Obligations.LayoutInstallsDerivedLayout := by
  refine ⟨fun c => ?_, fun s l h2 h32 hp => ?_⟩
  · rw [decode_eq_ok_iff]
    exact ⟨fun h => h.2.symm, fun h => ⟨rfl, h.symm⟩⟩
  · obtain ⟨hfit, -, -⟩ := lanePitchOf_fits l h32 h2
    obtain ⟨hword, -, htwo⟩ := slots_of_pitch _ (lanePitchOf_mem l)
    have hn : 1 ≤ 64 / lanePitchOf l := by omega
    obtain ⟨hholds, hleast⟩ := wordCountOf_least s.dim.toNat hn
    refine ⟨lanePitchOf l, 64 / lanePitchOf l, wordCountOf s.dim.toNat (64 / lanePitchOf l),
      valueMaskOf l (lanePitchOf l), guardMaskOf l (lanePitchOf l), lanePitchOf_mem l, hfit, lanePitchOf_least l,
      hword, valueMaskOf_getLsbD l h32 h2, guardMaskOf_getLsbD l h32 h2, hholds, hleast,
      wordCountOf_lt s.dim.isLt hn, ?_⟩
    rw [exec_layout_of_accepted h32 h2 hp, complete_eq, okStatus, installLayout_status,
      okStatus_statusWithCfgValid_true]
    rfl

end Sys2Proof.Proofs
end

section
/-! PROOFS. The table of R74: its rows are the derived layouts of the 31 lane widths. -/

namespace Sys2Proof.Proofs

open Sys2Proof.Machine Sys2Proof.Safety Sys2Proof.Laws

/-- The layout that a row of the table prints. -/
def rowLayout (r : LayoutRow) : Layout := ⟨r.l, r.s, r.n, r.vm, r.gm, r.pm, r.cm⟩

/-- The rows are those of the lane widths 2 to 32, in order. -/
theorem layoutRows_widths : (layoutRowsNarrow ++ layoutRowsWide).map LayoutRow.l = List.range' 2 31 := by decide

theorem layoutRows_modulus : ∀ r ∈ layoutRowsNarrow ++ layoutRowsWide, r.p = 2 ^ r.l - 1 := by decide

/-- Each row prints what R72 derives. -/
theorem layoutRows_derived : ∀ r ∈ layoutRowsNarrow ++ layoutRowsWide, deriveLayout r.l = rowLayout r := by
  decide +kernel

/-- A lane width has a row exactly when R71 accepts it. -/
theorem exists_row_width_iff (l : Nat) :
    (∃ r ∈ layoutRowsNarrow ++ layoutRowsWide, r.l = l) ↔ l ≤ 32 ∧ 2 ≤ l := by
  rw [← List.mem_map, layoutRows_widths, List.mem_range'_1]
  omega

/-- The table is complete (R71, R74). -/
theorem accepted_iff_row (p : Nat) : Accepted p ↔ ∃ r ∈ layoutRowsNarrow ++ layoutRowsWide, r.p = p := by
  constructor
  · rintro ⟨l, h32, h2, rfl⟩
    obtain ⟨r, hr, rfl⟩ := (exists_row_width_iff l).2 ⟨h32, h2⟩
    exact ⟨r, hr, layoutRows_modulus r hr⟩
  · rintro ⟨r, hr, rfl⟩
    obtain ⟨h32, h2⟩ := (exists_row_width_iff r.l).1 ⟨r, hr, rfl⟩
    exact ⟨r.l, h32, h2, layoutRows_modulus r hr⟩

/-- A state holds a row when its active layout is the row's. -/
theorem holdsRow_of_activeLayout {r : LayoutRow} {s : State} (h : activeLayout s = rowLayout r) : HoldsRow r s :=
  ⟨congrArg Layout.l h, congrArg Layout.s h, congrArg Layout.n h, congrArg Layout.vm h, congrArg Layout.gm h,
    congrArg Layout.pm h, congrArg Layout.cm h⟩

/-- Settles O27: LAYOUT of a row's modulus installs the layout derived for its lane width, which is the row's. -/
theorem layoutTableHolds : Obligations.LayoutTableHolds := by
  refine ⟨accepted_iff_row, fun r hr => ?_⟩
  obtain ⟨h32, h2⟩ := (exists_row_width_iff r.l).1 ⟨r, hr, rfl⟩
  have hp : (BitVec.ofNat 64 r.p).toNat = 2 ^ r.l - 1 := by
    have hpow : 2 ^ r.l ≤ 2 ^ 32 := Nat.pow_le_pow_right (by decide) h32
    rw [layoutRows_modulus r hr]
    exact Nat.mod_eq_of_lt (by omega)
  exact ⟨_, exec_layout_of_accepted h32 h2 hp,
    holdsRow_of_activeLayout ((activeLayout_installLayout h32 h2 _).trans (layoutRows_derived r hr))⟩

end Sys2Proof.Proofs
end

section
/-! PROOFS. The two endings of a command other than LAYOUT, in the words of the statements: the error of its first
failing check, or an answer and the state with ERR = 0 (R110, R112, R118). -/

namespace Sys2Proof.Proofs

open Sys2Proof.Machine Sys2Proof.Safety Sys2Proof.Laws

/-- The one word that decodes to a well-formed command is its encoding (R56, R58). -/
theorem decode_eq_ok_iff_eq_encode {c : Word} {i : Instr} (hw : i.wellFormed = true) :
    decode c = .ok i ↔ c = encode i := by
  rw [decode_eq_ok_iff, and_iff_right hw, eq_comm]

/-! The failing checks. -/

/-- The first failing check of the statements is the first of the prologue, check by check (R118). -/
theorem firstFailure_eq_prologue (i : Instr) (s : State) :
    firstFailure i s = (prologue (usesA i) (usesB i) (usesIdx i) s).map errCode := by
  simp only [firstFailure, LengthBad, AddressBad, IndexBad, prologue, statusCfgValid, beyondAddressSpace, ite_or,
    apply_ite (Option.map errCode), Option.map_some, Option.map_none, errCode, Bool.not_eq_true', Bool.and_eq_true,
    decide_eq_true_eq]

/-- A command other than LAYOUT ends in the error of its first failing check (R118). -/
theorem failsInOrder_of_ne_layout {i : Instr} (hi : i ≠ .layout) : FailsInOrder i := by
  intro s k h
  rw [firstFailure_eq_prologue, Option.map_eq_some_iff] at h
  obtain ⟨e, he, rfl⟩ := h
  exact exec_of_prologue_some hi he

/-! The answer. -/

/-- A command answers when its checks pass and its accesses are to storage (R110). -/
theorem exec_answers {i : Instr} {s : State} (hi : i ≠ .layout) (hc : ChecksPass i s) (hb : PortBacks i s) :
    ∃ t, exec i s = .next t :=
  (exec_follows hi ((prologue_eq_none_iff_checksPass i s hi).2 hc)).eq_next_iff.2 ((portBacks_iff i s).1 hb)

theorem complete_status_eq_okStatus (s : State) : (complete s).status = okStatus s :=
  congrArg State.status (complete_eq s)

/-- A completed command leaves ERR = 0 (R112). -/
theorem okStatus_err (s : State) : (okStatus s).extractLsb' 0 4 = 0 := by
  rw [← complete_status_eq_okStatus]
  exact statusWithErr_err s.status 0

/-- A completed command leaves CFG_VALID as it was (R112). -/
theorem okStatus_valid (s : State) : (okStatus s).getLsbD 8 = s.status.getLsbD 8 := by
  rw [← complete_status_eq_okStatus]
  exact statusWithErr_valid s.status 0

/-- Completing after work on the memory alone (R112). -/
theorem complete_of_onlyMemAndPort {s u : State} (h : OnlyMemAndPort s u) :
    complete u = { s with status := okStatus s, mem := u.mem, port := u.port } := by
  unfold OnlyMemAndPort at h
  rw [complete_eq, okStatus, okStatus, h]

end Sys2Proof.Proofs
end

section
/-! PROOFS. COPY: the memory that it leaves, and that a comparison then finds the buffers equal (R82). -/

namespace Sys2Proof.Proofs

open Sys2Proof.Machine Sys2Proof.Safety Sys2Proof.Laws

/-- The memory after COPY: the words of B rewritten in ascending order, each by the word of A as it is then (R49, R82). -/
def copiedMem (s : State) : Memory :=
  rewriteWords (fun i m => m.readWord (s.aBase.toNat + i)) s.bBase.toNat s.wordCount.toNat s.mem

/-- The state after a COPY whose checks pass (R82, R112). -/
theorem exec_copy_completes {s : State} (hc : ChecksPass .copy s) (hb : PortBacks .copy s) :
    exec .copy s = .next { s with
      status := okStatus s, mem := copiedMem s, port := s.port ++ accesses .copy s } := by
  have hp := (prologue_eq_none_iff_checksPass .copy s (by decide)).2 hc
  obtain ⟨t, ht⟩ := exec_answers (by decide) hc hb
  obtain ⟨u, hu, rfl⟩ := withPrologue_completes hp ht
  have hmem : u.mem = copiedMem s := mem_of_copyBuffer hu
  have hport : u.port = s.port ++ accesses .copy s := (copyBuffer_computes hu).2
  rw [ht, complete_of_onlyMemAndPort (copyBuffer_only hu), hmem, hport]

section sameOrApart

variable {s : State} (h : SameOrApart s) {i : Nat} (hi : i < s.wordCount.toNat)
include h hi

/-- Of buffers that are the same or apart, no word of A is a word of B that is rewritten before it (R49). -/
theorem word_of_A_ne_earlier_word_of_B {k : Nat} (hk : k < i) : s.aBase.toNat + i ≠ s.bBase.toNat + k := by
  rcases h with heq | hbelow | habove
  · rw [heq]; omega
  · omega
  · omega

/-- Each word of B is the old word of A (R82). -/
theorem readWord_copiedMem_B : (copiedMem s).readWord (s.bBase.toNat + i) = s.mem.readWord (s.aBase.toNat + i) := by
  rw [copiedMem, readWord_rewriteWords _ _ _ _ _ hi]
  exact readWord_rewriteWords_other _ _ _ _ _ fun k hk => word_of_A_ne_earlier_word_of_B h hi hk

/-- Each word of A is kept (R82). -/
theorem readWord_copiedMem_A : (copiedMem s).readWord (s.aBase.toNat + i) = s.mem.readWord (s.aBase.toNat + i) := by
  have hB := readWord_copiedMem_B h hi
  rcases h with heq | hbelow | habove
  · rw [← heq] at hB
    exact hB
  all_goals exact readWord_rewriteWords_other _ _ _ _ _ fun k hk => by omega

end sameOrApart

/-- Settles O28: `copiedMem` is the fold of the statement. -/
theorem copyWritesBufferB : Obligations.CopyWritesBufferB := by
  refine ⟨fun c => decode_eq_ok_iff_eq_encode rfl, fun s hc hb => ?_, failsInOrder_of_ne_layout (by decide)⟩
  have hexec := exec_copy_completes hc hb
  exact ⟨copiedMem s, hexec, rfl, fun hsa i hi => readWord_copiedMem_B hsa hi, keepsBytesOutside_of_exec hexec⟩

/-! COPY and then CMPEQ. -/

/-- The comparison of a word with itself finds no difference, whatever the layout (R91, R92). -/
theorem neqWord_self (L : Layout) (w : Word) : neqWord L w w = 0 := by
  simp [neqWord, foldEqualBits]

/-- A loop that accumulates no difference ends with none. -/
theorem foldl_or_eq_zero {f : Nat → Word} {xs : List Nat} (h : ∀ i ∈ xs, f i = 0) :
    xs.foldl (fun d i => d ||| f i) 0 = 0 := by
  induction xs with
  | nil => rfl
  | cons i xs ih =>
    rw [List.foldl_cons, h i List.mem_cons_self, BitVec.or_self]
    exact ih fun j hj => h j (List.mem_cons_of_mem i hj)

/-- CMPEQ of buffers with the same words reports Equal (R91). -/
theorem exec_cmpeq_of_words_eq {s : State} (hc : ChecksPass .cmpeq s) (hb : PortBacks .cmpeq s)
    (heq : ∀ i, i < s.wordCount.toNat →
      s.mem.readWord (s.aBase.toNat + i) = s.mem.readWord (s.bBase.toNat + i)) :
    ∃ u, exec .cmpeq s = .next u ∧ u.result = 0 ∧ u.status.extractLsb' 0 4 = 0 := by
  have hp := (prologue_eq_none_iff_checksPass .cmpeq s (by decide)).2 hc
  obtain ⟨t, ht⟩ := exec_answers (by decide) hc hb
  obtain ⟨u, hu, rfl⟩ := withPrologue_completes hp ((exec_cmpeq s).symm.trans ht)
  refine ⟨_, ht, ?_, statusWithErr_err u.status 0⟩
  have hdiff := foldl_or_eq_zero (xs := List.range s.wordCount.toNat) fun i hi =>
    show neqWord (activeLayout s) (s.mem.readWord (s.aBase.toNat + i)) (s.mem.readWord (s.bBase.toNat + i)) = 0 by
      rw [heq i (List.mem_range.1 hi), neqWord_self]
  rw [complete_result, (compareBuffers_computes hu).1, hdiff]
  rfl

/-- COPY and CMPEQ access the same words (R46). -/
theorem portBacks_cmpeq_of_copy {s : State} (h : PortBacks .copy s) : PortBacks .cmpeq s := by
  intro x hx
  obtain ⟨i, hi, hx⟩ := List.mem_flatMap.1 hx
  have hpass (y : Access) (hy : y ∈ [.read (s.aBase.toNat + i), .write (s.bBase.toNat + i)]) :=
    h y (List.mem_flatMap.2 ⟨i, hi, hy⟩)
  rcases List.mem_cons.1 hx with rfl | hx
  · exact hpass _ List.mem_cons_self
  · obtain rfl := List.mem_singleton.1 hx
    exact hpass (.write (s.bBase.toNat + i)) (List.mem_cons_of_mem _ List.mem_cons_self)

/-- Settles O30: after COPY the words of A and of B are both the old words of A. -/
theorem copyThenCompareReportsEqual : Obligations.CopyThenCompareReportsEqual := by
  intro s hc hb hsa
  obtain ⟨hvalid, hchecks⟩ := hc
  obtain ⟨u, hu, hreport⟩ := exec_cmpeq_of_words_eq
    (s := { s with status := okStatus s, mem := copiedMem s, port := s.port ++ accesses .copy s })
    ⟨(okStatus_valid s).trans hvalid, hchecks⟩ (portBacks_cmpeq_of_copy hb)
    fun i hi => (readWord_copiedMem_A hsa hi).trans (readWord_copiedMem_B hsa hi).symm
  exact ⟨_, u, exec_copy_completes ⟨hvalid, hchecks⟩ hb, hu, hreport⟩

end Sys2Proof.Proofs
end

section
/-! PROOFS. LGET and LSET: a lane of a word bit by bit, and the one word that holds lane LANE_IDX (R80, R83, R84). -/

namespace Sys2Proof.Proofs

open Sys2Proof.Machine Sys2Proof.Safety Sys2Proof.Laws

/-! One lane of a word. -/

theorem lowBits_getLsbD (l : Nat) {b : Nat} (hb : b < 64) : (lowBits l).getLsbD b = decide (b < l) := by
  rw [lowBits, BitVec.getLsbD_ofNat, Nat.testBit_two_pow_sub_one, decide_eq_true hb, Bool.true_and]

/-- The value of slot k has the l bits of the word from bit ks upward (R80). -/
theorem laneWord_getLsbD (L : Layout) (w : Word) (k : Nat) {b : Nat} (hb : b < 64) :
    (laneWord L w k).getLsbD b = (decide (b < L.l) && w.getLsbD (k * L.s + b)) := by
  rw [laneWord, BitVec.getLsbD_and, BitVec.getLsbD_ushiftRight, lowBits_getLsbD L.l hb, Bool.and_comm]

/-- The word has the l bits of v from bit ks upward, and keeps every other bit (R84). -/
theorem insertLane_getLsbD (L : Layout) (w v : Word) (k : Nat) {b : Nat} (hb : b < 64) :
    (insertLane L w v k).getLsbD b =
      if k * L.s ≤ b ∧ b < k * L.s + L.l then v.getLsbD (b - k * L.s) else w.getLsbD b := by
  have hlow : (lowBits L.l).getLsbD (b - k * L.s) = decide (b - k * L.s < L.l) := lowBits_getLsbD L.l (by omega)
  simp only [insertLane, BitVec.getLsbD_or, BitVec.getLsbD_and, BitVec.getLsbD_not, BitVec.getLsbD_shiftLeft, hlow,
    decide_eq_true hb, Bool.true_and]
  by_cases hbelow : b < k * L.s
  · have hout : ¬ (k * L.s ≤ b ∧ b < k * L.s + L.l) := by omega
    simp [hbelow, hout]
  by_cases habove : b - k * L.s < L.l
  · have hin : k * L.s ≤ b ∧ b < k * L.s + L.l := by omega
    simp [hbelow, habove, hin]
  · have hout : ¬ (k * L.s ≤ b ∧ b < k * L.s + L.l) := by omega
    simp [hbelow, habove, hout]

/-- A lane that lies in the word reads as the low l bits that were put there (R84). -/
theorem laneWord_insertLane (L : Layout) (w v : Word) (k : Nat) (hfit : k * L.s + L.l ≤ 64) :
    laneWord L (insertLane L w v k) k = v &&& lowBits L.l := by
  apply BitVec.eq_of_getLsbD_eq
  intro b hb
  rw [laneWord_getLsbD L _ k hb, BitVec.getLsbD_and, lowBits_getLsbD L.l hb, Bool.and_comm]
  by_cases hl : b < L.l
  · rw [insertLane_getLsbD L w v k (by omega), if_pos (by omega), Nat.add_sub_cancel_left]
  · simp only [decide_eq_false hl, Bool.and_false]

theorem toNat_and_lowBits (v : Word) {l : Nat} (hl : l ≤ 64) : (v &&& lowBits l).toNat = v.toNat % 2 ^ l := by
  have hpow : 2 ^ l ≤ 2 ^ 64 := Nat.pow_le_pow_right (by decide) hl
  have hpos : 0 < 2 ^ l := Nat.two_pow_pos l
  have hlow : (lowBits l).toNat = 2 ^ l - 1 := Nat.mod_eq_of_lt (by omega)
  rw [BitVec.toNat_and, hlow, Nat.and_two_pow_sub_one_eq_mod]

/-! The commands. -/

/-- LGET past its checks: one read (R46, R83). -/
theorem exec_lget_completes {s : State} (hc : ChecksPass .lget s) (hb : PortBacks .lget s) :
    exec .lget s = .next { s with
      status := okStatus s
      laneData := laneWord (activeLayout s) (s.mem.readWord (laneWordAddr s)) (laneSlot s)
      port := s.port ++ [.read (laneWordAddr s)] } := by
  have hp : prologue true false true s = none := (prologue_eq_none_iff_checksPass .lget s (by decide)).2 hc
  have hback : accessFault s.params (laneAddr s) = none := accessFault_eq_none.2 (hb _ List.mem_cons_self)
  rw [exec_lget, withPrologue_of_none hp, memRead_of_backed hback, andThen_next, andThen_next, complete_eq]
  rfl

/-- The memory after LSET: the word of the lane with the lane replaced (R84). -/
def laneSetMem (s : State) : Memory :=
  s.mem.writeWord (laneWordAddr s)
    (insertLane (activeLayout s) (s.mem.readWord (laneWordAddr s)) s.laneData (laneSlot s))

/-- LSET past its checks: one read and one write of the word that holds the lane (R46, R84). -/
theorem exec_lset_completes {s : State} (hc : ChecksPass .lset s) (hb : PortBacks .lset s) :
    exec .lset s = .next { s with
      status := okStatus s
      mem := laneSetMem s
      port := s.port ++ [.read (laneWordAddr s), .write (laneWordAddr s)] } := by
  have hp : prologue true false true s = none := (prologue_eq_none_iff_checksPass .lset s (by decide)).2 hc
  have hback : accessFault s.params (laneAddr s) = none := accessFault_eq_none.2 (hb _ List.mem_cons_self)
  rw [exec_lset, withPrologue_of_none hp, memRead_of_backed hback, andThen_next,
    memWrite_of_backed (s := s.logAccess (.read (laneAddr s))) hback, andThen_next, complete_eq]
  simp [laneSetMem, laneAddr, laneWordAddr, State.logAccess, State.withMem, okStatus]

/-- Settles O31: LANE_DATA takes `laneWord`, bit by bit. -/
theorem lgetReadsRawLane : Obligations.LgetReadsRawLane :=
  ⟨fun _ => decode_eq_ok_iff_eq_encode rfl,
    fun s hc hb => ⟨_, exec_lget_completes hc hb, fun _ => laneWord_getLsbD (activeLayout s) _ (laneSlot s)⟩,
    failsInOrder_of_ne_layout (by decide)⟩

/-- Settles O32: the word of the lane takes `insertLane`, bit by bit. -/
theorem lsetChangesOneLane : Obligations.LsetChangesOneLane := by
  refine ⟨fun c => decode_eq_ok_iff_eq_encode rfl, fun s hc hb => ?_, failsInOrder_of_ne_layout (by decide)⟩
  have hexec := exec_lset_completes hc hb
  have hword : (laneSetMem s).readWord (laneWordAddr s) =
      insertLane (activeLayout s) (s.mem.readWord (laneWordAddr s)) s.laneData (laneSlot s) :=
    readWord_writeWord_same _ _ _
  -- The memory is opaque from here: comparing states must not unfold the store.
  generalize laneSetMem s = m at hexec hword
  refine ⟨m, hexec, fun b hb => ?_, keepsBytesOutside_of_exec hexec⟩
  rw [hword]
  exact insertLane_getLsbD (activeLayout s) _ s.laneData (laneSlot s) hb

/-- With a valid layout the lane that LANE_IDX names lies in its word (R32, R73). -/
theorem lane_fits_of_layoutInv {s : State} (hinv : LayoutInv s) (hvalid : s.status.getLsbD 8 = true) :
    laneSlot s * s.lanePitch.toNat + s.laneWidth.toNat ≤ 64 := by
  rcases hinv with ⟨hinvalid, -⟩ | ⟨-, l, h32, h2, -, hl, hs, hn, -⟩
  · rw [hvalid] at hinvalid; cases hinvalid
  obtain ⟨hfit, -, hword⟩ := lanePitchOf_fits l h32 h2
  have hslot : laneSlot s + 1 ≤ 64 / lanePitchOf l := by
    rw [laneSlot, hn]
    exact Nat.mod_lt _ (Nat.pos_of_ne_zero fun h0 => by simp [h0] at hword)
  rw [hs, hl]
  calc laneSlot s * lanePitchOf l + l
      ≤ (laneSlot s + 1) * lanePitchOf l := by rw [Nat.succ_mul]; omega
    _ ≤ 64 / lanePitchOf l * lanePitchOf l := Nat.mul_le_mul_right _ hslot
    _ = 64 := hword

/-- LSET leaves LGET of the same lane ready (R118). -/
theorem exec_lget_after_lset {s : State} (hc : ChecksPass .lset s) (hb : PortBacks .lset s) :
    ∃ t u, exec .lset s = .next t ∧ exec .lget t = .next u ∧
      u.laneData = laneWord (activeLayout s) ((laneSetMem s).readWord (laneWordAddr s)) (laneSlot s) := by
  have hexec := exec_lset_completes hc hb
  generalize laneSetMem s = m at hexec ⊢
  obtain ⟨hvalid, hchecks⟩ := hc
  refine ⟨_, _, hexec, exec_lget_completes ?_ ?_, rfl⟩
  · exact ⟨(okStatus_valid s).trans hvalid, hchecks⟩
  · exact fun x hx => hb x (List.mem_cons.2 (.inl (List.mem_singleton.1 hx)))

/-- Settles O33: the lane put into the word is the lane read back. -/
theorem lsetThenLgetReturnsLowBits : Obligations.LsetThenLgetReturnsLowBits := by
  intro s hinv hc hb
  have ⟨hvalid, _⟩ := hc
  have hfit := lane_fits_of_layoutInv hinv hvalid
  obtain ⟨t, u, ht, hu, hdata⟩ := exec_lget_after_lset hc hb
  refine ⟨t, u, ht, hu, ?_⟩
  rw [hdata, laneSetMem, readWord_writeWord_same, laneWord_insertLane _ _ _ _ hfit]
  exact toNat_and_lowBits s.laneData (show s.laneWidth.toNat ≤ 64 by omega)

end Sys2Proof.Proofs
end

section
/-! PROOFS. neq_word lane by lane: the fold of CMPEQ finds the lanes whose bits are all equal, and two lanes are
congruent modulo p exactly when they are equal or the two representatives 0 and p of zero (R90, R92, R93). -/

namespace Sys2Proof.Proofs

open Sys2Proof.Machine Sys2Proof.Safety Sys2Proof.Laws

/-! One lane as a number. -/

section lanes

variable (L : Layout) (a b : Word) (k : Nat)

/-- Bit i of a lane is bit ks + i of its word, below the lane width (R80). -/
theorem lane_testBit (i : Nat) : (lane L a k).testBit i = (decide (i < L.l) && a.getLsbD (k * L.s + i)) := by
  rw [lane, BitVec.testBit_toNat]
  by_cases hi : i < 64
  · exact laneWord_getLsbD L a k hi
  · rw [BitVec.getLsbD_of_ge _ i (by omega), BitVec.getLsbD_of_ge a _ (by omega), Bool.and_false]

theorem lane_xor : lane L (a ^^^ b) k = lane L a k ^^^ lane L b k := by
  apply Nat.eq_of_testBit_eq
  intro i
  simp only [Nat.testBit_xor, lane_testBit, BitVec.getLsbD_xor, Bool.and_xor_distrib_left]

theorem lane_and : lane L (a &&& b) k = lane L a k &&& lane L b k := by
  apply Nat.eq_of_testBit_eq
  intro i
  simp only [Nat.testBit_and, lane_testBit, BitVec.getLsbD_and]
  cases decide (i < L.l) <;> rfl

theorem lane_or : lane L (a ||| b) k = lane L a k ||| lane L b k := by
  apply Nat.eq_of_testBit_eq
  intro i
  simp only [Nat.testBit_or, lane_testBit, BitVec.getLsbD_or, Bool.and_or_distrib_left]

theorem lane_lt : lane L a k < 2 ^ L.l := by
  apply Nat.lt_pow_two_of_testBit
  intro i hi
  rw [lane_testBit, decide_eq_false (Nat.not_lt.2 hi), Bool.false_and]

end lanes

/-! Numbers of l bits. -/

section numbers

variable {l x y : Nat}

/-- The bits of a number are all equal exactly when it is 0 or all ones. -/
theorem bits_equal_iff (hx : x < 2 ^ l) :
    (∀ i, i + 1 < l → x.testBit i = x.testBit (i + 1)) ↔ x = 0 ∨ x = 2 ^ l - 1 := by
  constructor
  · intro h
    have hall (i : Nat) (hi : i < l) : x.testBit i = x.testBit 0 := by
      induction i with
      | zero => rfl
      | succ i ih => rw [← h i hi, ih (by omega)]
    have habove (i : Nat) (hi : ¬ i < l) : x.testBit i = false :=
      Nat.testBit_eq_false_of_lt (hx.trans_le (Nat.pow_le_pow_right (by decide) (Nat.not_lt.1 hi)))
    cases h0 : x.testBit 0 with
    | false =>
      refine .inl (Nat.zero_of_testBit_eq_false fun i => ?_)
      by_cases hi : i < l
      · rw [hall i hi, h0]
      · exact habove i hi
    | true =>
      refine .inr (Nat.eq_of_testBit_eq fun i => ?_)
      rw [Nat.testBit_two_pow_sub_one]
      by_cases hi : i < l
      · rw [hall i hi, h0, decide_eq_true hi]
      · rw [habove i hi, decide_eq_false hi]
  · rintro (rfl | rfl) i hi
    · rw [Nat.zero_testBit, Nat.zero_testBit]
    · rw [Nat.testBit_two_pow_sub_one, Nat.testBit_two_pow_sub_one, decide_eq_true hi, decide_eq_true (by omega)]

/-- Two numbers of l bits differ in every bit exactly when they sum to p. -/
theorem xor_eq_ones_iff (hx : x < 2 ^ l) (hy : y < 2 ^ l) : x ^^^ y = 2 ^ l - 1 ↔ x + y = 2 ^ l - 1 := by
  have hcompl : x ^^^ (2 ^ l - 1) = 2 ^ l - 1 - x := by
    apply Nat.eq_of_testBit_eq
    intro i
    rw [Nat.testBit_xor, Nat.testBit_two_pow_sub_one, Nat.sub_sub, Nat.add_comm 1 x, Nat.testBit_two_pow_sub_succ hx]
    by_cases hi : i < l
    · simp [hi]
    · simp [hi, Nat.testBit_eq_false_of_lt (hx.trans_le (Nat.pow_le_pow_right (by decide) (Nat.not_lt.1 hi)))]
  calc x ^^^ y = 2 ^ l - 1
      ↔ y = x ^^^ (2 ^ l - 1) := by
        constructor
        · intro h; rw [← h, ← Nat.xor_assoc, Nat.xor_self, Nat.zero_xor]
        · rintro h; rw [h, ← Nat.xor_assoc, Nat.xor_self, Nat.zero_xor]
    _ ↔ x + y = 2 ^ l - 1 := by rw [hcompl]; omega

/-- Congruence modulo p of two numbers of l bits: they are equal, or one is 0 and the other p (R90). -/
theorem mod_mersenne_eq_iff (hx : x < 2 ^ l) (hy : y < 2 ^ l) :
    x % (2 ^ l - 1) = y % (2 ^ l - 1) ↔ x = y ∨ x + y = 2 ^ l - 1 ∧ (x = 0 ∨ x = 2 ^ l - 1) := by
  have hmod {z : Nat} (hz : z < 2 ^ l) :
      z = 2 ^ l - 1 ∧ z % (2 ^ l - 1) = 0 ∨ z < 2 ^ l - 1 ∧ z % (2 ^ l - 1) = z := by
    rcases Nat.lt_or_ge z (2 ^ l - 1) with h | h
    · exact .inr ⟨h, Nat.mod_eq_of_lt h⟩
    · obtain rfl : z = 2 ^ l - 1 := by omega
      exact .inl ⟨rfl, Nat.mod_self _⟩
  rcases hmod hx with ⟨hx, hxm⟩ | ⟨hx, hxm⟩ <;> rcases hmod hy with ⟨hy, hym⟩ | ⟨hy, hym⟩ <;> omega

/-- The two tests of neq_word on one lane (R92, R93). -/
theorem neq_tests_iff (hx : x < 2 ^ l) (hy : y < 2 ^ l) :
    ((x ^^^ y = 0 ∨ x ^^^ y = 2 ^ l - 1) ∧ ((x ^^^ y) &&& x = 0 ∨ (x ^^^ y) &&& x = 2 ^ l - 1)) ↔
      x % (2 ^ l - 1) = y % (2 ^ l - 1) := by
  rw [mod_mersenne_eq_iff hx hy, Nat.xor_eq_zero_iff, ← xor_eq_ones_iff hx hy]
  by_cases heq : x = y
  · simp [heq]
  · have hand (h : x ^^^ y = 2 ^ l - 1) : (x ^^^ y) &&& x = x := by
      rw [h, Nat.and_comm, Nat.and_two_pow_sub_one_eq_mod, Nat.mod_eq_of_lt hx]
    simp only [heq, false_or]
    exact and_congr_right fun h => by rw [hand h]

end numbers

/-! neq_word. -/

section neqWord

variable {l : Nat} (h32 : l ≤ 32) (h2 : 2 ≤ l)
include h32 h2

/-- The fold is 0 exactly when the value bits of each lane are all equal (R92). -/
theorem foldEqualBits_eq_zero_iff (v : Word) :
    foldEqualBits (deriveLayout l) v = 0 ↔ ∀ k, k < 64 / lanePitchOf l →
      lane (deriveLayout l) v k = 0 ∨ lane (deriveLayout l) v k = 2 ^ l - 1 := by
  obtain ⟨hfit, -, hword⟩ := lanePitchOf_fits l h32 h2
  have hbits : foldEqualBits (deriveLayout l) v = 0 ↔
      ∀ b, b < 64 → b % lanePitchOf l < l - 1 → v.getLsbD b = v.getLsbD (b + 1) := by
    rw [foldEqualBits, and_mask_eq_zero_iff]
    refine forall₂_congr fun b hb => ?_
    rw [show (deriveLayout l).cm = checkMaskOf l (lanePitchOf l) from rfl, checkMaskOf_getLsbD l h32 h2 b hb,
      decide_eq_true_eq, BitVec.getLsbD_xor, BitVec.getLsbD_ushiftRight, Nat.add_comm 1 b, bne_eq_false_iff_eq]
  rw [hbits]
  calc (∀ b, b < 64 → b % lanePitchOf l < l - 1 → v.getLsbD b = v.getLsbD (b + 1))
      ↔ ∀ k, k < 64 / lanePitchOf l → ∀ i, i + 1 < l →
          v.getLsbD (k * lanePitchOf l + i) = v.getLsbD (k * lanePitchOf l + (i + 1)) := by
        constructor
        · intro h k hk i hi
          have hend : (k + 1) * lanePitchOf l ≤ 64 := hword ▸ Nat.mul_le_mul_right _ hk
          refine h _ (by rw [Nat.succ_mul] at hend; omega) ?_
          rw [Nat.mul_add_mod_self_right, Nat.mod_eq_of_lt (by omega)]
          omega
        · intro h b hb hi
          have hslot : b / lanePitchOf l < 64 / lanePitchOf l := Nat.div_lt_of_lt_mul (by rwa [Nat.mul_comm, hword])
          have hbits := h (b / lanePitchOf l) hslot (b % lanePitchOf l) (by omega)
          rwa [← Nat.add_assoc, Nat.div_add_mod'] at hbits
    _ ↔ _ := forall₂_congr fun k _ => by
        rw [← bits_equal_iff (l := l) (lane_lt (deriveLayout l) v k)]
        refine forall₂_congr fun i hi => ?_
        rw [lane_testBit, lane_testBit, decide_eq_true (show i < (deriveLayout l).l by exact Nat.lt_of_succ_lt hi),
          decide_eq_true (show i + 1 < (deriveLayout l).l from hi), Bool.true_and, Bool.true_and]
        rfl

/-- neq_word is 0 exactly when every two lanes are congruent modulo p (R92, R93). -/
theorem neqWord_eq_zero_iff (a b : Word) :
    neqWord (deriveLayout l) a b = 0 ↔ ∀ k, k < 64 / lanePitchOf l →
      lane (deriveLayout l) a k % (2 ^ l - 1) = lane (deriveLayout l) b k % (2 ^ l - 1) := by
  have htests : neqWord (deriveLayout l) a b = 0 ↔ foldEqualBits (deriveLayout l) (a ^^^ b) = 0 ∧
      foldEqualBits (deriveLayout l) ((a ^^^ b) &&& a) = 0 := BitVec.or_eq_zero_iff
  rw [htests, foldEqualBits_eq_zero_iff h32 h2, foldEqualBits_eq_zero_iff h32 h2]
  simp only [← forall₂_and]
  refine forall₂_congr fun k _ => ?_
  rw [lane_and, lane_xor]
  exact neq_tests_iff (lane_lt _ a k) (lane_lt _ b k)

end neqWord

/-- Settles O34. -/
theorem neqWordLaneLaw : Obligations.NeqWordLaneLaw := fun _ h2 h32 => neqWord_eq_zero_iff h32 h2

end Sys2Proof.Proofs
end

section
/-! PROOFS. smul_word lane by lane, modulo p: a word is two planes, each slot of a plane is wide enough for a product of
two lanes, and each fold replaces 2^l by 1 (R106, R107). -/

namespace Sys2Proof.Proofs

open Sys2Proof.Machine Sys2Proof.Safety Sys2Proof.Laws

/-! Slots of a plane. -/

/-- The number in slot j of a plane: a plane's slots are two pitches wide (R101). -/
def planeSlot (s : Nat) (w : Word) (j : Nat) : Nat := w.toNat / (2 ^ (2 * s)) ^ j % 2 ^ (2 * s)

theorem planeSlot_testBit (s : Nat) (w : Word) (j i : Nat) :
    (planeSlot s w j).testBit i = (decide (i < 2 * s) && w.getLsbD (2 * s * j + i)) := by
  rw [planeSlot, ← pow_mul, Nat.testBit_mod_two_pow, Nat.testBit_div_two_pow, Nat.add_comm, BitVec.testBit_toNat]

/-- Digits whose sums do not carry add up to less than the next digit's weight. -/
theorem mod_pow_add_mod_pow_lt {B x y : Nat} :
    ∀ j, (∀ i, i < j → x / B ^ i % B + y / B ^ i % B < B) → x % B ^ j + y % B ^ j < B ^ j := by
  intro j
  induction j with
  | zero => intro _; simp [Nat.mod_one]
  | succ j ih =>
    intro h
    have hlow := ih fun i hi => h i (by omega)
    have hdigit : B ^ j * (x / B ^ j % B + y / B ^ j % B + 1) ≤ B ^ j * B := Nat.mul_le_mul_left _ (h j (by omega))
    rw [Nat.mod_pow_succ, Nat.mod_pow_succ, Nat.pow_succ]
    rw [Nat.mul_add, Nat.mul_add, Nat.mul_one] at hdigit
    omega

section arithmetic

variable {s m : Nat} (hm : 2 * s * m ≤ 64) {x y : Word}
include hm

/-- A sum without carries between slots is the sum of the slots (R102). -/
theorem planeSlot_add (h : ∀ j, j < m → planeSlot s x j + planeSlot s y j < 2 ^ (2 * s)) {j : Nat} (hj : j < m) :
    planeSlot s (x + y) j = planeSlot s x j + planeSlot s y j := by
  have hpos (i : Nat) : 0 < (2 ^ (2 * s)) ^ i := Nat.pow_pos (Nat.two_pow_pos _)
  have hlow := mod_pow_add_mod_pow_lt j fun i hi => h i (hi.trans hj)
  have hdvd : (2 ^ (2 * s)) ^ j * 2 ^ (2 * s) ∣ 2 ^ 64 := by
    rw [← Nat.pow_succ, ← pow_mul]
    exact Nat.pow_dvd_pow 2 ((Nat.mul_le_mul_left _ hj).trans hm)
  calc (x + y).toNat / (2 ^ (2 * s)) ^ j % 2 ^ (2 * s)
      = (x.toNat + y.toNat) % 2 ^ 64 % ((2 ^ (2 * s)) ^ j * 2 ^ (2 * s)) / (2 ^ (2 * s)) ^ j := by
        rw [BitVec.toNat_add, Nat.mod_mul_right_div_self]
    _ = (x.toNat + y.toNat) / (2 ^ (2 * s)) ^ j % 2 ^ (2 * s) := by
        rw [Nat.mod_mod_of_dvd _ hdvd, Nat.mod_mul_right_div_self]
    _ = (x.toNat / (2 ^ (2 * s)) ^ j + y.toNat / (2 ^ (2 * s)) ^ j) % 2 ^ (2 * s) := by
        rw [Nat.add_div (hpos j), if_neg (Nat.not_le.2 hlow), Nat.add_zero]
    _ = planeSlot s x j + planeSlot s y j := by
        rw [Nat.add_mod]
        exact Nat.mod_eq_of_lt (h j hj)

/-- A product without carries between slots is the product of the slots (R107). -/
theorem planeSlot_mul {f : Nat} (h : ∀ j, j < m → planeSlot s x j * f < 2 ^ (2 * s)) :
    ∀ j, j < m → planeSlot s (x * BitVec.ofNat 64 f) j = planeSlot s x j * f := by
  induction f with
  | zero => intro j _; simp [planeSlot]
  | succ f ih =>
    have hprod := ih fun j hj => (Nat.mul_le_mul_left _ (Nat.le_succ f)).trans_lt (h j hj)
    intro j hj
    rw [BitVec.ofNat_add, BitVec.mul_add, BitVec.mul_one, Nat.mul_succ, ← hprod j hj]
    exact planeSlot_add hm (fun i hi => by rw [hprod i hi]; exact h i hi) hj

end arithmetic

/-! Masks and shifts on the slots of a plane. -/

section planes

variable {l : Nat} (h32 : l ≤ 32) (h2 : 2 ≤ l) {j : Nat} (hj : 2 * lanePitchOf l * (j + 1) ≤ 64) (w : Word)
include h32 h2 hj

/-- PM keeps the low l bits of a slot (R72). -/
theorem planeSlot_and_planeMask :
    planeSlot (lanePitchOf l) (w &&& planeMaskOf l (lanePitchOf l)) j = planeSlot (lanePitchOf l) w j % 2 ^ l := by
  obtain ⟨hfit, -, -⟩ := lanePitchOf_fits l h32 h2
  apply Nat.eq_of_testBit_eq
  intro i
  rw [planeSlot_testBit, Nat.testBit_mod_two_pow, planeSlot_testBit, BitVec.getLsbD_and]
  by_cases hi : i < 2 * lanePitchOf l
  · rw [planeMaskOf_getLsbD l h32 h2 _ (by rw [Nat.mul_succ] at hj; omega), Nat.mul_add_mod, Nat.mod_eq_of_lt hi]
    simp only [hi, decide_true, Bool.true_and, Bool.and_comm]
  · simp [hi]

/-- Moved down by l and masked by PM, a slot is its next l bits (R106). -/
theorem planeSlot_high :
    planeSlot (lanePitchOf l) ((w >>> l) &&& planeMaskOf l (lanePitchOf l)) j =
      planeSlot (lanePitchOf l) w j / 2 ^ l % 2 ^ l := by
  obtain ⟨hfit, -, -⟩ := lanePitchOf_fits l h32 h2
  rw [planeSlot_and_planeMask h32 h2 hj]
  apply Nat.eq_of_testBit_eq
  intro i
  rw [Nat.testBit_mod_two_pow, Nat.testBit_mod_two_pow, Nat.testBit_div_two_pow, planeSlot_testBit,
    planeSlot_testBit, BitVec.getLsbD_ushiftRight]
  by_cases hi : i < l
  · rw [decide_eq_true (show i < 2 * lanePitchOf l by omega), decide_eq_true (show i + l < 2 * lanePitchOf l by omega)]
    congr 3
    omega
  · simp [hi]

/-- Masked by GM and moved down by l, a slot is its bit l (R106). -/
theorem planeSlot_guard :
    planeSlot (lanePitchOf l) ((w &&& guardMaskOf l (lanePitchOf l)) >>> l) j =
      planeSlot (lanePitchOf l) w j / 2 ^ l % 2 := by
  obtain ⟨hfit, -, -⟩ := lanePitchOf_fits l h32 h2
  have hguard (i : Nat) (hi : i < 2 * lanePitchOf l) (hb : l + (2 * lanePitchOf l * j + i) < 64) :
      (guardMaskOf l (lanePitchOf l)).getLsbD (l + (2 * lanePitchOf l * j + i)) = decide (i = 0) := by
    rw [guardMaskOf_getLsbD l h32 h2 _ hb, Nat.add_left_comm, Nat.mul_add_mod, decide_eq_decide]
    rcases Nat.lt_or_ge (l + i) (2 * lanePitchOf l) with hin | hout
    · rw [Nat.mod_eq_of_lt hin]; omega
    · rw [Nat.mod_eq_sub_mod hout, Nat.mod_eq_of_lt (by omega)]; omega
  apply Nat.eq_of_testBit_eq
  intro i
  rw [Nat.testBit_mod_two_pow (j := 1), Nat.testBit_div_two_pow, planeSlot_testBit, planeSlot_testBit,
    BitVec.getLsbD_ushiftRight, BitVec.getLsbD_and]
  by_cases hi : i < 2 * lanePitchOf l
  · by_cases hb : l + (2 * lanePitchOf l * j + i) < 64
    · rw [hguard i hi hb]
      by_cases h0 : i = 0
      · subst h0
        simp [show 0 < lanePitchOf l by omega, show l < 2 * lanePitchOf l by omega, Nat.add_comm l]
      · simp [h0]
    · have h0 : i ≠ 0 := by rw [Nat.mul_succ] at hj; omega
      rw [BitVec.getLsbD_of_ge w _ (Nat.not_lt.1 hb)]
      simp [h0]
  · have h0 : i ≠ 0 := by omega
    simp [hi, h0]

end planes

/-! Lanes and slots. -/

section planeLanes

variable (L : Layout) (w : Word) (j : Nat)

theorem lane_ushiftRight (k : Nat) : lane L (w >>> L.s) k = lane L w (k + 1) := by
  apply Nat.eq_of_testBit_eq
  intro i
  rw [lane_testBit, lane_testBit, BitVec.getLsbD_ushiftRight, Nat.succ_mul, Nat.add_right_comm, Nat.add_comm L.s]

theorem lane_shiftLeft_succ (hfit : L.l ≤ L.s) {k : Nat} (hk : (k + 2) * L.s ≤ 64) :
    lane L (w <<< L.s) (k + 1) = lane L w k := by
  apply Nat.eq_of_testBit_eq
  intro i
  rw [lane_testBit, lane_testBit, BitVec.getLsbD_shiftLeft]
  by_cases hi : i < L.l
  · have hpos : (k + 1) * L.s + i - L.s = k * L.s + i := by rw [Nat.succ_mul]; omega
    have hin : (k + 1) * L.s + i < 64 := by rw [Nat.succ_mul] at hk; omega
    have hge : ¬ (k + 1) * L.s + i < L.s := by rw [Nat.succ_mul]; omega
    simp only [hpos, hin, hge, decide_true, decide_false, Bool.true_and, Bool.not_false]
  · simp only [hi, decide_false, Bool.false_and]

theorem lane_shiftLeft_zero (hfit : L.l ≤ L.s) : lane L (w <<< L.s) 0 = 0 := by
  apply Nat.eq_of_testBit_eq
  intro i
  rw [lane_testBit, BitVec.getLsbD_shiftLeft, Nat.zero_testBit, Nat.zero_mul, Nat.zero_add]
  by_cases hi : i < L.l
  · rw [decide_eq_true (show i < L.s by omega), Bool.not_true, Bool.and_false, Bool.false_and, Bool.and_false]
  · rw [decide_eq_false hi, Bool.false_and]

/-- An even lane is the low part of a plane's slot (R101). -/
theorem lane_even (hfit : L.l ≤ L.s) : lane L w (2 * j) = planeSlot L.s w j % 2 ^ L.l := by
  apply Nat.eq_of_testBit_eq
  intro i
  rw [lane_testBit, Nat.testBit_mod_two_pow, planeSlot_testBit, Nat.mul_right_comm]
  by_cases hi : i < L.l
  · rw [decide_eq_true (show i < 2 * L.s by omega), Bool.true_and]
  · simp only [hi, decide_false, Bool.false_and]

/-- An odd lane is the high part of a plane's slot (R101). -/
theorem lane_odd (hfit : L.l ≤ L.s) : lane L w (2 * j + 1) = planeSlot L.s w j / 2 ^ L.s % 2 ^ L.l := by
  apply Nat.eq_of_testBit_eq
  intro i
  rw [lane_testBit, Nat.testBit_mod_two_pow, Nat.testBit_div_two_pow, planeSlot_testBit]
  by_cases hi : i < L.l
  · rw [decide_eq_true (show i + L.s < 2 * L.s by omega), Bool.true_and, Nat.succ_mul,
      Nat.mul_right_comm, Nat.add_assoc, Nat.add_comm L.s]
  · simp only [hi, decide_false, Bool.false_and]

end planeLanes

/-- The slots of a plane lie in the word. -/
theorem slot_end_le {s m j : Nat} (hm : 2 * s * m ≤ 64) (hj : j < m) : 2 * s * (j + 1) ≤ 64 :=
  (Nat.mul_le_mul_left _ hj).trans hm

/-- Each slot of a plane holds two lanes. -/
theorem odd_lane_end_le {s m j : Nat} (hm : 2 * s * m ≤ 64) (hj : j < m) : (2 * j + 2) * s ≤ 64 :=
  calc (2 * j + 2) * s = 2 * s * (j + 1) := by ring
    _ ≤ 64 := slot_end_le hm hj

section joinPlanes

variable {L : Layout} (hfit : L.l ≤ L.s) {m : Nat} (hm : 2 * L.s * m ≤ 64) {re ro : Word}
  (hre : ∀ j, j < m → planeSlot L.s re j < 2 ^ L.l) (hro : ∀ j, j < m → planeSlot L.s ro j < 2 ^ L.l)
include hfit hm hre hro

/-- Put together, the even lanes are the slots of the first plane (R101). -/
theorem lane_joinPlanes_even {j : Nat} (hj : j < m) : lane L (joinPlanes L re ro) (2 * j) = planeSlot L.s re j := by
  have hodd : lane L (ro <<< L.s) (2 * j) = 0 := by
    cases j with
    | zero => exact lane_shiftLeft_zero L ro hfit
    | succ i =>
      have hend := odd_lane_end_le hm hj
      rw [show 2 * (i + 1) = 2 * i + 1 + 1 from rfl,
        lane_shiftLeft_succ L ro hfit ((Nat.mul_le_mul_right _ (by omega)).trans hend), lane_odd L ro i hfit,
        Nat.div_eq_of_lt ((hro i (by omega)).trans_le (Nat.pow_le_pow_right (by decide) hfit)), Nat.zero_mod]
  rw [joinPlanes, lane_or, hodd, Nat.or_zero, lane_even L re j hfit, Nat.mod_eq_of_lt (hre j hj)]

/-- Put together, the odd lanes are the slots of the second plane (R101). -/
theorem lane_joinPlanes_odd {j : Nat} (hj : j < m) :
    lane L (joinPlanes L re ro) (2 * j + 1) = planeSlot L.s ro j := by
  have heven : lane L re (2 * j + 1) = 0 := by
    rw [lane_odd L re j hfit,
      Nat.div_eq_of_lt ((hre j hj).trans_le (Nat.pow_le_pow_right (by decide) hfit)), Nat.zero_mod]
  rw [joinPlanes, lane_or, heven, Nat.zero_or, lane_shiftLeft_succ L ro hfit (odd_lane_end_le hm hj),
    lane_even L ro j hfit, Nat.mod_eq_of_lt (hro j hj)]

end joinPlanes

/-! The folds, modulo p. -/

/-- 2^l is 1 modulo p (R106). -/
theorem mod_add_div_modEq (l t : Nat) : t % 2 ^ l + t / 2 ^ l ≡ t [MOD 2 ^ l - 1] := by
  have hone : 1 ≡ 2 ^ l [MOD 2 ^ l - 1] := (Nat.modEq_iff_dvd' Nat.one_le_two_pow).2 (dvd_refl _)
  calc t % 2 ^ l + t / 2 ^ l = t % 2 ^ l + 1 * (t / 2 ^ l) := by rw [Nat.one_mul]
    _ ≡ t % 2 ^ l + 2 ^ l * (t / 2 ^ l) [MOD 2 ^ l - 1] := (hone.mul_right _).add_left _
    _ = t := Nat.mod_add_div _ _

/-- The end-around carry of a sum of two lanes fits the lane, and keeps the sum modulo p (R102). -/
theorem mod_add_carry {l t : Nat} (ht : t ≤ 2 * (2 ^ l - 1)) :
    t % 2 ^ l + t / 2 ^ l % 2 < 2 ^ l ∧ t % 2 ^ l + t / 2 ^ l % 2 ≡ t [MOD 2 ^ l - 1] := by
  have hpos : 0 < 2 ^ l := Nat.two_pow_pos l
  have hcarry : t / 2 ^ l < 2 := Nat.div_lt_of_lt_mul (by omega)
  have hsplit := Nat.mod_add_div t (2 ^ l)
  have hlow := Nat.mod_lt t hpos
  rw [Nat.mod_eq_of_lt hcarry]
  refine ⟨?_, mod_add_div_modEq l t⟩
  generalize t / 2 ^ l = c at hcarry hsplit ⊢
  interval_cases c <;> omega

/-- The first fold of a product of two lanes is at most a sum of two lanes, and keeps the product modulo p (R107). -/
theorem fold_product {l t : Nat} (ht : t < 2 ^ l * 2 ^ l) :
    t % 2 ^ l + t / 2 ^ l % 2 ^ l ≤ 2 * (2 ^ l - 1) ∧ t % 2 ^ l + t / 2 ^ l % 2 ^ l ≡ t [MOD 2 ^ l - 1] := by
  have hhigh : t / 2 ^ l < 2 ^ l := Nat.div_lt_of_lt_mul ht
  have hlow := Nat.mod_lt t (Nat.two_pow_pos l)
  rw [Nat.mod_eq_of_lt hhigh]
  exact ⟨by omega, mod_add_div_modEq l t⟩

/-! smul_word. -/

/-- A plane times f, each slot folded back to a lane (R106). -/
def smulPlane (L : Layout) (f : Nat) (x : Word) : Word := foldCarry L (foldHigh L (x * BitVec.ofNat 64 f))

theorem smulWord_eq_planes (L : Layout) (f : Nat) (a : Word) :
    smulWord L f a = joinPlanes L (smulPlane L f (evenPlane L a)) (smulPlane L f (oddPlane L a)) := rfl

section smulWord

variable {l : Nat} (h32 : l ≤ 32) (h2 : 2 ≤ l) {m : Nat} (hm : 2 * lanePitchOf l * m ≤ 64)
include h32 h2 hm

/-- Masked by PM, a plane has room for numbers of l bits to be added to its slots. -/
theorem planeSlot_mask_add (t : Word) {y : Word} (hy : ∀ i, i < m → planeSlot (lanePitchOf l) y i < 2 ^ l)
    {j : Nat} (hj : j < m) :
    planeSlot (lanePitchOf l) ((t &&& planeMaskOf l (lanePitchOf l)) + y) j =
      planeSlot (lanePitchOf l) t j % 2 ^ l + planeSlot (lanePitchOf l) y j := by
  obtain ⟨hfit, -, -⟩ := lanePitchOf_fits l h32 h2
  have hmask {i : Nat} (hi : i < m) := planeSlot_and_planeMask h32 h2 (slot_end_le hm hi) t
  have hroom : 2 ^ (l + 1) ≤ 2 ^ (2 * lanePitchOf l) := Nat.pow_le_pow_right (by decide) (by omega)
  rw [planeSlot_add hm (fun i hi => ?_) hj, hmask hj]
  have hlow := Nat.mod_lt (planeSlot (lanePitchOf l) t i) (Nat.two_pow_pos l)
  have hyi := hy i hi
  rw [hmask hi]
  omega

/-- A slot after the first fold (R106). -/
theorem planeSlot_foldHigh (t : Word) {j : Nat} (hj : j < m) :
    planeSlot (lanePitchOf l) (foldHigh (deriveLayout l) t) j =
      planeSlot (lanePitchOf l) t j % 2 ^ l + planeSlot (lanePitchOf l) t j / 2 ^ l % 2 ^ l := by
  have hhigh {i : Nat} (hi : i < m) := planeSlot_high h32 h2 (slot_end_le hm hi) t
  rw [← hhigh hj]
  exact planeSlot_mask_add h32 h2 hm t (fun i hi => hhigh hi ▸ Nat.mod_lt _ (Nat.two_pow_pos l)) hj

/-- A slot after the end-around carry (R101, R106). -/
theorem planeSlot_foldCarry (t : Word) {j : Nat} (hj : j < m) :
    planeSlot (lanePitchOf l) (foldCarry (deriveLayout l) t) j =
      planeSlot (lanePitchOf l) t j % 2 ^ l + planeSlot (lanePitchOf l) t j / 2 ^ l % 2 := by
  have hguard {i : Nat} (hi : i < m) := planeSlot_guard h32 h2 (slot_end_le hm hi) t
  have htwo : 2 ≤ 2 ^ l := Nat.le_pow (by omega)
  rw [← hguard hj]
  exact planeSlot_mask_add h32 h2 hm t (fun i hi => hguard hi ▸ (Nat.mod_lt _ (by decide)).trans_le htwo) hj

/-- The two folds of a plane times f: each slot is a lane again, congruent to f times the slot (R106, R107). -/
theorem planeSlot_smulPlane {f : Nat} (hf : f < 2 ^ l) {x : Word}
    (hx : ∀ i, i < m → planeSlot (lanePitchOf l) x i < 2 ^ l) {j : Nat} (hj : j < m) :
    planeSlot (lanePitchOf l) (smulPlane (deriveLayout l) f x) j < 2 ^ l ∧
      planeSlot (lanePitchOf l) (smulPlane (deriveLayout l) f x) j ≡
        f * planeSlot (lanePitchOf l) x j [MOD 2 ^ l - 1] := by
  obtain ⟨hfit, -, -⟩ := lanePitchOf_fits l h32 h2
  have hproduct {i : Nat} (hi : i < m) : planeSlot (lanePitchOf l) x i * f < 2 ^ l * 2 ^ l :=
    Nat.mul_lt_mul'' (hx i hi) hf
  have hroom : 2 ^ l * 2 ^ l ≤ 2 ^ (2 * lanePitchOf l) := by
    rw [← Nat.pow_add]
    exact Nat.pow_le_pow_right (by decide) (by omega)
  obtain ⟨hle, hhigh⟩ := fold_product (hproduct hj)
  obtain ⟨hlt, hcarry⟩ := mod_add_carry hle
  rw [smulPlane, planeSlot_foldCarry h32 h2 hm _ hj, planeSlot_foldHigh h32 h2 hm _ hj,
    planeSlot_mul hm (fun i hi => (hproduct hi).trans_le hroom) j hj, Nat.mul_comm f]
  exact ⟨hlt, hcarry.trans hhigh⟩

/-- The slots of the plane of the even lanes are the even lanes (R101). -/
theorem planeSlot_evenPlane (a : Word) {j : Nat} (hj : j < m) :
    planeSlot (lanePitchOf l) (evenPlane (deriveLayout l) a) j = lane (deriveLayout l) a (2 * j) :=
  (planeSlot_and_planeMask h32 h2 (slot_end_le hm hj) a).trans
    (lane_even (deriveLayout l) a j (lanePitchOf_fits l h32 h2).1).symm

/-- The slots of the plane of the odd lanes are the odd lanes (R101). -/
theorem planeSlot_oddPlane (a : Word) {j : Nat} (hj : j < m) :
    planeSlot (lanePitchOf l) (oddPlane (deriveLayout l) a) j = lane (deriveLayout l) a (2 * j + 1) := by
  rw [← lane_ushiftRight]
  exact planeSlot_evenPlane h32 h2 hm _ hj

end smulWord

/-- Each lane of smul_word is congruent to f times the lane modulo p (R106, R107). -/
theorem lane_smulWord_modEq {l : Nat} (h32 : l ≤ 32) (h2 : 2 ≤ l) {f : Nat} (hf : f < 2 ^ l) (a : Word) {k : Nat}
    (hk : k < 64 / lanePitchOf l) :
    lane (deriveLayout l) (smulWord (deriveLayout l) f a) k ≡ f * lane (deriveLayout l) a k [MOD 2 ^ l - 1] := by
  obtain ⟨hfit, -, -⟩ := lanePitchOf_fits l h32 h2
  obtain ⟨hword, heven, -⟩ := slots_of_pitch _ (lanePitchOf_mem l)
  obtain ⟨m, hslots⟩ := Nat.dvd_of_mod_eq_zero heven
  have hm : 2 * lanePitchOf l * m ≤ 64 := by rw [Nat.mul_right_comm, ← hslots, hword]
  have hre {j : Nat} := planeSlot_smulPlane h32 h2 hm hf (x := evenPlane (deriveLayout l) a) (j := j)
    fun i hi => by rw [planeSlot_evenPlane h32 h2 hm a hi]; exact lane_lt (deriveLayout l) a _
  have hro {j : Nat} := planeSlot_smulPlane h32 h2 hm hf (x := oddPlane (deriveLayout l) a) (j := j)
    fun i hi => by rw [planeSlot_oddPlane h32 h2 hm a hi]; exact lane_lt (deriveLayout l) a _
  rw [smulWord_eq_planes]
  obtain ⟨j, rfl | rfl⟩ := Nat.even_or_odd' k
  · have hj : j < m := by omega
    rw [lane_joinPlanes_even (L := deriveLayout l) hfit hm (fun _ hi => (hre hi).1) (fun _ hi => (hro hi).1) hj,
      ← planeSlot_evenPlane h32 h2 hm a hj]
    exact (hre hj).2
  · have hj : j < m := by omega
    rw [lane_joinPlanes_odd (L := deriveLayout l) hfit hm (fun _ hi => (hre hi).1) (fun _ hi => (hro hi).1) hj,
      ← planeSlot_oddPlane h32 h2 hm a hj]
    exact (hro hj).2

/-- With p = qc, multiplying by c turns congruence modulo q into congruence modulo p (R95). -/
theorem rescaled_modEq_iff {p q : Nat} (hp : 0 < p) (hq : q ∣ p) (x y : Nat) :
    p / q * x ≡ p / q * y [MOD p] ↔ x ≡ y [MOD q] := by
  obtain ⟨c, rfl⟩ := hq
  obtain ⟨hqpos, hc⟩ := Nat.mul_ne_zero_iff.1 hp.ne'
  rw [Nat.mul_div_cancel_left c (Nat.pos_of_ne_zero hqpos), Nat.mul_comm q c, Nat.ModEq.mul_left_cancel_iff' hc]

/-- Settles O35: each rescaled lane is c times the lane, modulo p. -/
theorem rescaledNeqWordLaneLaw : Obligations.RescaledNeqWordLaneLaw := by
  intro l q h2 h32 h1 hqp hdvd a b
  have hf : (2 ^ l - 1) / q < 2 ^ l := (Nat.div_le_self _ _).trans_lt (Nat.sub_lt (Nat.two_pow_pos l) Nat.one_pos)
  rw [neqWordScaled, neqWord_eq_zero_iff h32 h2]
  refine forall₂_congr fun k hk => ?_
  have ha := lane_smulWord_modEq h32 h2 hf a hk
  have hb := lane_smulWord_modEq h32 h2 hf b hk
  rw [← Nat.ModEq, ← Nat.ModEq, ← rescaled_modEq_iff (by omega) hdvd]
  exact ⟨fun h => ha.symm.trans (h.trans hb), fun h => ha.trans (h.trans hb.symm)⟩

end Sys2Proof.Proofs
end

section
/-! PROOFS. CMPEQ and CMPEQQ: the verdict of the word loop is the conjunction of the word tests, and under the layout
invariant each word test decides the congruence of its lanes (R91, R94). -/

namespace Sys2Proof.Proofs

open Sys2Proof.Machine Sys2Proof.Safety Sys2Proof.Laws

/-! The loop. -/

/-- The differences accumulated by a loop are 0 exactly when it starts with none and no pass finds one. -/
theorem foldl_or_eq_zero_iff (f : Nat → Word) (xs : List Nat) (d : Word) :
    xs.foldl (fun d i => d ||| f i) d = 0 ↔ d = 0 ∧ ∀ i ∈ xs, f i = 0 := by
  induction xs generalizing d with
  | nil => simp
  | cons i xs ih =>
    have hor : d ||| f i = 0 ↔ d = 0 ∧ f i = 0 := BitVec.or_eq_zero_iff
    rw [List.foldl_cons, ih, hor, List.forall_mem_cons, and_assoc]

/-- A comparison whose accesses are to storage sets RESULT to 0 when every word test is 0, else to 1, and makes the two
reads of each word (R46, R91). -/
theorem compareBuffers_decides {differ : Word → Word → Word} {s : State} {same : Prop} [Decidable same]
    (hback : firstFault s.params (compareAccesses s) = none)
    (hsame : (∀ i, i < s.wordCount.toNat →
      differ (s.mem.readWord (s.aBase.toNat + i)) (s.mem.readWord (s.bBase.toNat + i)) = 0) ↔ same) :
    compareBuffers differ s = .next { s with
      result := if same then 0 else 1, port := s.port ++ compareAccesses s } := by
  obtain ⟨u, hu⟩ := (compareBuffers_follows differ s).eq_next_iff.2 hback
  obtain ⟨hresult, hport⟩ := compareBuffers_computes hu
  have hverdict : u.result = if same then 0 else 1 := by
    rw [hresult, verdictOf, apply_ite verdictCode]
    refine if_congr ?_ rfl rfl
    rw [foldl_or_eq_zero_iff, ← hsame, and_iff_right rfl]
    simp only [List.mem_range]
  rw [hu, (compareBuffers_only hu).1, hverdict, hport]
  rfl

/-- The accesses of a comparison, word by word (R46). -/
theorem mem_compareAccesses {s : State} {x : Access} :
    x ∈ compareAccesses s ↔
      ∃ i, i < s.wordCount.toNat ∧ (x = .read (s.aBase.toNat + i) ∨ x = .read (s.bBase.toNat + i)) := by
  simp [compareAccesses, eachWord]

/-! The word tests under the layout invariant. -/

/-- A valid layout is the one of an accepted lane width (R32). -/
theorem exists_holdsLayout {s : State} (hinv : LayoutInv s) (hvalid : s.status.getLsbD 8 = true) :
    ∃ l, l ≤ 32 ∧ 2 ≤ l ∧ HoldsLayout l s := by
  rcases hinv with ⟨hinvalid, -⟩ | ⟨-, hholds⟩
  · rw [hvalid] at hinvalid; cases hinvalid
  · exact hholds

/-- Registers that hold the layout of a lane width read as its derived layout (R32, R72). -/
theorem activeLayout_of_holdsLayout {l : Nat} {s : State} (h : HoldsLayout l s) :
    activeLayout s = deriveLayout l := by
  obtain ⟨-, hl, hs, hn, hvm, hgm, -⟩ := h
  rw [activeLayout, hl, hs, hn, hvm, hgm]
  rfl

section wordTests

variable {s : State} (hinv : LayoutInv s) (hvalid : s.status.getLsbD 8 = true)
include hinv hvalid

/-- With a valid layout the modulus is not 0 (R71). -/
theorem modulus_pos : 0 < s.modulus.toNat := by
  obtain ⟨l, -, h2, hp, -⟩ := exists_holdsLayout hinv hvalid
  have hpow : 2 ^ 2 ≤ 2 ^ l := Nat.pow_le_pow_right (by decide) h2
  omega

/-- The word test of CMPEQ is 0 for every word exactly when the buffers are congruent modulo p (R91, R93). -/
theorem neqWord_tests_iff : (∀ i, i < s.wordCount.toNat → neqWord (activeLayout s)
      (s.mem.readWord (s.aBase.toNat + i)) (s.mem.readWord (s.bBase.toNat + i)) = 0) ↔
    BuffersCongruent s.modulus.toNat s := by
  obtain ⟨l, h32, h2, hholds⟩ := exists_holdsLayout hinv hvalid
  have ⟨hp, _, _, hn, _⟩ := hholds
  rw [BuffersCongruent, activeLayout_of_holdsLayout hholds, hp, hn]
  exact forall₂_congr fun i _ => neqWord_eq_zero_iff h32 h2 _ _

/-- The word test of CMPEQQ for a proper divisor is 0 for every word exactly when the buffers are congruent modulo q
(R94 d, R95). -/
theorem neqWordScaled_tests_iff {q : Nat} (h1 : 1 < q) (hlt : q < s.modulus.toNat) (hdvd : q ∣ s.modulus.toNat) :
    (∀ i, i < s.wordCount.toNat → neqWordScaled (activeLayout s) (s.modulus.toNat / q)
      (s.mem.readWord (s.aBase.toNat + i)) (s.mem.readWord (s.bBase.toNat + i)) = 0) ↔
    BuffersCongruent q s := by
  obtain ⟨l, h32, h2, hholds⟩ := exists_holdsLayout hinv hvalid
  have ⟨hp, _, _, hn, _⟩ := hholds
  rw [hp] at hlt hdvd
  rw [BuffersCongruent, activeLayout_of_holdsLayout hholds, hp, hn]
  exact forall₂_congr fun i _ => rescaledNeqWordLaneLaw l q h2 h32 h1 hlt hdvd _ _

end wordTests

/-! CMPEQ. -/

/-- CMPEQ past its checks (R91). -/
theorem exec_cmpeq_decides {s : State} (hinv : LayoutInv s) (hc : ChecksPass .cmpeq s) (hb : PortBacks .cmpeq s) :
    exec .cmpeq s = .next { s with
      status := okStatus s
      result := if BuffersCongruent s.modulus.toNat s then 0 else 1
      port := s.port ++ accesses .cmpeq s } := by
  have hp : prologue true true false s = none := (prologue_eq_none_iff_checksPass .cmpeq s (by decide)).2 hc
  obtain ⟨hvalid, -⟩ := hc
  rw [exec_cmpeq, withPrologue_of_none hp,
    compareBuffers_decides ((portBacks_iff .cmpeq s).1 hb) (neqWord_tests_iff hinv hvalid), andThen_next, complete_eq]
  rfl

/-- Settles O36. -/
theorem cmpeqDecidesEqualityModP : Obligations.CmpeqDecidesEqualityModP :=
  ⟨fun _ => decode_eq_ok_iff_eq_encode rfl, fun _ => exec_cmpeq_decides, failsInOrder_of_ne_layout (by decide)⟩

/-- Settles O37: the words of the two buffers are the same words. -/
theorem cmpeqIsReflexive : Obligations.CmpeqIsReflexive := by
  intro s hc hb hsame
  obtain ⟨t, ht, hresult, -⟩ := exec_cmpeq_of_words_eq hc hb fun i _ => by rw [hsame]
  exact ⟨t, ht, hresult⟩

/-- The state with the A and B registers exchanged. -/
def exchangeBuffers (s : State) : State :=
  { s with aBase := s.bBase, aLen := s.bLen, bBase := s.aBase, bLen := s.aLen }

theorem buffersCongruent_exchangeBuffers (q : Nat) (s : State) :
    BuffersCongruent q (exchangeBuffers s) ↔ BuffersCongruent q s :=
  forall₂_congr fun _ _ => forall₂_congr fun _ _ => eq_comm

theorem checksPass_exchangeBuffers {s : State} (hc : ChecksPass .cmpeq s) :
    ChecksPass .cmpeq (exchangeBuffers s) := by
  obtain ⟨hvalid, hlen, haddr, hidx⟩ := hc
  exact ⟨hvalid, fun h => hlen h.symm, fun h => haddr h.symm, hidx⟩

theorem portBacks_exchangeBuffers {s : State} (hb : PortBacks .cmpeq s) : PortBacks .cmpeq (exchangeBuffers s) := by
  intro x hx
  obtain ⟨i, hi, hread⟩ := mem_compareAccesses.1 hx
  exact hb x (mem_compareAccesses.2 ⟨i, hi, hread.symm⟩)

/-- Settles O38: congruence of the buffers is symmetric. -/
theorem cmpeqIsSymmetric : Obligations.CmpeqIsSymmetric := by
  intro s hinv hc hb
  refine ⟨_, _, exec_cmpeq_decides hinv hc hb, exec_cmpeq_decides (s := exchangeBuffers s) hinv
    (checksPass_exchangeBuffers hc) (portBacks_exchangeBuffers hb), ?_⟩
  exact if_congr (buffersCongruent_exchangeBuffers s.modulus.toNat s).symm rfl rfl

/-! CMPEQQ. -/

/-- The accesses of CMPEQQ where it compares (R46, R94). -/
theorem accesses_cmpeqq_compare {q : Nat} {s : State} (h : q = s.modulus.toNat ∨ q ≠ 1 ∧ q ∣ s.modulus.toNat) :
    accesses (.cmpeqq q) s = compareAccesses s := by
  rw [accesses, if_neg (by tauto)]

/-- The accesses of CMPEQQ where the answer needs no data: none (R46, R94). -/
theorem accesses_cmpeqq_none {q : Nat} {s : State} (hne : q ≠ s.modulus.toNat)
    (h : q = 1 ∨ ¬ q ∣ s.modulus.toNat) :
    accesses (.cmpeqq q) s = [] := by
  rw [accesses, if_pos ⟨hne, h⟩]

/-- The work of CMPEQQ, case by case of R94. -/
theorem cmpeqqWork_decides {q : Nat} {s : State} (hinv : LayoutInv s) (hvalid : s.status.getLsbD 8 = true)
    (hback : firstFault s.params (accesses (.cmpeqq q) s) = none) :
    (if q = s.modulus.toNat then compareBuffers (neqWord (activeLayout s)) s
      else if q = 1 then .next (setResult .equal s)
      else if q = 0 ∨ s.modulus.toNat % q ≠ 0 then .next (setResult .notDivisible s)
      else compareBuffers (neqWordScaled (activeLayout s) (s.modulus.toNat / q)) s) =
    .next { s with
      result := if q ∣ s.modulus.toNat then (if BuffersCongruent q s then 0 else 1) else 2
      port := s.port ++ accesses (.cmpeqq q) s } := by
  have hpos := modulus_pos hinv hvalid
  by_cases hq : q = s.modulus.toNat
  · rw [accesses_cmpeqq_compare (.inl hq)] at hback ⊢
    have htests := neqWord_tests_iff hinv hvalid
    rw [← hq] at htests
    rw [if_pos hq, if_pos hq.dvd, compareBuffers_decides hback htests]
  rw [if_neg hq]
  by_cases h1 : q = 1
  · have hall : BuffersCongruent q s := fun i _ k _ => by rw [h1, Nat.mod_one, Nat.mod_one]
    rw [if_pos h1, accesses_cmpeqq_none hq (.inl h1), List.append_nil, if_pos (h1 ▸ one_dvd _), if_pos hall]
    rfl
  rw [if_neg h1]
  by_cases hd : q ∣ s.modulus.toNat
  · have hlt : q < s.modulus.toNat := lt_of_le_of_ne (Nat.le_of_dvd hpos hd) hq
    have hgt : 1 < q := by
      have := Nat.pos_of_dvd_of_pos hd hpos
      omega
    rw [accesses_cmpeqq_compare (.inr ⟨h1, hd⟩)] at hback ⊢
    rw [if_neg fun h => (zero_or_mod_ne_zero_iff hq).1 h hd, if_pos hd,
      compareBuffers_decides hback (neqWordScaled_tests_iff hinv hvalid hgt hlt hd)]
  · rw [if_pos ((zero_or_mod_ne_zero_iff hq).2 hd), accesses_cmpeqq_none hq (.inr hd), List.append_nil, if_neg hd]
    rfl

/-- CMPEQQ past its checks (R94). -/
theorem exec_cmpeqq_decides (q : Nat) (s : State) (hinv : LayoutInv s) (hc : ChecksPass (.cmpeqq q) s)
    (hb : PortBacks (.cmpeqq q) s) :
    exec (.cmpeqq q) s = .next { s with
      status := okStatus s
      result := if q ∣ s.modulus.toNat then (if BuffersCongruent q s then 0 else 1) else 2
      port := s.port ++ accesses (.cmpeqq q) s } := by
  have hp : prologue true true false s = none := (prologue_eq_none_iff_checksPass (.cmpeqq q) s (by simp)).2 hc
  have hvalid : s.status.getLsbD 8 = true := (prologue_eq_none.1 hp).1
  rw [exec_cmpeqq, withPrologue_of_none hp, cmpeqqWork_decides hinv hvalid ((portBacks_iff (.cmpeqq q) s).1 hb),
    andThen_next, complete_eq]
  rfl

/-- The command word as two fields put in place (R55). -/
theorem encode_eq_or (i : Instr) :
    encode i = ((immediate i).setWidth 64 <<< 32) ||| (opcode i).setWidth 64 := by
  apply BitVec.eq_of_getLsbD_eq
  intro b hb
  have hop (h : 8 ≤ b) : (opcode i).getLsbD b = false := BitVec.getLsbD_of_ge _ b h
  simp only [encode, BitVec.getLsbD_append, BitVec.getLsbD_or, BitVec.getLsbD_shiftLeft, BitVec.getLsbD_setWidth,
    BitVec.ofNat_eq_ofNat, BitVec.getLsbD_zero, hb, decide_true, Bool.true_and]
  by_cases h8 : b < 8
  · simp [h8, show b < 32 by omega]
  by_cases h32 : b < 32
  · simp [h8, h32, hop (by omega), show b - 8 < 24 by omega]
  · rw [if_neg h8, if_neg (by omega), hop (by omega), Bool.or_false]
    simp [h32, show b - 8 - 24 = b - 32 by omega, show b - 32 < 64 by omega]

/-- The word of CMPEQQ q (R58). -/
theorem encode_cmpeqq {q : Nat} (hq : q < 2 ^ 32) :
    encode (.cmpeqq q) = (BitVec.ofNat 64 q <<< 32) ||| 0x04 := by
  have himm : (immediate (.cmpeqq q)).setWidth 64 = BitVec.ofNat 64 q := by
    apply BitVec.eq_of_toNat_eq
    rw [BitVec.toNat_setWidth, toNat_immediate (decide_eq_true hq), BitVec.toNat_ofNat]
  rw [encode_eq_or, himm]
  rfl

/-- Settles O39. -/
theorem cmpeqqDecidesCongruenceModQ : Obligations.CmpeqqDecidesCongruenceModQ := by
  refine ⟨fun c q => ?_, exec_cmpeqq_decides, fun q => failsInOrder_of_ne_layout (by simp)⟩
  rw [decode_eq_ok_iff, Instr.wellFormed, decide_eq_true_eq]
  exact and_congr_right fun hq => by rw [encode_cmpeqq hq, eq_comm]

end Sys2Proof.Proofs
end

section
/-! PROOFS. The representative function, and a word by its lanes and pad bits: two planes put together have the lanes of
their slots and pad bits 0, and a word with pad bits 0 is determined by its lanes (R9, R80, R101). -/

namespace Sys2Proof.Proofs

open Sys2Proof.Machine Sys2Proof.Safety Sys2Proof.Laws

/-! The representative function. -/

section rep

variable {p t : Nat}

/-- Up to p a number represents itself, p included (R103). -/
theorem rep_of_le (h : t ≤ p) : rep p t = t := by
  unfold rep
  split_ifs with h0
  · exact h0.symm
  · rw [Nat.mod_eq_of_lt (by omega)]
    omega

/-- Above p, and up to 2p, p is taken off once (R103). -/
theorem rep_of_gt (hlo : p < t) (hhi : t ≤ 2 * p) : rep p t = t - p := by
  rw [rep, if_neg (by omega), Nat.mod_eq_sub_mod (by omega), Nat.mod_eq_of_lt (by omega)]
  omega

theorem rep_le (hp : 0 < p) (t : Nat) : rep p t ≤ p := by
  unfold rep
  split_ifs
  · exact Nat.zero_le p
  · exact Nat.mod_lt _ hp

end rep

/-! Lanes and pad bits. -/

/-- A number of l bits that a plane's slot holds has no bit from l upward, so neither has the plane (R102). -/
theorem getLsbD_of_planeSlot_lt {s l m b : Nat} {w : Word} (hm : 2 * s * m = 64)
    (hw : ∀ j, j < m → planeSlot s w j < 2 ^ l) (hb : b < 64) (hpad : l ≤ b % (2 * s)) : w.getLsbD b = false := by
  have hj : b / (2 * s) < m := Nat.div_lt_of_lt_mul (hm ▸ hb)
  have hs : 0 < 2 * s := Nat.pos_of_mul_pos_right (hm ▸ (by decide : 0 < 64))
  have hbit := Nat.testBit_lt_two_pow ((hw _ hj).trans_le (Nat.pow_le_pow_right (by decide) hpad))
  rw [planeSlot_testBit, decide_eq_true (Nat.mod_lt b hs), Bool.true_and, Nat.div_add_mod] at hbit
  exact hbit

/-- The slots of a plane fill the word (R73 a). -/
theorem planeSlots_fill_word (l : Nat) : 2 * lanePitchOf l * (64 / lanePitchOf l / 2) = 64 := by
  obtain ⟨hword, heven, -⟩ := slots_of_pitch _ (lanePitchOf_mem l)
  rw [Nat.mul_right_comm, Nat.mul_div_cancel' (Nat.dvd_of_mod_eq_zero heven), hword]

section lanesAndPads

variable {l : Nat} (h32 : l ≤ 32) (h2 : 2 ≤ l)
include h32 h2

/-- The pad bits are those past the lane in their slot (R72, R80). -/
theorem pads_zero_iff (w : Word) : w &&& ~~~valueMaskOf l (lanePitchOf l) = 0 ↔
    ∀ b, b < 64 → l ≤ b % lanePitchOf l → w.getLsbD b = false := by
  rw [and_mask_eq_zero_iff]
  refine forall₂_congr fun b hb => ?_
  rw [BitVec.getLsbD_not, decide_eq_true hb, Bool.true_and, valueMaskOf_getLsbD l h32 h2 b hb, Bool.not_eq_true',
    decide_eq_false_iff_not, Nat.not_lt]

/-- Two words with pad bits 0 and the same lanes are the same word. -/
theorem eq_of_lanes_eq {a b : Word} (ha : a &&& ~~~valueMaskOf l (lanePitchOf l) = 0)
    (hb : b &&& ~~~valueMaskOf l (lanePitchOf l) = 0)
    (h : ∀ k, k < 64 / lanePitchOf l → lane (deriveLayout l) a k = lane (deriveLayout l) b k) : a = b := by
  obtain ⟨hfit, -, hword⟩ := lanePitchOf_fits l h32 h2
  rw [pads_zero_iff h32 h2] at ha hb
  apply BitVec.eq_of_getLsbD_eq
  intro i hi
  by_cases hl : i % lanePitchOf l < l
  · have hslot : i / lanePitchOf l < 64 / lanePitchOf l :=
      (Nat.div_lt_iff_lt_mul (by omega)).2 (hword.symm ▸ hi)
    have hbit (w : Word) : (lane (deriveLayout l) w (i / lanePitchOf l)).testBit (i % lanePitchOf l) = w.getLsbD i := by
      rw [lane_testBit, show (deriveLayout l).l = l from rfl, show (deriveLayout l).s = lanePitchOf l from rfl,
        decide_eq_true hl, Bool.true_and, Nat.mul_comm, Nat.div_add_mod]
    rw [← hbit a, ← hbit b, h _ hslot]
  · rw [ha i hi (Nat.not_lt.1 hl), hb i hi (Nat.not_lt.1 hl)]

/-- Two planes whose slots hold lanes have, put together, no pad bit set (R102 c). -/
theorem joinPlanes_pads {re ro : Word}
    (hre : ∀ j, j < 64 / lanePitchOf l / 2 → planeSlot (lanePitchOf l) re j < 2 ^ l)
    (hro : ∀ j, j < 64 / lanePitchOf l / 2 → planeSlot (lanePitchOf l) ro j < 2 ^ l) :
    joinPlanes (deriveLayout l) re ro &&& ~~~valueMaskOf l (lanePitchOf l) = 0 := by
  have hm := planeSlots_fill_word l
  have hpad (i : Nat) : i % lanePitchOf l ≤ i % (2 * lanePitchOf l) := by
    rw [← Nat.mod_mul_left_mod i 2]
    exact Nat.mod_le _ _
  rw [pads_zero_iff h32 h2]
  intro b hb hl
  rw [joinPlanes, BitVec.getLsbD_or, getLsbD_of_planeSlot_lt hm hre hb (hl.trans (hpad b)), Bool.false_or,
    BitVec.getLsbD_shiftLeft, decide_eq_true hb, Bool.true_and, show (deriveLayout l).s = lanePitchOf l from rfl]
  by_cases hlow : b < lanePitchOf l
  · simp [hlow]
  · rw [Nat.mod_eq_sub_mod (Nat.not_lt.1 hlow)] at hl
    rw [getLsbD_of_planeSlot_lt hm hro ((Nat.sub_le _ _).trans_lt hb) (hl.trans (hpad _)), Bool.and_false]

/-- Two planes put together have the numbers of their slots as lanes, and pad bits 0 (R101, R102). -/
theorem joinPlanes_lanes_and_pads {re ro : Word} {r : Nat → Nat} (hr : ∀ k, r k < 2 ^ l)
    (hre : ∀ j, j < 64 / lanePitchOf l / 2 → planeSlot (lanePitchOf l) re j = r (2 * j))
    (hro : ∀ j, j < 64 / lanePitchOf l / 2 → planeSlot (lanePitchOf l) ro j = r (2 * j + 1)) :
    (∀ k, k < 64 / lanePitchOf l → lane (deriveLayout l) (joinPlanes (deriveLayout l) re ro) k = r k) ∧
      joinPlanes (deriveLayout l) re ro &&& ~~~valueMaskOf l (lanePitchOf l) = 0 := by
  obtain ⟨hfit, -, -⟩ := lanePitchOf_fits l h32 h2
  have hm := (planeSlots_fill_word l).le
  have hre' (j) (hj : j < 64 / lanePitchOf l / 2) : planeSlot (lanePitchOf l) re j < 2 ^ l := hre j hj ▸ hr _
  have hro' (j) (hj : j < 64 / lanePitchOf l / 2) : planeSlot (lanePitchOf l) ro j < 2 ^ l := hro j hj ▸ hr _
  refine ⟨fun k hk => ?_, joinPlanes_pads h32 h2 hre' hro'⟩
  obtain ⟨-, heven, -⟩ := slots_of_pitch _ (lanePitchOf_mem l)
  obtain ⟨j, rfl | rfl⟩ := Nat.even_or_odd' k
  · have hj : j < 64 / lanePitchOf l / 2 := by omega
    rw [lane_joinPlanes_even (L := deriveLayout l) hfit hm hre' hro' hj]
    exact hre j hj
  · have hj : j < 64 / lanePitchOf l / 2 := by omega
    rw [lane_joinPlanes_odd (L := deriveLayout l) hfit hm hre' hro' hj]
    exact hro j hj

end lanesAndPads

end Sys2Proof.Proofs
end

section
/-! PROOFS. add_word lane by lane: the sum of two lanes stays in its slot of the plane, and the end-around carry turns
it into its representative (R101, R102, R103). -/

namespace Sys2Proof.Proofs

open Sys2Proof.Machine Sys2Proof.Safety Sys2Proof.Laws

/-- The end-around carry of a sum of two lanes is its representative (R102 b). -/
theorem carry_eq_rep {l t : Nat} (ht : t ≤ 2 * (2 ^ l - 1)) : t % 2 ^ l + t / 2 ^ l % 2 = rep (2 ^ l - 1) t := by
  have hpos : 0 < 2 ^ l := Nat.two_pow_pos l
  rcases Nat.lt_or_ge t (2 ^ l) with hlow | hhigh
  · rw [rep_of_le (by omega), Nat.mod_eq_of_lt hlow, Nat.div_eq_of_lt hlow]
    omega
  · have hdiv : t / 2 ^ l = 1 := by rw [Nat.div_eq_sub_div hpos hhigh, Nat.div_eq_of_lt (by omega)]
    rw [rep_of_gt (by omega) ht, Nat.mod_eq_sub_mod hhigh, Nat.mod_eq_of_lt (by omega), hdiv]
    omega

/-- Two planes added, each slot carried around to a lane (R101). -/
def addPlane (L : Layout) (x y : Word) : Word := foldCarry L (x + y)

theorem addWord_eq_planes (L : Layout) (a b : Word) : addWord L a b =
    joinPlanes L (addPlane L (evenPlane L a) (evenPlane L b)) (addPlane L (oddPlane L a) (oddPlane L b)) := rfl

section addWord

variable {l : Nat} (h32 : l ≤ 32) (h2 : 2 ≤ l)
include h32 h2

/-- Where the slots of two planes hold lanes, each slot of their sum is the representative of the lanes' sum (R102). -/
theorem planeSlot_addPlane {m : Nat} (hm : 2 * lanePitchOf l * m ≤ 64) {x y : Word}
    (hx : ∀ i, i < m → planeSlot (lanePitchOf l) x i < 2 ^ l)
    (hy : ∀ i, i < m → planeSlot (lanePitchOf l) y i < 2 ^ l) {j : Nat} (hj : j < m) :
    planeSlot (lanePitchOf l) (addPlane (deriveLayout l) x y) j =
      rep (2 ^ l - 1) (planeSlot (lanePitchOf l) x j + planeSlot (lanePitchOf l) y j) := by
  obtain ⟨hfit, -, -⟩ := lanePitchOf_fits l h32 h2
  have hroom : 2 ^ (l + 1) ≤ 2 ^ (2 * lanePitchOf l) := Nat.pow_le_pow_right (by decide) (by omega)
  have hsum {i : Nat} (hi : i < m) :
      planeSlot (lanePitchOf l) x i + planeSlot (lanePitchOf l) y i ≤ 2 * (2 ^ l - 1) := by
    have hxi := hx i hi
    have hyi := hy i hi
    omega
  rw [addPlane, planeSlot_foldCarry h32 h2 hm _ hj, planeSlot_add hm (fun i hi => ?_) hj, carry_eq_rep (hsum hj)]
  have hi := hsum hi
  have hpos := Nat.two_pow_pos l
  omega

/-- The lanes of add_word are the representatives of the lanes' sums, and its pad bits are 0 (R102, R103). -/
theorem addWord_lanes_and_pads (a b : Word) :
    (∀ k, k < 64 / lanePitchOf l → lane (deriveLayout l) (addWord (deriveLayout l) a b) k =
      rep (2 ^ l - 1) (lane (deriveLayout l) a k + lane (deriveLayout l) b k)) ∧
    addWord (deriveLayout l) a b &&& ~~~valueMaskOf l (lanePitchOf l) = 0 := by
  have hm := (planeSlots_fill_word l).le
  have hp : 0 < 2 ^ l - 1 := Nat.sub_pos_of_lt (Nat.one_lt_two_pow (by omega))
  have heven (w : Word) {j : Nat} (hj : j < 64 / lanePitchOf l / 2) := planeSlot_evenPlane h32 h2 hm w hj
  have hodd (w : Word) {j : Nat} (hj : j < 64 / lanePitchOf l / 2) := planeSlot_oddPlane h32 h2 hm w hj
  have hlane (w : Word) (k : Nat) : lane (deriveLayout l) w k < 2 ^ l := lane_lt (deriveLayout l) w k
  rw [addWord_eq_planes]
  refine joinPlanes_lanes_and_pads h32 h2
    (r := fun k => rep (2 ^ l - 1) (lane (deriveLayout l) a k + lane (deriveLayout l) b k))
    (fun k => (rep_le hp _).trans_lt (Nat.sub_lt (Nat.two_pow_pos l) Nat.one_pos)) (fun j hj => ?_) (fun j hj => ?_)
  · rw [planeSlot_addPlane h32 h2 hm (fun i hi => heven a hi ▸ hlane a _) (fun i hi => heven b hi ▸ hlane b _) hj,
      heven a hj, heven b hj]
  · rw [planeSlot_addPlane h32 h2 hm (fun i hi => hodd a hi ▸ hlane a _) (fun i hi => hodd b hi ▸ hlane b _) hj,
      hodd a hj, hodd b hj]

/-- Zero is the identity of add_word on words with pad bits 0, also for lanes that hold p (R103). -/
theorem addWord_zero {a : Word} (ha : a &&& ~~~valueMaskOf l (lanePitchOf l) = 0) :
    addWord (deriveLayout l) a 0 = a := by
  obtain ⟨hlanes, hpads⟩ := addWord_lanes_and_pads h32 h2 a 0
  refine eq_of_lanes_eq h32 h2 hpads ha fun k hk => ?_
  have hzero : lane (deriveLayout l) 0 k = 0 := by simp [lane, laneWord]
  have hle : lane (deriveLayout l) a k ≤ 2 ^ l - 1 := Nat.le_sub_one_of_lt (lane_lt (deriveLayout l) a k)
  rw [hlanes k hk, hzero, Nat.add_zero, rep_of_le hle]

end addWord

/-- Settles O41. -/
theorem addWordLaneLaw : Obligations.AddWordLaneLaw := fun _ h2 h32 => addWord_lanes_and_pads h32 h2

end Sys2Proof.Proofs
end

section
/-! PROOFS. ADD: the memory that it leaves, word by word, and that adding zeros keeps it (R100, R103). -/

namespace Sys2Proof.Proofs

open Sys2Proof.Machine Sys2Proof.Safety Sys2Proof.Laws

/-- The memory after the first `count` passes of ADD: the words of A rewritten in ascending order by add_word of the
words read (R49, R100). -/
def addedMem (s : State) (count : Nat) : Memory :=
  rewriteWords (fun i m => addWord (activeLayout s) (m.readWord (s.aBase.toNat + i)) (m.readWord (s.bBase.toNat + i)))
    s.aBase.toNat count s.mem

/-- The state after an ADD whose checks pass (R100, R112). -/
theorem exec_add_completes {s : State} (hc : ChecksPass .add s) (hb : PortBacks .add s) :
    exec .add s = .next { s with
      status := okStatus s, mem := addedMem s s.wordCount.toNat, port := s.port ++ accesses .add s } := by
  have hp := (prologue_eq_none_iff_checksPass .add s (by decide)).2 hc
  obtain ⟨t, ht⟩ := exec_answers (by decide) hc hb
  obtain ⟨u, hu, rfl⟩ := withPrologue_completes hp ((exec_add s).symm.trans ht)
  have hmem : u.mem = addedMem s s.wordCount.toNat := mem_of_mapBuffersAB hu
  have hport : u.port = s.port ++ accesses .add s := (mapBuffersAB_computes hu).2
  rw [ht, complete_of_onlyMemAndPort (mapBuffersAB_only hu), hmem, hport]

/-! The words of the buffers. -/

/-- Each word of A is read as it was: no earlier pass has rewritten it (R100). -/
theorem readWord_addedMem_A {s : State} {count i : Nat} (hi : i < count) :
    (addedMem s count).readWord (s.aBase.toNat + i) = addWord (activeLayout s)
      (s.mem.readWord (s.aBase.toNat + i)) ((addedMem s i).readWord (s.bBase.toNat + i)) := by
  have hold : (addedMem s i).readWord (s.aBase.toNat + i) = s.mem.readWord (s.aBase.toNat + i) :=
    readWord_rewriteWords_other _ _ _ _ _ fun k hk => by omega
  rw [← hold]
  exact readWord_rewriteWords _ _ _ _ _ hi

theorem sameOrApart_exchangeBuffers {s : State} (h : SameOrApart s) : SameOrApart (exchangeBuffers s) :=
  h.imp Eq.symm Or.symm

/-- Of buffers that are the same or apart, each word of B too is read as it was (R49, R100). -/
theorem readWord_addedMem_B {s : State} (h : SameOrApart s) {i : Nat} (hi : i < s.wordCount.toNat) :
    (addedMem s i).readWord (s.bBase.toNat + i) = s.mem.readWord (s.bBase.toNat + i) :=
  readWord_rewriteWords_other _ _ _ _ _ fun _ hk =>
    word_of_A_ne_earlier_word_of_B (s := exchangeBuffers s) (sameOrApart_exchangeBuffers h) hi hk

/-- A loop that gives every word back as it was keeps every byte. -/
theorem readByte_rewriteWords_of_words_kept {g : Nat → Memory → Word} {base count : Nat} {m : Memory}
    (h : ∀ k, k < count → (rewriteWords g base count m).readWord (base + k) = m.readWord (base + k)) (b : Nat) :
    (rewriteWords g base count m).readByte b = m.readByte b := by
  by_cases hin : ∃ k, k < count ∧ b / 8 = base + k
  · obtain ⟨k, hk, hword⟩ := hin
    have hb : b = 8 * (base + k) + b % 8 := by rw [← hword, Nat.div_add_mod]
    have hlt : b % 8 < 8 := Nat.mod_lt b (by decide)
    rw [hb, ← readWord_byte _ _ _ hlt, ← readWord_byte _ _ _ hlt, h k hk]
  · exact readByte_rewriteWords g base count m b fun k hk hword => hin ⟨k, hk, hword⟩

/-! add_word in the words of the registers. -/

section registers

variable {s : State} (hinv : LayoutInv s) (hvalid : s.status.getLsbD 8 = true)
include hinv hvalid

/-- The lane law and the pad bits of add_word under the layout invariant (R32, R102). -/
theorem addWord_activeLayout (a b : Word) :
    (∀ k, k < s.lanesPerWord.toNat → lane (activeLayout s) (addWord (activeLayout s) a b) k =
      rep s.modulus.toNat (lane (activeLayout s) a k + lane (activeLayout s) b k)) ∧
    addWord (activeLayout s) a b &&& ~~~s.valueMask = 0 := by
  obtain ⟨l, h32, h2, hholds⟩ := exists_holdsLayout hinv hvalid
  have ⟨hp, _, _, hn, hvm, _⟩ := hholds
  rw [activeLayout_of_holdsLayout hholds, hp, hn, hvm]
  exact addWord_lanes_and_pads h32 h2 a b

/-- Zero is the identity of add_word on well-formed words under the layout invariant (R32, R103). -/
theorem addWord_activeLayout_zero {a : Word} (ha : a &&& ~~~s.valueMask = 0) : addWord (activeLayout s) a 0 = a := by
  obtain ⟨l, h32, h2, hholds⟩ := exists_holdsLayout hinv hvalid
  have ⟨_, _, _, _, hvm, _⟩ := hholds
  rw [hvm] at ha
  rw [activeLayout_of_holdsLayout hholds]
  exact addWord_zero h32 h2 ha

end registers

/-- Settles O43: `addedMem` is the fold of the statement. -/
theorem addComputesLaneSums : Obligations.AddComputesLaneSums := by
  refine ⟨fun c => decode_eq_ok_iff_eq_encode rfl, fun s hinv hc hb => ?_, failsInOrder_of_ne_layout (by decide)⟩
  have hexec := exec_add_completes hc hb
  obtain ⟨hvalid, -⟩ := hc
  refine ⟨hexec, fun i hi => ?_, keepsBytesOutside_of_exec hexec⟩
  have ⟨hlanes, hpads⟩ := addWord_activeLayout hinv hvalid (s.mem.readWord (s.aBase.toNat + i))
    ((addedMem s i).readWord (s.bBase.toNat + i))
  rw [← readWord_addedMem_A hi] at hlanes hpads
  exact ⟨hlanes, hpads, fun hsa => readWord_addedMem_B hsa hi⟩

/-- Settles O44: each word of A is rewritten by itself. -/
theorem addOfZeroIsIdentity : Obligations.AddOfZeroIsIdentity := by
  intro s hinv hc hb hsa hwords
  have hexec := exec_add_completes hc hb
  obtain ⟨hvalid, -⟩ := hc
  refine ⟨_, hexec, fun b => readByte_rewriteWords_of_words_kept (fun k hk => ?_) b⟩
  obtain ⟨hpads, hzero⟩ := hwords k hk
  calc (addedMem s s.wordCount.toNat).readWord (s.aBase.toNat + k)
      = addWord (activeLayout s) (s.mem.readWord (s.aBase.toNat + k)) 0 := by
        rw [readWord_addedMem_A hk, readWord_addedMem_B hsa hk, hzero]
    _ = s.mem.readWord (s.aBase.toNat + k) := addWord_activeLayout_zero hinv hvalid hpads

end Sys2Proof.Proofs
end

section
/-! PROOFS. smul_word lane by lane, exactly: the first fold of a product is 0 only for the product 0, so the end-around
carry turns it into the representative of the product (R106, R107, R109). -/

namespace Sys2Proof.Proofs

open Sys2Proof.Machine Sys2Proof.Safety Sys2Proof.Laws

/-- Congruent numbers that are 0 together have the same representative (R9). -/
theorem rep_congr {p t u : Nat} (hmod : t ≡ u [MOD p]) (hzero : t = 0 ↔ u = 0) : rep p t = rep p u := by
  unfold rep
  by_cases ht : t = 0
  · rw [if_pos ht, if_pos (hzero.1 ht)]
  · have hu : u ≠ 0 := mt hzero.2 ht
    have hpred : t - 1 ≡ u - 1 [MOD p] := Nat.ModEq.add_right_cancel' 1 <| by
      rwa [Nat.sub_add_cancel (Nat.pos_of_ne_zero ht), Nat.sub_add_cancel (Nat.pos_of_ne_zero hu)]
    rw [if_neg ht, if_neg hu, hpred]

/-- The first fold of a product of two lanes has the product's representative (R107 b, d). -/
theorem rep_fold_product {l t : Nat} (ht : t < 2 ^ l * 2 ^ l) :
    rep (2 ^ l - 1) (t % 2 ^ l + t / 2 ^ l % 2 ^ l) = rep (2 ^ l - 1) t := by
  have hhigh : t / 2 ^ l < 2 ^ l := Nat.div_lt_of_lt_mul ht
  have hsplit := Nat.mod_add_div t (2 ^ l)
  refine rep_congr (fold_product ht).2 ?_
  rw [Nat.mod_eq_of_lt hhigh, Nat.add_eq_zero_iff]
  constructor
  · rintro ⟨hlow, hdiv⟩
    rw [hlow, hdiv] at hsplit
    exact hsplit.symm
  · rintro rfl
    exact ⟨Nat.zero_mod _, Nat.zero_div _⟩

section smulWord

variable {l : Nat} (h32 : l ≤ 32) (h2 : 2 ≤ l)
include h32 h2

/-- Where the slots of a plane hold lanes, each slot of the plane times f, folded twice, is the representative of f
times the lane (R107). -/
theorem planeSlot_smulPlane_eq_rep {m : Nat} (hm : 2 * lanePitchOf l * m ≤ 64) {f : Nat} (hf : f < 2 ^ l) {x : Word}
    (hx : ∀ i, i < m → planeSlot (lanePitchOf l) x i < 2 ^ l) {j : Nat} (hj : j < m) :
    planeSlot (lanePitchOf l) (smulPlane (deriveLayout l) f x) j =
      rep (2 ^ l - 1) (f * planeSlot (lanePitchOf l) x j) := by
  obtain ⟨hfit, -, -⟩ := lanePitchOf_fits l h32 h2
  have hproduct {i : Nat} (hi : i < m) : planeSlot (lanePitchOf l) x i * f < 2 ^ l * 2 ^ l :=
    Nat.mul_lt_mul'' (hx i hi) hf
  have hroom : 2 ^ l * 2 ^ l ≤ 2 ^ (2 * lanePitchOf l) := by
    rw [← Nat.pow_add]
    exact Nat.pow_le_pow_right (by decide) (by omega)
  rw [smulPlane, planeSlot_foldCarry h32 h2 hm _ hj, planeSlot_foldHigh h32 h2 hm _ hj,
    planeSlot_mul hm (fun i hi => (hproduct hi).trans_le hroom) j hj, carry_eq_rep (fold_product (hproduct hj)).1,
    rep_fold_product (hproduct hj), Nat.mul_comm]

/-- The lanes of smul_word are the representatives of f times the lanes, and its pad bits are 0 (R107). -/
theorem smulWord_lanes_and_pads {f : Nat} (hf : f < 2 ^ l) (a : Word) :
    (∀ k, k < 64 / lanePitchOf l → lane (deriveLayout l) (smulWord (deriveLayout l) f a) k =
      rep (2 ^ l - 1) (f * lane (deriveLayout l) a k)) ∧
    smulWord (deriveLayout l) f a &&& ~~~valueMaskOf l (lanePitchOf l) = 0 := by
  have hm := (planeSlots_fill_word l).le
  have hp : 0 < 2 ^ l - 1 := Nat.sub_pos_of_lt (Nat.one_lt_two_pow (by omega))
  have heven {j : Nat} (hj : j < 64 / lanePitchOf l / 2) := planeSlot_evenPlane h32 h2 hm a hj
  have hodd {j : Nat} (hj : j < 64 / lanePitchOf l / 2) := planeSlot_oddPlane h32 h2 hm a hj
  have hlane (k : Nat) : lane (deriveLayout l) a k < 2 ^ l := lane_lt (deriveLayout l) a k
  rw [smulWord_eq_planes]
  refine joinPlanes_lanes_and_pads h32 h2 (r := fun k => rep (2 ^ l - 1) (f * lane (deriveLayout l) a k))
    (fun k => (rep_le hp _).trans_lt (Nat.sub_lt (Nat.two_pow_pos l) Nat.one_pos)) (fun j hj => ?_) (fun j hj => ?_)
  · rw [planeSlot_smulPlane_eq_rep h32 h2 hm hf (fun i hi => heven hi ▸ hlane _) hj, heven hj]
  · rw [planeSlot_smulPlane_eq_rep h32 h2 hm hf (fun i hi => hodd hi ▸ hlane _) hj, hodd hj]

/-- One is the identity of smul_word on words with pad bits 0, also for lanes that hold p (R109). -/
theorem smulWord_one {a : Word} (ha : a &&& ~~~valueMaskOf l (lanePitchOf l) = 0) :
    smulWord (deriveLayout l) 1 a = a := by
  obtain ⟨hlanes, hpads⟩ := smulWord_lanes_and_pads h32 h2 (Nat.one_lt_two_pow (by omega)) a
  refine eq_of_lanes_eq h32 h2 hpads ha fun k hk => ?_
  have hle : lane (deriveLayout l) a k ≤ 2 ^ l - 1 := Nat.le_sub_one_of_lt (lane_lt (deriveLayout l) a k)
  rw [hlanes k hk, Nat.one_mul, rep_of_le hle]

/-- Twice a word is the word added to itself (R109). -/
theorem smulWord_two (a : Word) : smulWord (deriveLayout l) 2 a = addWord (deriveLayout l) a a := by
  have htwo : 2 < 2 ^ l := Nat.lt_of_lt_of_le (by decide : 2 < 2 ^ 2) (Nat.pow_le_pow_right (by decide) h2)
  obtain ⟨hsmul, hsmulPads⟩ := smulWord_lanes_and_pads h32 h2 htwo a
  obtain ⟨hadd, haddPads⟩ := addWord_lanes_and_pads h32 h2 a a
  refine eq_of_lanes_eq h32 h2 hsmulPads haddPads fun k hk => ?_
  rw [hsmul k hk, hadd k hk, Nat.two_mul]

end smulWord

/-- Zero times a word is 0, whatever the layout (R109). -/
theorem smulWord_zero (L : Layout) (a : Word) : smulWord L 0 a = 0 := by
  simp [smulWord, foldCarry, foldHigh, joinPlanes]

/-- Settles O42. -/
theorem smulWordLaneLaw : Obligations.SmulWordLaneLaw := fun _ h2 h32 _ a hf =>
  smulWord_lanes_and_pads h32 h2 (hf.trans_le (Nat.sub_le _ _)) a

end Sys2Proof.Proofs
end

section
/-! PROOFS. SMUL: the factor taken modulo p, the memory that the command leaves word by word, and the factors 0, 1 and 2
(R105, R108, R109). -/

namespace Sys2Proof.Proofs

open Sys2Proof.Machine Sys2Proof.Safety Sys2Proof.Laws

/-! The factor. -/

theorem normalFactor_lt {p : Nat} (hp : 0 < p) (factor : Int) : normalFactor factor p < p := by
  have hp' : (0 : Int) < p := Int.natCast_pos.2 hp
  exact (Int.toNat_lt (Int.emod_nonneg _ hp'.ne')).2 (Int.emod_lt_of_pos _ hp')

/-- The normalised factor is the one number below p that is congruent to the factor (R108). -/
theorem normalFactor_eq {p f : Nat} {factor : Int} (hf : f < p) (hd : (p : Int) ∣ factor - f) :
    normalFactor factor p = f := by
  have hmod : (f : Int) ≡ factor [ZMOD p] := Int.modEq_iff_dvd.2 hd
  rw [normalFactor, ← hmod, ← Int.natCast_mod, Int.toNat_natCast, Nat.mod_eq_of_lt hf]

/-- The word of SMUL (R58). -/
theorem encode_smul (factor : Int) :
    encode (.smul factor) = (BitVec.ofNat 64 (factor % 2 ^ 32).toNat <<< 32) ||| 0x06 := by
  have himm : (immediate (.smul factor)).setWidth 64 = BitVec.ofNat 64 (factor % 2 ^ 32).toNat := by
    apply BitVec.eq_of_toNat_eq
    rw [BitVec.toNat_setWidth, BitVec.toNat_ofNat, immediate, BitVec.toNat_ofInt]
    rfl
  rw [encode_eq_or, himm]
  rfl

/-! The command. -/

/-- The memory after SMUL: each word of A rewritten by smul_word of itself (R105). -/
def scaledMem (factor : Int) (s : State) : Memory :=
  rewriteWords (fun i m => smulWord (activeLayout s) (normalFactor factor s.modulus.toNat)
    (m.readWord (s.aBase.toNat + i))) s.aBase.toNat s.wordCount.toNat s.mem

/-- The state after a SMUL whose checks pass (R105, R112). -/
theorem exec_smul_completes {factor : Int} {s : State} (hc : ChecksPass (.smul factor) s)
    (hb : PortBacks (.smul factor) s) :
    exec (.smul factor) s = .next { s with
      status := okStatus s, mem := scaledMem factor s, port := s.port ++ accesses (.smul factor) s } := by
  have hi : Instr.smul factor ≠ .layout := nofun
  have hp := (prologue_eq_none_iff_checksPass _ s hi).2 hc
  obtain ⟨t, ht⟩ := exec_answers hi hc hb
  obtain ⟨u, hu, rfl⟩ := withPrologue_completes hp ((exec_smul factor s).symm.trans ht)
  have hmem : u.mem = scaledMem factor s := mem_of_mapBufferA hu
  have hport : u.port = s.port ++ accesses (.smul factor) s := (mapBufferA_computes hu).2
  rw [ht, complete_of_onlyMemAndPort (mapBufferA_only hu), hmem, hport]

/-- Each word of A is read as it was: no earlier pass has rewritten it (R105). -/
theorem readWord_scaledMem (factor : Int) {s : State} {i : Nat} (hi : i < s.wordCount.toNat) :
    (scaledMem factor s).readWord (s.aBase.toNat + i) = smulWord (activeLayout s)
      (normalFactor factor s.modulus.toNat) (s.mem.readWord (s.aBase.toNat + i)) := by
  rw [scaledMem, readWord_rewriteWords _ _ _ _ _ hi,
    readWord_rewriteWords_other _ _ _ _ _ fun k hk => by omega]

/-! smul_word in the words of the registers. -/

section registers

variable {s : State} (hinv : LayoutInv s) (hvalid : s.status.getLsbD 8 = true)
include hinv hvalid

/-- With a valid layout the modulus is at least 3 (R71). -/
theorem two_lt_modulus : 2 < s.modulus.toNat := by
  obtain ⟨l, -, h2, hp, -⟩ := exists_holdsLayout hinv hvalid
  have hpow : 2 ^ 2 ≤ 2 ^ l := Nat.pow_le_pow_right (by decide) h2
  omega

/-- The lane law and the pad bits of smul_word under the layout invariant (R32, R107). -/
theorem smulWord_activeLayout {f : Nat} (hf : f < s.modulus.toNat) (a : Word) :
    (∀ k, k < s.lanesPerWord.toNat → lane (activeLayout s) (smulWord (activeLayout s) f a) k =
      rep s.modulus.toNat (f * lane (activeLayout s) a k)) ∧
    smulWord (activeLayout s) f a &&& ~~~s.valueMask = 0 := by
  obtain ⟨l, h32, h2, hholds⟩ := exists_holdsLayout hinv hvalid
  have ⟨hp, _, _, hn, hvm, _⟩ := hholds
  rw [hp] at hf
  rw [activeLayout_of_holdsLayout hholds, hp, hn, hvm]
  exact smulWordLaneLaw l h2 h32 f a hf

/-- One is the identity of smul_word on well-formed words under the layout invariant (R32, R109). -/
theorem smulWord_activeLayout_one {a : Word} (ha : a &&& ~~~s.valueMask = 0) : smulWord (activeLayout s) 1 a = a := by
  obtain ⟨l, h32, h2, hholds⟩ := exists_holdsLayout hinv hvalid
  have ⟨_, _, _, _, hvm, _⟩ := hholds
  rw [hvm] at ha
  rw [activeLayout_of_holdsLayout hholds]
  exact smulWord_one h32 h2 ha

/-- SMUL 2 and ADD compute the same word from a word and itself under the layout invariant (R32, R109). -/
theorem smulWord_activeLayout_two (a : Word) : smulWord (activeLayout s) 2 a = addWord (activeLayout s) a a := by
  obtain ⟨l, h32, h2, hholds⟩ := exists_holdsLayout hinv hvalid
  rw [activeLayout_of_holdsLayout hholds]
  exact smulWord_two h32 h2 a

/-- On a buffer and itself, SMUL 2 and ADD leave the same memory: their passes rewrite a word alike (R109). -/
theorem scaledMem_two_eq_addedMem (hAB : s.aBase = s.bBase) : scaledMem 2 s = addedMem s s.wordCount.toNat := by
  have hfactor : normalFactor 2 s.modulus.toNat = 2 := normalFactor_eq (two_lt_modulus hinv hvalid) (dvd_zero _)
  rw [scaledMem, addedMem, hfactor, ← hAB]
  congr 1
  funext i m
  exact smulWord_activeLayout_two hinv hvalid _

end registers

/-- Settles O45: `scaledMem` is the memory of the statement. -/
theorem smulComputesLaneProducts : Obligations.SmulComputesLaneProducts := by
  refine ⟨fun c factor => ?_, fun factor s hinv hc hb => ?_, fun factor => failsInOrder_of_ne_layout nofun⟩
  · rw [decode_eq_ok_iff, Instr.wellFormed, Bool.and_eq_true, decide_eq_true_eq, decide_eq_true_eq, and_assoc,
      encode_smul, eq_comm (b := c)]
  · have hexec := exec_smul_completes hc hb
    obtain ⟨hvalid, -⟩ := hc
    have hlt := normalFactor_lt (modulus_pos hinv hvalid) factor
    refine ⟨scaledMem factor s, hexec, fun i hi => ?_, keepsBytesOutside_of_exec hexec⟩
    have ⟨hlanes, hpads⟩ := smulWord_activeLayout hinv hvalid hlt (s.mem.readWord (s.aBase.toNat + i))
    rw [← readWord_scaledMem factor hi] at hlanes hpads
    refine ⟨fun k f hk hf hd => ?_, hpads⟩
    rw [hlanes k hk, normalFactor_eq hf hd]

/-- Settles O46: the normalised factor is 0, or 1. -/
theorem smulByZeroAndByOne : Obligations.SmulByZeroAndByOne := by
  intro factor s hinv hc hb
  have hexec := exec_smul_completes hc hb
  obtain ⟨hvalid, -⟩ := hc
  have hp := two_lt_modulus hinv hvalid
  refine ⟨_, hexec, fun hd i hi => ?_, fun hd i hi hpads => ?_⟩
  · have hzero : normalFactor factor s.modulus.toNat = 0 :=
      normalFactor_eq (by omega) (by rwa [Nat.cast_zero, Int.sub_zero])
    rw [readWord_scaledMem factor hi, hzero, smulWord_zero]
  · have hone : normalFactor factor s.modulus.toNat = 1 := normalFactor_eq (by omega) (by rwa [Nat.cast_one])
    rw [readWord_scaledMem factor hi, hone, smulWord_activeLayout_one hinv hvalid hpads]

/-! SMUL where ADD may run. -/

/-- The checks of SMUL are among those of ADD (R61). -/
theorem checksPass_smul_of_add {s : State} (factor : Int) (h : ChecksPass .add s) : ChecksPass (.smul factor) s := by
  obtain ⟨hvalid, hlength, haddress, -⟩ := h
  exact ⟨hvalid, fun h => hlength (.inl (h.resolve_right nofun)), fun h => haddress (.inl (h.resolve_right nofun)),
    nofun⟩

/-- The accesses of SMUL are among those of ADD (R46). -/
theorem portBacks_smul_of_add {s : State} (factor : Int) (h : PortBacks .add s) : PortBacks (.smul factor) s := by
  intro x hx
  obtain ⟨i, hi, hx⟩ := List.mem_flatMap.1 hx
  refine h x (List.mem_flatMap.2 ⟨i, hi, ?_⟩)
  simp only [List.mem_cons] at hx ⊢
  exact hx.imp_right .inr

/-- Settles O47. -/
theorem smulByTwoIsAddWithItself : Obligations.SmulByTwoIsAddWithItself := by
  intro s hinv hc hb hAB
  exact ⟨_, _, exec_smul_completes (checksPass_smul_of_add 2 hc) (portBacks_smul_of_add 2 hb),
    exec_add_completes hc hb, scaledMem_two_eq_addedMem hinv hc.1 hAB⟩

end Sys2Proof.Proofs
end

section
/-! PROOFS. Actions and command words: each step takes one action of the host, and a word that does not decode reports
ERR_ILLEGAL and nothing else (R56, R114, R128, R139). -/

namespace Sys2Proof.Proofs

open Sys2Proof.Machine Sys2Proof.Safety Sys2Proof.Laws

/-! One action a step. -/

/-- With no action to come the block is idle (R128). -/
theorem step_of_idle {s : State} (hs : s.script = []) : step s = .next s := by
  simp only [step, takeAction, hs]

/-- An action of the host leaves the actions to come as they are. -/
theorem script_of_hostAction {x : HostAction} {s t : State} (h : hostAction x s = .next t) : t.script = s.script := by
  rcases hostAction_eq_next h with ⟨c, i, -, -, he⟩ | ⟨c, e, -, -, rfl⟩ | ⟨num, r, v, -, -, -, rfl⟩ |
    ⟨num, v, -, -, rfl⟩ | ⟨num, -, rfl⟩ | ⟨a, v, -, -, rfl⟩ | ⟨a, -, -, rfl⟩ | ⟨a, v, -, -, rfl⟩ |
    ⟨a, -, -, rfl⟩ | ⟨-, rfl⟩
  · obtain ⟨-, -, -, -, -, -, -, -, hscript, -⟩ := sameOperands_of_commandEnd (commandEnd_of_exec he)
    exact hscript
  · exact raise_script _ s
  · obtain ⟨-, -, -, hscript, -⟩ := writeReg_keeps r v s
    exact hscript
  · rfl
  · exact reply_script s _
  · exact withMem_script s _
  · exact reply_script s _
  · exact withMem_script s _
  · exact reply_script s _
  · exact resetEvent_script s

/-- Settles O15. -/
theorem eachStepTakesOneAction : Obligations.EachStepTakesOneAction := by
  refine fun s => ⟨step_of_idle, fun x rest hs => step_of_script hs, fun t h => ?_⟩
  rcases step_cases h with ⟨hs, rfl⟩ | ⟨x, rest, hs, hx⟩
  · rw [hs, List.tail_nil]
  · rw [script_of_hostAction hx, hs, List.tail_cons, withScript_script]

/-! Illegal words. -/

/-- A write to CMD of a word that does not decode reports ERR_ILLEGAL before anything else is looked at (R114). -/
theorem step_of_illegal {s : State} {c : Word} {rest : List HostAction} {e : DecodeError}
    (hs : s.script = .write 0 c :: rest) (hd : decode c = .error e) :
    step s = .next (failed 4 (s.withScript rest)) := by
  have hc : hostAction (.write 0 c) (s.withScript rest) = issueCommand c (s.withScript rest) := rfl
  rw [step_of_script hs, hc, issueCommand, hd]
  exact congrArg Host.Outcome.next (raise_eq_failed .illegal _)

/-- Settles O6: by O3 such a word is not legal, so the decoder rejects it. -/
theorem illegalWordReportsErrIllegal : Obligations.IllegalWordReportsErrIllegal := by
  intro s c rest hs op hbad
  obtain ⟨hlegal, -, -, -⟩ := legalCommandWordsExactly c
  cases hd : decode c with
  | error e => exact step_of_illegal hs hd
  | ok i =>
    obtain ⟨hzero, hop, himm⟩ := hlegal.1 ⟨i, hd⟩
    rcases hbad with hz | ho | ⟨hi, h4, h6⟩
    · exact absurd hzero hz
    · exact absurd hop ho
    · exact absurd himm (not_or.2 ⟨h4, not_or.2 ⟨h6, hi⟩⟩)

end Sys2Proof.Proofs
end

section
/-! PROOFS. LAYOUT of a modulus that is not accepted: ERR_CONFIG, which no other command raises, and no layout
(R70, R119). -/

namespace Sys2Proof.Proofs

open Sys2Proof.Machine Sys2Proof.Safety Sys2Proof.Laws

/-- The search for a lane width fails exactly for the moduli that R71 does not accept. -/
theorem laneWidthOf_eq_none_iff (p : Nat) : laneWidthOf p = none ↔ ¬ Accepted p := by
  rw [← not_iff_not, not_not, ← ne_eq, Option.ne_none_iff_exists']
  constructor
  · rintro ⟨l, hl⟩
    obtain ⟨h2, h32, hp⟩ := laneWidthOf_eq_some hl
    exact ⟨l, h32, h2, hp⟩
  · rintro ⟨l, h32, h2, rfl⟩
    exact ⟨l, laneWidthOf_mersenne l h32 h2⟩

/-- The state after a LAYOUT that fails: no layout, and ERR_CONFIG reported (R119). -/
def layoutFailed (s : State) : State :=
  { s with
    status := (s.status &&& ~~~0x10F#64) ||| 1#64
    errlog := s.errlog ||| 2#64
    laneWidth := 0, lanePitch := 0, lanesPerWord := 0, valueMask := 0, guardMask := 0, wordCount := 0 }

theorem raise_config_clearLayout (s : State) : raise .config (clearLayout s) = layoutFailed s := by
  have hmask : s.status &&& ~~~0x100#64 &&& ~~~0xF#64 = s.status &&& ~~~0x10F#64 := by
    rw [BitVec.and_assoc]
    rfl
  rw [raise_eq_failed, clearLayout_eq, failed, layoutFailed, hmask]
  rfl

/-- A LAYOUT that fails once leaves what it leaves when it is repeated. -/
theorem layoutFailed_idem (s : State) : layoutFailed (layoutFailed s) = layoutFailed s := by
  have hone : 1#64 &&& ~~~0x10F#64 = 0#64 := rfl
  have hstatus : ((s.status &&& ~~~0x10F#64) ||| 1#64) &&& ~~~0x10F#64 = s.status &&& ~~~0x10F#64 := by
    rw [BitVec.and_or_distrib_right, hone, BitVec.or_zero, BitVec.and_assoc, BitVec.and_self]
  have herrlog : s.errlog ||| 2#64 ||| 2#64 = s.errlog ||| 2#64 := by rw [BitVec.or_assoc, BitVec.or_self]
  simp only [layoutFailed, hstatus, herrlog]

/-- LAYOUT of any other modulus fails (R70, R119). -/
theorem exec_layout_of_not_accepted {s : State} (h : ¬ Accepted s.modulus.toNat) :
    exec .layout s = .next (layoutFailed s) := by
  rw [exec_layout, (laneWidthOf_eq_none_iff _).2 h, ← raise_config_clearLayout]

/-- Only a LAYOUT of such a modulus ends with ERR = 1: the prologue of the other commands has no such code (R118). -/
theorem err_config_only_of_layout {i : Instr} {s t : State} (h : exec i s = .next t)
    (herr : t.status.extractLsb' 0 4 = 1) : i = .layout ∧ ¬ Accepted s.modulus.toNat := by
  have hcomplete (u : State) : (complete u).status.extractLsb' 0 4 ≠ 1 := by
    rw [complete_status, statusWithErr_err]
    decide
  by_cases hi : i = .layout
  · subst hi
    rcases exec_layout_cases h with ⟨hl, -⟩ | ⟨l, -, rfl⟩
    · exact ⟨rfl, (laneWidthOf_eq_none_iff _).1 hl⟩
    · exact absurd herr (hcomplete _)
  · rcases exec_cases h hi with ⟨e, he, rfl⟩ | ⟨-, u, rfl, -, -⟩
    · obtain ⟨hcode, -⟩ := prologue_code he
      have hone : errCode e = 1 := by
        rw [← toNat_ofNat_errCode, ← statusWithErr_err s.status (errCode e), ← raise_status, herr]
        rfl
      rw [hone] at hcode
      exact absurd hcode (by decide)
    · exact absurd herr (hcomplete u)

/-- Settles O26: `layoutFailed s` is the state of the statement. -/
theorem layoutRefusesOtherModuli : Obligations.LayoutRefusesOtherModuli := by
  refine ⟨fun s hp => ⟨exec_layout_of_not_accepted hp, ?_⟩, fun i s t => err_config_only_of_layout⟩
  have hagain : exec .layout (layoutFailed s) = .next (layoutFailed (layoutFailed s)) := exec_layout_of_not_accepted hp
  rw [layoutFailed_idem] at hagain
  exact hagain

end Sys2Proof.Proofs
end

section
/-! PROOFS. How commands end: in the error of the first failing check, or completed, and always so on a platform that
backs every word address (R110, R112, R118, R121, R143). -/

namespace Sys2Proof.Proofs

open Sys2Proof.Machine Sys2Proof.Safety Sys2Proof.Laws

/-! The checks in order. -/

/-- Settles O20: each clause makes its own check the first that fails. -/
theorem commandReportsFirstFailingCheck : Obligations.CommandReportsFirstFailingCheck := by
  intro s c rest hs u
  refine ⟨fun e hd => step_of_illegal hs hd, fun i hd hi => ?_, fun hd hp => ?_⟩
  · have hstep {k : Nat} (hk : firstFailure i u = some k) : step s = .next (failed k u) :=
      (step_of_command hs hd).trans (failsInOrder_of_ne_layout hi u k hk)
    have hvalid (hv : u.status.getLsbD 8 = true) : ¬ u.status.getLsbD 8 = false := by rw [hv]; decide
    refine ⟨fun hv => hstep ?_, fun hv hl => hstep ?_, fun hv hl ha => hstep ?_, fun hv hl ha hx => hstep ?_⟩
    · rw [firstFailure, if_pos hv]
    · rw [firstFailure, if_neg (hvalid hv), if_pos hl]
    · rw [firstFailure, if_neg (hvalid hv), if_neg hl, if_pos ha]
    · rw [firstFailure, if_neg (hvalid hv), if_neg hl, if_neg ha, if_pos hx]
  · refine ⟨_, (step_of_command hs hd).trans (exec_layout_of_not_accepted hp), ?_⟩
    rw [← raise_config_clearLayout, raise_status, statusWithErr_err]
    rfl

/-- Settles O21, by the endings of LAYOUT and those of the other commands. -/
theorem commandCompletesOrFailsWithoutEffect : Obligations.CommandCompletesOrFailsWithoutEffect := by
  intro i s t h
  by_cases hi : i = .layout
  · subst hi
    rcases exec_layout_cases h with ⟨-, rfl⟩ | ⟨l, -, rfl⟩
    · exact .inr (.inr ⟨rfl, by rw [raise_eq_failed, clearLayout_eq]; rfl⟩)
    · exact .inl ⟨rfl, statusWithErr_err _ 0, fun hne => absurd rfl hne⟩
  · rcases exec_cases h hi with ⟨e, he, rfl⟩ | ⟨-, u, rfl, -, hw⟩
    · obtain ⟨hcode, -⟩ := prologue_code he
      exact .inr (.inl ⟨hi, errCode e, hcode, raise_eq_failed e s⟩)
    · have hk := sameConfig_of_workOnly hw
      refine .inl ⟨hk.errlog, statusWithErr_err _ 0, fun _ => ?_⟩
      rw [complete_status_eq_okStatus, okStatus, okStatus, hk.status]

/-! Completion. -/

/-- Settles O22: LAYOUT by the lane width of its modulus, any other command by its report. -/
theorem readyCommandsComplete : Obligations.ReadyCommandsComplete := by
  intro i s hc hb
  by_cases hi : i = .layout
  · subst hi
    obtain ⟨l, h32, h2, hp⟩ := (if_pos rfl).mp hc
    exact ⟨_, exec_layout_of_accepted h32 h2 hp, statusWithErr_err _ 0⟩
  · obtain ⟨t, ht⟩ := exec_answers hi hc hb
    obtain ⟨-, hstatus, -⟩ := report_of_prologue_none hi ((prologue_eq_none_iff_checksPass i s hi).2 hc) ht
    exact ⟨t, ht, by rw [hstatus]; exact statusWithErr_err s.status 0⟩

/-- Settles O40: case (c) of R94, which makes no access. -/
theorem notDivisibleIsAResult : Obligations.NotDivisibleIsAResult := by
  intro q s hc h1 hd
  have hp : prologue true true false s = none := (prologue_eq_none_iff_checksPass (.cmpeqq q) s nofun).2 hc
  have hq : q ≠ s.modulus.toNat := fun h => hd (h ▸ dvd_rfl)
  rw [exec_cmpeqq, withPrologue_of_none hp, if_neg hq, if_neg h1, if_pos ((zero_or_mod_ne_zero_iff hq).2 hd),
    andThen_next, complete_eq]
  rfl

/-! Full storage. -/

/-- The word addresses where a command may make an access: those of the buffers that it uses, and of the word of the
lane index that it uses (R46, R61). -/
inductive AccessPlace (i : Instr) (s : State) : Nat → Prop
  | wordOfA (hu : usesA i = true) (k : Nat) (hk : k < s.wordCount.toNat) : AccessPlace i s (s.aBase.toNat + k)
  | wordOfB (hu : usesB i = true) (k : Nat) (hk : k < s.wordCount.toNat) : AccessPlace i s (s.bBase.toNat + k)
  | wordOfLane (hu : usesA i = true) (hidx : usesIdx i = true) : AccessPlace i s (laneWordAddr s)

theorem mem_eachWord {s : State} {f : Nat → List Access} {x : Access} :
    x ∈ eachWord s f ↔ ∃ k, k < s.wordCount.toNat ∧ x ∈ f k := by
  simp only [eachWord, List.mem_flatMap, List.mem_range]

/-- A comparison reads words of both buffers. -/
theorem accessPlace_of_compare {i : Instr} {s : State} {x : Access} (hA : usesA i = true) (hB : usesB i = true)
    (hx : x ∈ compareAccesses s) : AccessPlace i s (accessAddr x) := by
  obtain ⟨k, hk, rfl | rfl⟩ := mem_compareAccesses.1 hx
  · exact .wordOfA hA k hk
  · exact .wordOfB hB k hk

/-- Every access of a command is at one of its places, row by row of R46. -/
theorem accessPlace_of_mem_accesses {i : Instr} {s : State} {x : Access} (hx : x ∈ accesses i s) :
    AccessPlace i s (accessAddr x) := by
  cases i with
  | layout => cases hx
  | copy =>
    obtain ⟨k, hk, hx⟩ := mem_eachWord.1 hx
    rcases List.mem_pair.1 hx with rfl | rfl
    · exact .wordOfA rfl k hk
    · exact .wordOfB rfl k hk
  | cmpeq => exact accessPlace_of_compare rfl rfl hx
  | cmpeqq q =>
    rw [accesses] at hx
    split at hx
    · cases hx
    · exact accessPlace_of_compare rfl rfl hx
  | add =>
    obtain ⟨k, hk, hx⟩ := mem_eachWord.1 hx
    rcases List.mem_cons.1 hx with rfl | hx
    · exact .wordOfA rfl k hk
    rcases List.mem_pair.1 hx with rfl | rfl
    · exact .wordOfB rfl k hk
    · exact .wordOfA rfl k hk
  | smul factor =>
    obtain ⟨k, hk, hx⟩ := mem_eachWord.1 hx
    rcases List.mem_pair.1 hx with rfl | rfl
    all_goals exact .wordOfA rfl k hk
  | lget =>
    obtain rfl := List.mem_singleton.1 hx
    exact .wordOfLane rfl rfl
  | lset =>
    rcases List.mem_pair.1 hx with rfl | rfl
    all_goals exact .wordOfLane rfl rfl

/-- The word of a lane index below DIM is one of the WORD_COUNT words of the buffer (R32, R75, R80). -/
theorem laneWord_lt_wordCount {s : State} (hinv : LayoutInv s) (hvalid : s.status.getLsbD 8 = true)
    (hidx : s.laneIdx.toNat < s.dim.toNat) : s.laneIdx.toNat / s.lanesPerWord.toNat < s.wordCount.toNat := by
  obtain ⟨l, h32, h2, -, -, -, hn, -, -, hwc⟩ := exists_holdsLayout hinv hvalid
  obtain ⟨hword, -, htwo⟩ := slots_of_pitch _ (lanePitchOf_mem l)
  obtain ⟨hholds, -⟩ := wordCountOf_least s.dim.toNat (show 1 ≤ 64 / lanePitchOf l by omega)
  rw [hn, hwc]
  exact Nat.div_lt_of_lt_mul (Nat.lt_of_lt_of_le hidx hholds)

/-- With storage at every word address, the accesses of a command whose checks pass are to storage (R45, R54). -/
theorem portBacks_of_no_holes {i : Instr} {s : State} (hi : i ≠ .layout) (hinv : LayoutInv s)
    (hholes : s.params.holes = []) (hc : ChecksPass i s) : PortBacks i s := by
  obtain ⟨hvalid, -, -, hA, hB, hidx⟩ := prologue_eq_none.1 ((prologue_eq_none_iff_checksPass i s hi).2 hc)
  intro x hx
  refine ⟨?_, by rw [hholes]; exact List.forall_mem_nil _⟩
  have hplace := accessPlace_of_mem_accesses hx
  generalize accessAddr x = a at hplace ⊢
  cases hplace with
  | wordOfA hu k hk =>
    have hfit := hA hu
    omega
  | wordOfB hu k hk =>
    have hfit := hB hu
    omega
  | wordOfLane hu hux =>
    have hfit := hA hu
    have hlane := laneWord_lt_wordCount hinv hvalid (hidx hux)
    rw [laneWordAddr]
    omega

/-- Settles O23: a failing check ends a command, and so do its accesses when all its checks pass. -/
theorem commandsAlwaysEndOnFullStorage : Obligations.CommandsAlwaysEndOnFullStorage := by
  intro i s hinv hholes
  by_cases hi : i = .layout
  · subst hi
    exact exec_layout_answers s
  cases hp : prologue (usesA i) (usesB i) (usesIdx i) s with
  | some e => exact ⟨_, exec_of_prologue_some hi hp⟩
  | none =>
    have hc := (prologue_eq_none_iff_checksPass i s hi).1 hp
    exact exec_answers hi hc (portBacks_of_no_holes hi hinv hholes hc)

end Sys2Proof.Proofs
end
